-- ==== Sys2Proof/Word.lean ====
section
/-! DEFINITION. The word and byte types (00_scope.md R6) and the eight lanes of a block (R5, R130). -/

namespace Sys2Proof

/-- A word: a 32-bit unsigned integer; bit 0 is the least significant bit (R6). -/
abbrev Word := BitVec 32

/-- A byte is 8 bits (R6). -/
abbrev Byte := BitVec 8

/-- One thing for each of the eight lanes of a block, lane 0 first (R130). -/
abbrev Lanes (α : Type) := Vector α 8

/-- The lane numbers in ascending order, the order of every `for k in 0..7 (ascending)` of the spec (R8). -/
def laneOrder : List (Fin 8) := [0, 1, 2, 3, 4, 5, 6, 7]

/-- A word repeated in all eight lanes. -/
def Lanes.same {α : Type} (x : α) : Lanes α := Vector.replicate 8 x

end Sys2Proof
end

