-- ==== Sys2Proof/Config.lean ====
section
/-! DEFINITION. What this hardware fixes (00_scope.md R5) and the free values: what the spec leaves open for every
value, as constants without a body. -/

namespace Sys2Proof

/-- The number of byte addresses of data memory: addresses are 0 .. 2^32 - 1 (R5 `AW`, R50). -/
def Config.addressSpace : Nat := 2 ^ 32

/-- The largest legal value count `NMAX` (R5, R31): the value this hardware takes. -/
def Config.nmax : Nat := 2 ^ 28

/-- Free value: the byte that memory holds at an address where its content is unspecified. The first argument is the
occasion (0 is what the platform put there before anything ran, R40; each loss of a destination window, R206 and R231,
is a new one), the second the address. Log entries 1 and 2. -/
opaque Config.freeByte : Nat → Nat → Byte

/-- Free value: which of the block indices not yet completed a host read of BLK returns while BUSY (R246, U25 of
93_implementation_defined.md). The argument is the occasion. Log entry 3. -/
opaque Config.freeChoice : Nat → Nat

/-- Free value: what FADDR holds when the address of the refused access does not fit its 32 bits; the spec states no
value there (R35, R203). The argument is the occasion. Log entry 4. -/
opaque Config.freeFaddr : Nat → Word

end Sys2Proof
end

