-- ==== Sys2Proof/Syntax.lean ====
section
/-! DEFINITION. The instructions: one constructor for each row of spec/opcode_table.json. Five are command words
(30_encoding.md R70), one is the block header word (R74) and four are the lane descriptors by their lz code (R75, R76). -/

namespace Sys2Proof

/-- The rows of the opcode table. The operands of a command are the registers N, SRC, SRC_LEN, DST and DST_LEN (R70), so
the commands carry no field. -/
inductive Instr where
  /-- ENC, full-codec encode (43_jobs.md R170). -/
  | enc
  /-- DEC, full-codec decode (R171). -/
  | dec
  /-- ENCQ, quick-codec encode (R172). -/
  | encq
  /-- DECQ, quick-codec decode (R173). -/
  | decq
  /-- UBOUND, the size function (R174). -/
  | ubound
  /-- BLKHDR, a block header word: the lz code and the tz count of each lane (R74). -/
  | blkhdr (lz tz : Lanes (BitVec 2))
  /-- LANE.W4, the lane descriptor with lz code 0: a payload of 4 bytes (R76). -/
  | laneW4 (tz : BitVec 2)
  /-- LANE.W3, the lane descriptor with lz code 1: a payload of 3 bytes (R76). -/
  | laneW3 (tz : BitVec 2)
  /-- LANE.W2, the lane descriptor with lz code 2: a payload of 2 bytes (R76). -/
  | laneW2 (tz : BitVec 2)
  /-- LANE.W0, the lane descriptor with lz code 3: no payload (R76). -/
  | laneW0 (tz : BitVec 2)
deriving DecidableEq, Repr

/-- The three formats of the opcode table: the command word (R70), the block header word (R74) and the 4-bit lane
descriptor of the spec's tables (R75). -/
inductive Format where
  | cmd
  | hdr
  | desc
deriving DecidableEq, Repr

/-- The format a row belongs to. -/
def Instr.format : Instr → Format
  | .enc => .cmd
  | .dec => .cmd
  | .encq => .cmd
  | .decq => .cmd
  | .ubound => .cmd
  | .blkhdr _ _ => .hdr
  | .laneW4 _ => .desc
  | .laneW3 _ => .desc
  | .laneW2 _ => .desc
  | .laneW0 _ => .desc

end Sys2Proof
end

