-- ==== Sys2Proof/WellFormed.lean ====
section
/-! DEFINITION. Well-formedness. The types of `Instr` already admit exactly what the encodings admit: a command has no
field, and every value of a 2-bit field of a header or a descriptor is decodable (30_encoding.md R77, R79: nothing of
the stream is reserved or illegal). What the spec does single out is which lanes an ENCODER can emit: the canonical
lanes of R77. -/

namespace Sys2Proof

/-- Every term of `Instr` stands for an encoding the spec admits (R79). -/
def Instr.wf : Instr → Bool
  | .enc => true
  | .dec => true
  | .encq => true
  | .decq => true
  | .ubound => true
  | .blkhdr _ _ => true
  | .laneW4 _ => true
  | .laneW3 _ => true
  | .laneW2 _ => true
  | .laneW0 _ => true

/-- The eight descriptors an encode job produces (R77). -/
def canonicalDescriptors : List (BitVec 2 × BitVec 2) :=
  [(0, 0), (0, 1), (0, 2), (1, 1), (1, 2), (2, 2), (3, 2), (3, 3)]

/-- The payload constraint of R77's table, for a payload of the descriptor's width. -/
def canonicalPayload (tz lz : BitVec 2) (payload : List Byte) : Bool :=
  match payload with
  | [] => lz == 3
  | first :: rest =>
    match lz.toNat with
    | 0 => first != 0 && rest.getLastD 0 != 0
    | 1 => first != 0 && rest.getLastD 0 != 0
    | 2 => first != 0 && (tz != 3 || rest == [0])
    | _ => false

/-- A canonical lane: one an encode job can have written (R77). A decode job never checks this. -/
def canonicalLane (tz lz : BitVec 2) (payload : List Byte) : Bool :=
  canonicalDescriptors.contains (tz, lz) && canonicalPayload tz lz payload

end Sys2Proof
end

