-- ==== Sys2Proof/Decode.lean ====
section
/-! DEFINITION. The decoder of the three formats (30_encoding.md), total on any bytes, and the encoder; the byte order
(little-endian throughout, 20_memory.md R51) and the bit fields of the block header word are decided here, once. -/

namespace Sys2Proof

/-- Why bytes are not an encoding. -/
inductive DecodeError where
  /-- Fewer bytes than the format has. -/
  | truncated
  /-- A command word with one of bits 31:3 set (R70, R79). -/
  | reservedBits
  /-- A command word with OPC 5, 6 or 7 (R70, R79). -/
  | reservedOpc
  /-- A descriptor byte with a bit above the 4 of the descriptor set: no such descriptor exists (R75). -/
  | notADescriptor
deriving DecidableEq, Repr

/-- The low `n` bytes of a word, least significant first (R51; byte j of R6). -/
def leBytes : Nat → Word → List Byte
  | 0, _ => []
  | n + 1, x => x.setWidth 8 :: leBytes n (x >>> 8)

/-- The word whose little-endian bytes are given, zero-extended (R8 `MemRead` and `zext_32`). -/
def fromLE : List Byte → Word
  | [] => 0
  | b :: bs => b.setWidth 32 ||| (fromLE bs <<< 8)

/-- The lz code of lane `k` in a header word: `H[2k+1 : 2k]` (R74, R141). -/
def hdrLz (h : Word) (k : Fin 8) : BitVec 2 := h.extractLsb' (2 * k.val) 2

/-- The tz count of lane `k` in a header word: `H[2k+17 : 2k+16]` (R74, R141). -/
def hdrTz (h : Word) (k : Fin 8) : BitVec 2 := h.extractLsb' (16 + 2 * k.val) 2

/-- `pack_hdr` (42_header_payload.md R140). -/
def packHdr (lz tz : Lanes (BitVec 2)) : Word :=
  laneOrder.foldl
    (fun (h : Word) (k : Fin 8) => h ||| (lz[k].setWidth 32 <<< (2 * k.val)) ||| (tz[k].setWidth 32 <<< (16 + 2 * k.val))) 0

/-- The row of a lane descriptor, by its lz code (R76). -/
def laneOf (tz lz : BitVec 2) : Instr :=
  match lz.toNat with
  | 0 => .laneW4 tz
  | 1 => .laneW3 tz
  | 2 => .laneW2 tz
  | _ => .laneW0 tz

/-- A command word (R70): any of bits 31:3 set is illegal whatever OPC is, and OPC 5, 6, 7 are illegal. -/
def decodeCmd (w : Word) : Except DecodeError Instr :=
  if w.extractLsb' 3 29 ≠ 0 then .error .reservedBits
  else
    match (w.extractLsb' 0 3).toNat with
    | 0 => .ok .enc
    | 1 => .ok .dec
    | 2 => .ok .encq
    | 3 => .ok .decq
    | 4 => .ok .ubound
    | _ => .error .reservedOpc

/-- A block header word (`unpack_hdr`, R141): total on all 2^32 words. -/
def decodeHdr (h : Word) : Instr :=
  .blkhdr (Vector.ofFn fun k => hdrLz h k) (Vector.ofFn fun k => hdrTz h k)

/-- A lane descriptor in the notation `desc = (tz << 2) OR lz` (R75): all 16 are decodable (R77). -/
def decodeDesc (d : BitVec 4) : Instr := laneOf (d.extractLsb' 2 2) (d.extractLsb' 0 2)

/-- Reads one encoding of a format from bytes, lowest address first: the instruction and the bytes after it. A
descriptor of the tables is laid out as one byte whose high nibble is 0. -/
def decode (f : Format) (bytes : List Byte) : Except DecodeError (Instr × List Byte) :=
  match f, bytes with
  | .cmd, b0 :: b1 :: b2 :: b3 :: rest =>
    match decodeCmd (fromLE [b0, b1, b2, b3]) with
    | .ok i => .ok (i, rest)
    | .error e => .error e
  | .hdr, b0 :: b1 :: b2 :: b3 :: rest => .ok (decodeHdr (fromLE [b0, b1, b2, b3]), rest)
  | .desc, b :: rest =>
    if b.extractLsb' 4 4 ≠ 0 then .error .notADescriptor
    else .ok (decodeDesc (b.setWidth 4), rest)
  | _, _ => .error .truncated

/-- The command word of an operation (R70). -/
def cmdWord (opc : BitVec 3) : Word := opc.setWidth 32

/-- The descriptor byte `(tz << 2) OR lz` (R75). -/
def descByte (tz lz : BitVec 2) : Byte := (tz.setWidth 8 <<< 2) ||| lz.setWidth 8

/-- The bytes of an instruction's encoding, lowest address first (R70, R74, R75). -/
def encode : Instr → List Byte
  | .enc => leBytes 4 (cmdWord 0)
  | .dec => leBytes 4 (cmdWord 1)
  | .encq => leBytes 4 (cmdWord 2)
  | .decq => leBytes 4 (cmdWord 3)
  | .ubound => leBytes 4 (cmdWord 4)
  | .blkhdr lz tz => leBytes 4 (packHdr lz tz)
  | .laneW4 tz => [descByte tz 0]
  | .laneW3 tz => [descByte tz 1]
  | .laneW2 tz => [descByte tz 2]
  | .laneW0 tz => [descByte tz 3]

/-- The format in which the opcode table's bits of a row are read: a row of at most one byte is a lane descriptor; a
32-bit word is a command word where it is one of the five, and a block header word otherwise. The hardware itself never
has to choose: the register CMD holds a command word and a stream holds header words (R70, R74). Log entry 5. -/
def tableFormat (nbits w : Nat) : Format :=
  if nbits ≤ 8 then .desc
  else
    match decodeCmd (BitVec.ofNat 32 w) with
    | .ok _ => .cmd
    | .error _ => .hdr

/-- The instruction that the decoder reads from an instruction whose bits are `w`, numbered as the opcode table numbers
them. A number that does not fit the row's format is refused. -/
def decodeTableWord (nbits w : Nat) : Option Instr :=
  let bytes := if nbits ≤ 8 then leBytes 1 (BitVec.ofNat 32 w) else leBytes 4 (BitVec.ofNat 32 w)
  if 2 ^ (if nbits ≤ 8 then 8 else 32) ≤ w then none
  else
    match decode (tableFormat nbits w) bytes with
    | .ok (i, _) => some i
    | .error _ => none

end Sys2Proof
end

