-- ==== Sys2Proof/Machine/State.lean ====
section
/-! DEFINITION. The state of one engine and its data memory, as plain data (10_state.md), the reasons a step can stop,
and the state after reset (R40). -/

namespace Sys2Proof.Machine

/-- STATUS.STATE (R22, R23). -/
inductive JobState where
  /-- 0: after reset, no job run yet. -/
  | idle
  /-- 1: a job is running. -/
  | busy
  /-- 2: the last job finished without fault. -/
  | done
  /-- 3: the last job ended in a fault. -/
  | err
deriving DecidableEq, Repr

/-- STATUS.CAUSE (R22, 60_exceptions.md R200). -/
inductive Cause where
  /-- 0, NONE: the value in every state but ERR. -/
  | noFault
  /-- 1: a command word that is no operation. -/
  | illegalCmd
  /-- 2: N above NMAX. -/
  | badN
  /-- 3: a window that runs past the top of the address space. -/
  | badWindow
  /-- 4: two non-empty windows that intersect. -/
  | aliasing
  /-- 5: a read outside the source window. -/
  | srcBounds
  /-- 6: a write outside the destination window. -/
  | dstBounds
  /-- 7: an access the platform refused. -/
  | bus
deriving DecidableEq, Repr

/-- Where the engine stands within a block step: the model's own field. A block step runs whole in one step (R163), so
every step from `boundary` ends at `boundary`; the other places are those of a state put inside a block step, from which
a step runs one header word or one lane descriptor. Log entry 6. -/
inductive Stage where
  /-- Between block steps. -/
  | boundary
  /-- The header word of block BLK is next. -/
  | header
  /-- The descriptor of this lane is next. -/
  | lane (k : Fin 8)
  /-- All lanes are done; what ends the block step is next. -/
  | close
deriving DecidableEq, Repr

/-- The kind of a memory access (R50). -/
inductive AccessKind where
  | read
  | write
deriving DecidableEq, Repr

/-- One thing the platform refuses: accesses of a kind whose first address lies in `[lo, hi)` and whose byte count lies
in `[nLo, nHi]`. A list of these says any predicate `MemAdmit(addr, n, kind)` (R50), as plain data. -/
structure Denial where
  lo : Nat
  hi : Nat
  nLo : Nat
  nHi : Nat
  kind : AccessKind
deriving DecidableEq, Repr

/-- What the platform fixes about data memory (R5 `MemAdmit`, R50, R60): the refused accesses, none by default, and the
address ranges `[lo, hi)` that are device registers and not ordinary memory, none by default. No step changes it. -/
structure Platform where
  deny : List Denial
  devices : List (Nat × Nat)
deriving DecidableEq, Repr

/-- Addresses `[lo, hi)` whose bytes are unspecified since the occasion `tag`. -/
structure Span where
  lo : Nat
  hi : Nat
  tag : Nat
deriving DecidableEq, Repr

/-- Data memory (R50): the listed bytes and the spans of unspecified bytes. -/
structure Memory where
  cells : List Host.Cell
  spans : List Span
deriving DecidableEq, Repr

/-- What happens next outside or inside the engine: the host's (or another agent's) actions and the engine's steps, one
per step of the machine, in the order the list gives. This is the model's form of "who moves next" (R20). Log entry 7. -/
inductive Turn where
  /-- The engine takes its next step (R163). -/
  | engine
  /-- The host writes `value`, `size` bytes wide, at byte offset `offset` of the register space (R22). -/
  | regWrite (offset size : Nat) (value : Word)
  /-- The host reads `size` bytes at byte offset `offset` of the register space (R22). -/
  | regRead (offset size : Nat)
  /-- The host or another agent writes a byte of data memory (R20, R240). -/
  | memWrite (addr : Word) (value : Byte)
  /-- The host or another agent reads a byte of data memory (R20, R240). -/
  | memRead (addr : Word)
  /-- Reset (70_reset_and_hazards.md R230). -/
  | reset
deriving DecidableEq, Repr

/-- The two windows of a streaming job, as its start step found them (R32, R33). -/
structure Windows where
  src : Word
  srcLen : Word
  dst : Word
  dstLen : Word
deriving DecidableEq, Repr

/-- The predictor state `P = (PRIOR, IDX, XPRIOR, LOOKUP)` (R176). -/
structure Predictor where
  /-- PRIOR[0..7], the delta state (R25). -/
  prior : Lanes Word
  /-- IDX[0..7], the saved slot indices (R26). -/
  idx : Lanes Byte
  /-- XPRIOR[0..7], the xor state (R27). -/
  xprior : Lanes Word
  /-- LOOKUP[0..255], the predictor table (R28). -/
  lookup : Vector Word 256
deriving DecidableEq, Repr

/-- The predictor state `P0`, all zero (40_predictor.md R108). -/
def Predictor.zero : Predictor where
  prior := Lanes.same 0
  idx := Lanes.same 0
  xprior := Lanes.same 0
  lookup := Vector.replicate 256 0

/-- The state of one engine, its data memory and what is pending outside it (R21). -/
structure State where
  /-- CTRL.START: a start that has been written and not yet taken (R22, R160). It reads as 0. -/
  start : Bool
  /-- STATUS.STATE (R23). -/
  status : JobState
  /-- STATUS.CAUSE (R200). -/
  cause : Cause
  /-- CMD (R30). -/
  cmd : Word
  /-- N (R31). -/
  n : Word
  /-- SRC (R32). -/
  src : Word
  /-- SRC_LEN (R32). -/
  srcLen : Word
  /-- DST (R33). -/
  dst : Word
  /-- DST_LEN (R33). -/
  dstLen : Word
  /-- RESULT (R34). -/
  result : Word
  /-- FADDR (R35). -/
  faddr : Word
  /-- BLK (R24). -/
  blk : Word
  /-- PCUR (R29). -/
  pcur : Word
  /-- PRIOR, IDX, XPRIOR, LOOKUP (R25 to R28). -/
  pred : Predictor
  /-- Model's own: where the engine stands within a block step. -/
  stage : Stage
  /-- Model's own: the header word `H` of the block being processed (R164, R165). -/
  hdr : Word
  /-- Model's own: the residuals `r[0..7]` of the block being processed (R164, R165). -/
  resid : Lanes Word
  /-- Data memory (R50); shared with the host. -/
  mem : Memory
  /-- The platform's `MemAdmit` and its device ranges (R50). -/
  plat : Platform
  /-- Model's own: what happens next; when it is empty the engine moves. -/
  turns : List Turn
  /-- Model's own: what the last host read returned. -/
  hostData : Word
  /-- Model's own: the last BLK index a host read returned in this job (R246: the value only ever grows). -/
  blkSeen : Word
  /-- Model's own: the windows of the streaming jobs whose end no host read of STATUS has reported yet (R240). -/
  unread : List Windows
  /-- Model's own: the number of free values taken so far. -/
  freeCtr : Nat
deriving DecidableEq, Repr

/-- Why the machine stops. Every fault the spec describes ends in the state ERR, which is a next state (R206), so only
one reason is left. -/
inductive Fault where
  /-- Raised by a memory access whose bytes pass the top of the address space: those addresses do not exist (R50).
  Job start excludes it (R161), so only states that no run reaches give it. Safe. -/
  | noSuchAddress (addr : Nat)
deriving DecidableEq, Repr

/-- Why the machine gives a step no meaning. -/
inductive Refusal where
  /-- An instruction that is not modelled yet, by its mnemonic. None is left. Safe. -/
  | notModelled (mnemonic : String)
  /-- A register access that is not a naturally aligned 32-bit access: "a model refuses any other width or alignment"
  (R22). Raised by a host read or write. Safe. -/
  | badRegisterAccess (offset size : Nat)
  /-- From a START until a read of STATUS returns DONE or ERR, another agent writes the source window, or reads or writes
  the destination window: "a model gives such a run no meaning (it refuses it)" (R240). Raised by a host memory access. Safe. -/
  | windowTouched (addr : Word)
  /-- A job whose window lies over device registers: "placing a window over device registers is outside the contract and
  a model refuses it" (R56). Raised by the start step of ENC, DEC, ENCQ and DECQ. Safe. -/
  | windowOverDevice
  /-- A BUSY engine whose CMD is no operation: the start check excludes it (R161) and CMD is frozen while BUSY (R36), so
  no run reaches it. Raised by the fetch. Safe. -/
  | noOperation
deriving DecidableEq, Repr

/-- Memory as the platform leaves it: nothing is listed and every byte is unspecified (R40: "contents are the
platform's"). -/
def Memory.untouched : Memory where
  cells := []
  spans := [⟨0, Config.addressSpace, 0⟩]

/-- The default platform: `MemAdmit` is always true (R5) and no address is a device register. -/
def Platform.default : Platform where
  deny := []
  devices := []

/-- The machine right after reset (R40, R230). The engine registers are unspecified there; the zeros below are the
model's (log entry 8). -/
def State.reset : State where
  start := false
  status := .idle
  cause := .noFault
  cmd := 0
  n := 0
  src := 0
  srcLen := 0
  dst := 0
  dstLen := 0
  result := 0
  faddr := 0
  blk := 0
  pcur := 0
  pred := Predictor.zero
  stage := .boundary
  hdr := 0
  resid := Lanes.same 0
  mem := Memory.untouched
  plat := Platform.default
  turns := []
  hostData := 0
  blkSeen := 0
  unread := []
  freeCtr := 1

end Sys2Proof.Machine
end

