-- ==== Sys2Proof/Machine/Flags.lean ====
section
/-! DEFINITION. The engine's only flag group, STATUS (10_state.md R22, R23): its codes and its word. -/

namespace Sys2Proof.Machine

/-- The 2-bit code of STATE (R22). -/
def JobState.code : JobState → BitVec 2
  | .idle => 0
  | .busy => 1
  | .done => 2
  | .err => 3

/-- The 4-bit code of CAUSE (60_exceptions.md R200). -/
def Cause.code : Cause → BitVec 4
  | .noFault => 0
  | .illegalCmd => 1
  | .badN => 2
  | .badWindow => 3
  | .aliasing => 4
  | .srcBounds => 5
  | .dstBounds => 6
  | .bus => 7

/-- What STATUS reads as: STATE in bits 1:0, CAUSE in bits 7:4, every reserved bit 0 (R22). -/
def statusWord (st : JobState) (c : Cause) : Word :=
  st.code.setWidth 32 ||| (c.code.setWidth 32 <<< 4)

end Sys2Proof.Machine
end

