-- ==== Sys2Proof/Machine/LaneCodec.lean ====
section
/-! DEFINITION. The lane codec (41_lane_codec.md): zero-byte stripping of one residual, and its inverse. No state, no
fault. -/

namespace Sys2Proof.Machine

/-- The number of consecutive zero bits from bit `i` going up, looking at `fuel` bits. -/
def zerosUp (x : Word) (i : Nat) : Nat → Nat
  | 0 => 0
  | fuel + 1 => if x.getLsbD i then 0 else 1 + zerosUp x (i + 1) fuel

/-- The number of consecutive zero bits going down from bit `n - 1`. -/
def zerosDown (x : Word) : Nat → Nat
  | 0 => 0
  | n + 1 => if x.getLsbD n then 0 else 1 + zerosDown x n

/-- `ctz32` (00_scope.md R7): 32 for the zero word. -/
def ctz32 (x : Word) : Nat := zerosUp x 0 32

/-- `clz32` (R7): 32 for the zero word. -/
def clz32 (x : Word) : Nat := zerosDown x 32

/-- The tz field (R120): `q - (q >> 2)` with `q = ctz32(r) >> 3`. -/
def tzField (r : Word) : Nat := ctz32 r >>> 3 - (ctz32 r >>> 3) >>> 2

/-- The significant word (R121). -/
def significant (r : Word) : Word := r >>> (8 * tzField r)

/-- The leading-zero-byte count of the significant word (R122), not clamped. -/
def lzBytes (r : Word) : Nat := clz32 (significant r) >>> 3

/-- The lz code (R123): `lzb - [lzb > 2]`. -/
def lzField (r : Word) : Nat := lzBytes r - (if 2 < lzBytes r then 1 else 0)

/-- The payload width, encoder's form (R124): `4 - (lzb - [lzb = 3])`. -/
def stripWidth (r : Word) : Nat := 4 - (lzBytes r - (if lzBytes r = 3 then 1 else 0))

/-- What `strip` yields for one lane (R125): the descriptor, the width and the significant word. -/
structure Stripped where
  tz : BitVec 2
  lz : BitVec 2
  width : Nat
  sig : Word
deriving DecidableEq, Repr

/-- `strip` (R125). -/
def strip (r : Word) : Stripped where
  tz := BitVec.ofNat 2 (tzField r)
  lz := BitVec.ofNat 2 (lzField r)
  width := stripWidth r
  sig := significant r

/-- The payload bytes of `strip` (R125): the `w` low bytes of S, little-endian. -/
def Stripped.payload (p : Stripped) : List Byte := leBytes p.width p.sig

/-- The payload width, decoder's form (30_encoding.md R76): `4 - (lz + ((lz + 1) >> 2))`. -/
def width (lz : BitVec 2) : Nat := 4 - (lz.toNat + (lz.toNat + 1) >>> 2)

/-- The residual of a significant word (R78, R126): `S << (8*tz)`, truncated to 32 bits. -/
def unshift (tz : BitVec 2) (sig : Word) : Word := sig <<< (8 * tz.toNat)

/-- `unstrip` (R126): every descriptor and payload has a result. -/
def unstrip (tz : BitVec 2) (payload : List Byte) : Word := unshift tz (fromLE payload)

end Sys2Proof.Machine
end

