-- ==== Sys2Proof/Machine/Ops.lean ====
section
/-! DEFINITION. The named operations over data memory, and taking a fault (60_exceptions.md R206). -/

namespace Sys2Proof.Machine

/-! ### Data memory (20_memory.md R50) -/

/-- Whether an address lies in a span. -/
def Span.has (sp : Span) (a : Nat) : Bool := sp.lo ≤ a && a < sp.hi

/-- The byte listed at an address, if one is. -/
def cellAt : List Host.Cell → Nat → Option Byte
  | [], _ => none
  | (x, b) :: rest, a => if x = a then some b else cellAt rest a

/-- The first span that holds an address, if one does. -/
def spanAt : List Span → Nat → Option Span
  | [], _ => none
  | sp :: rest, a => if sp.has a then some sp else spanAt rest a

/-- What an address that is not listed reads as: a free value where its content is unspecified, and 0 elsewhere. From
`State.reset` every address is unspecified until it is written, so the 0 is never read before it was written (log
entry 1). -/
def Memory.unlisted (m : Memory) (a : Nat) : Byte :=
  match spanAt m.spans a with
  | some sp => Config.freeByte sp.tag a
  | none => 0

/-- The byte at an address (R50). -/
def Memory.readByte (m : Memory) (a : Nat) : Byte :=
  match cellAt m.cells a with
  | some b => b
  | none => m.unlisted a

/-- The list of bytes with `a` holding `b`: sorted by address, and without an entry where `b` is 0. -/
def putCell : List Host.Cell → Nat → Byte → List Host.Cell
  | [], a, b => if b = 0 then [] else [(a, b)]
  | (x, c) :: rest, a, b =>
    if a < x then (if b = 0 then (x, c) :: rest else (a, b) :: (x, c) :: rest)
    else if a = x then (if b = 0 then rest else (a, b) :: rest)
    else (x, c) :: putCell rest a b

/-- What is left of a span when `[lo, hi)` is taken out of it: up to two spans. -/
def Span.cut (lo hi : Nat) (sp : Span) : List Span :=
  (if sp.lo < min sp.hi lo then [⟨sp.lo, min sp.hi lo, sp.tag⟩] else []) ++
    (if max sp.lo hi < sp.hi then [⟨max sp.lo hi, sp.hi, sp.tag⟩] else [])

/-- Writes one byte (R56: a write changes that byte and nothing else). -/
def Memory.writeByte (m : Memory) (a : Nat) (b : Byte) : Memory where
  cells := putCell m.cells a b
  spans := m.spans.flatMap (Span.cut a (a + 1))

/-- Puts a span into a list of spans in ascending order. -/
def insertSpan : List Span → Span → List Span
  | [], sp => [sp]
  | x :: rest, sp => if sp.lo < x.lo then sp :: x :: rest else x :: insertSpan rest sp

/-- Makes every byte of `[lo, hi)` unspecified, on the occasion `tag` (R206, R231). -/
def Memory.lose (m : Memory) (lo hi tag : Nat) : Memory :=
  if lo < hi then
    { cells := m.cells.filter fun c => !(lo ≤ c.1 && c.1 < hi)
      spans := insertSpan (m.spans.flatMap (Span.cut lo hi)) ⟨lo, hi, tag⟩ }
  else m

/-- The `n` bytes from an address on, ascending. -/
def Memory.readBytes (m : Memory) (a : Nat) : Nat → List Byte
  | 0 => []
  | n + 1 => m.readByte a :: Memory.readBytes m (a + 1) n

/-- `MemRead(addr, n)` (00_scope.md R8): a little-endian unsigned integer. -/
def Memory.read (m : Memory) (a n : Nat) : Word := fromLE (m.readBytes a n)

/-- Writes bytes from an address on, ascending. -/
def Memory.writeBytes (m : Memory) (a : Nat) : List Byte → Memory
  | [] => m
  | b :: bs => (m.writeByte a b).writeBytes (a + 1) bs

/-- `MemWrite(addr, n, v)` (R8): byte j of `v` to address `addr + j`. -/
def Memory.write (m : Memory) (a n : Nat) (v : Word) : Memory := m.writeBytes a (leBytes n v)

/-- The canonical form: addresses strictly rising and below 2^32; no listed byte equal to what an unlisted address
reads as (0, where no span lies); spans non-empty, apart, strictly rising, and two that touch are of two occasions. -/
abbrev Memory.wf (m : Memory) : Prop :=
  m.cells.Pairwise (fun x y => x.1 < y.1) ∧
  m.spans.Pairwise (fun x y => x.hi ≤ y.lo ∧ (x.hi = y.lo → x.tag ≠ y.tag)) ∧
  (∀ c ∈ m.cells, c.1 < Config.addressSpace ∧ c.2 ≠ 0 ∧ ∀ sp ∈ m.spans, sp.has c.1 = false) ∧
  (∀ sp ∈ m.spans, sp.lo < sp.hi ∧ sp.hi ≤ Config.addressSpace)

/-- Every span's occasion lies before the given count of free values taken, so that the next one is new. -/
abbrev Memory.tagsBelow (m : Memory) (ctr : Nat) : Prop := ∀ sp ∈ m.spans, sp.tag < ctr

/-! ### Taking a fault (60_exceptions.md R206) -/

/-- How an access, and with it a block step, stops short. -/
inductive Stop where
  /-- `raise F(addr)` (R206): the fault and the first byte address of the refused access (R203). -/
  | raised (c : Cause) (addr : Nat)
  /-- The access names addresses that do not exist. -/
  | outside (addr : Nat)
deriving DecidableEq, Repr

/-- Fault entry (R206): CAUSE and FADDR are written, STATE becomes ERR, RESULT and BLK stay; nothing else is saved, and
the engine takes no further step. There is no return from a fault (R207): the next accepted START begins afresh. -/
def takeFault (c : Cause) (faddr : Word) (s : State) : State :=
  { s with status := .err, cause := c, faddr := faddr, stage := .boundary }

/-- What FADDR records of an address: the address (R203), and a free value where it does not fit (log entry 4). -/
def faddrOf (tag addr : Nat) : Word :=
  if addr < Config.addressSpace then BitVec.ofNat 32 addr else Config.freeFaddr tag

/-- The destination window's bytes become unspecified (R206, R231, U8, U9). -/
def loseDestination (s : State) : State :=
  { s with
    mem := s.mem.lose s.dst.toNat (s.dst.toNat + s.dstLen.toNat) s.freeCtr
    freeCtr := s.freeCtr + 1 }

/-- A fault raised by a block step: fault entry, with the contents of the destination window lost (R206). -/
def raiseInBlock (c : Cause) (addr : Nat) (s : State) : State :=
  takeFault c (faddrOf s.freeCtr addr) (loseDestination s)

/-- The outcome of an engine step that an access may have stopped: a refused access takes its fault from the state
before the step, since the step does not complete (R164, R205). -/
def settle (s : State) (r : Except Stop State) : Host.Outcome State Fault Refusal :=
  match r with
  | .ok t => .next t
  | .error (.raised c addr) => .next (raiseInBlock c addr s)
  | .error (.outside addr) => .fault (.noSuchAddress addr)

end Sys2Proof.Machine
end

