-- ==== Sys2Proof/Machine/Operands.lean ====
section
/-! DEFINITION. The operands of a job: derived sizes (00_scope.md R9), the two windows and the addresses within them
(20_memory.md R52), and the window-checked accesses (R53, R54). -/

namespace Sys2Proof.Machine

/-! ### Sizes (R9) -/

/-- The block count `B(N) = ceil(N/8)`. -/
def blockCount (n : Nat) : Nat := (n + 7) / 8

/-- The tail count `T(N)`, the number of real values in the last block (for N > 0). -/
def tailCount (n : Nat) : Nat := n - 8 * (blockCount n - 1)

/-- The header area size `HDR(N) = 4 * B(N)`. -/
def headerBytes (n : Nat) : Nat := 4 * blockCount n

/-- `UpperBound(N) = ceil(N/2) + 4*N` (R174). -/
def upperBound (n : Nat) : Nat := (n + 1) / 2 + 4 * n

/-- The worst-case stream length `MaxStream(N) = 36 * B(N)`. -/
def maxStream (n : Nat) : Nat := 36 * blockCount n

/-- The block count of the job, `B(N)`. -/
def State.blocks (s : State) : Nat := blockCount s.n.toNat

/-- The number of real lanes of block BLK: `c = min(8, N - 8*b)` (R164, R165). -/
def State.realLanes (s : State) : Nat := min 8 (s.n.toNat - 8 * s.blk.toNat)

/-! ### Offsets in the windows (R52) -/

/-- The array offset of lane `k`'s value in block BLK: `4*(8*b + k)` (R164, R165). -/
def State.valueOffset (s : State) (k : Fin 8) : Nat := 4 * (8 * s.blk.toNat + k.val)

/-- The stream offset of the header word of block BLK: `4*b` (R145). -/
def State.headerOffset (s : State) : Nat := 4 * s.blk.toNat

/-! ### The platform (R50) -/

/-- Whether a denial refuses an access. -/
def Denial.refuses (d : Denial) (addr n : Nat) (kind : AccessKind) : Bool :=
  d.lo ≤ addr && addr < d.hi && d.nLo ≤ n && n ≤ d.nHi && d.kind == kind

/-- `MemAdmit(addr, n, kind)` (R50): true unless the platform refuses the access. -/
def Platform.admits (p : Platform) (addr n : Nat) (kind : AccessKind) : Bool :=
  !p.deny.any fun d => d.refuses addr n kind

/-! ### Window-checked accesses (R53, R54) -/

/-- `SrcRead(off, n)` (R53). -/
def srcRead (s : State) (off n : Nat) : Except Stop Word :=
  if n = 0 then .ok 0
  else if s.srcLen.toNat < off + n then .error (.raised .srcBounds (s.src.toNat + off))
  else if s.plat.admits (s.src.toNat + off) n .read = false then .error (.raised .bus (s.src.toNat + off))
  else if Config.addressSpace < s.src.toNat + off + n then .error (.outside (s.src.toNat + off))
  else .ok (s.mem.read (s.src.toNat + off) n)

/-- `DstWrite(off, n, v)` (R54): a refused write changes no byte. -/
def dstWrite (s : State) (off n : Nat) (v : Word) : Except Stop State :=
  if n = 0 then .ok s
  else if s.dstLen.toNat < off + n then .error (.raised .dstBounds (s.dst.toNat + off))
  else if s.plat.admits (s.dst.toNat + off) n .write = false then .error (.raised .bus (s.dst.toNat + off))
  else if Config.addressSpace < s.dst.toNat + off + n then .error (.outside (s.dst.toNat + off))
  else .ok { s with mem := s.mem.write (s.dst.toNat + off) n v }

/-! ### The windows -/

/-- Whether an address lies in the source window `[SRC, SRC + SRC_LEN)` (R32). -/
def State.inSource (s : State) (a : Nat) : Bool := s.src.toNat ≤ a && a < s.src.toNat + s.srcLen.toNat

/-- Whether an address lies in the destination window `[DST, DST + DST_LEN)` (R33). -/
def State.inDestination (s : State) (a : Nat) : Bool := s.dst.toNat ≤ a && a < s.dst.toNat + s.dstLen.toNat

/-- The two windows as the registers give them. -/
def State.windows (s : State) : Windows where
  src := s.src
  srcLen := s.srcLen
  dst := s.dst
  dstLen := s.dstLen

/-- Whether an address lies in the source window of a job. -/
def Windows.inSource (w : Windows) (a : Nat) : Bool := w.src.toNat ≤ a && a < w.src.toNat + w.srcLen.toNat

/-- Whether an address lies in the destination window of a job. -/
def Windows.inDestination (w : Windows) (a : Nat) : Bool := w.dst.toNat ≤ a && a < w.dst.toNat + w.dstLen.toNat

/-- BAD_WINDOW's condition (R161): a window that runs past the top of the address space. -/
def State.windowOverflows (s : State) : Bool :=
  Config.addressSpace < s.src.toNat + s.srcLen.toNat || Config.addressSpace < s.dst.toNat + s.dstLen.toNat

/-- ALIAS's condition (R62, R161): both windows non-empty and intersecting. -/
def State.windowsAlias (s : State) : Bool :=
  0 < s.srcLen.toNat && 0 < s.dstLen.toNat && s.src.toNat < s.dst.toNat + s.dstLen.toNat &&
    s.dst.toNat < s.src.toNat + s.srcLen.toNat

/-- Whether `[lo, lo + len)` and a device range share an address. -/
def overlapsDevice (lo len : Nat) (r : Nat × Nat) : Bool :=
  max lo r.1 < min (lo + len) r.2

/-- Whether a window lies over device registers (R50, R56). -/
def State.windowOverDevice (s : State) : Bool :=
  s.plat.devices.any fun r =>
    overlapsDevice s.src.toNat s.srcLen.toNat r || overlapsDevice s.dst.toNat s.dstLen.toNat r

end Sys2Proof.Machine
end

