-- ==== Sys2Proof/Machine/Predictor.lean ====
section
/-! DEFINITION. The predictor (40_predictor.md): the delta stage of both variants and the xor stage of the full one. -/

namespace Sys2Proof.Machine

/-- The forward delta (R100): `d[k] = (v[k] - PRIOR[k]) mod 2^32`. -/
def Predictor.deltas (p : Predictor) (v : Lanes Word) : Lanes Word := Vector.ofFn fun k => v[k] - p.prior[k]

/-- The inverse delta (R101): `v[k] = (PRIOR[k] + d[k]) mod 2^32`. -/
def Predictor.values (p : Predictor) (d : Lanes Word) : Lanes Word := Vector.ofFn fun k => p.prior[k] + d[k]

/-- Phase 0 of the xor stage, encode (R103), and the quick residual (R102). -/
def Predictor.residuals (full : Bool) (p : Predictor) (d : Lanes Word) : Lanes Word :=
  if full then Vector.ofFn fun k => d[k] ^^^ p.xprior[k] else d

/-- Phase 0 of the xor stage, decode (R104), and the quick delta (R102). -/
def Predictor.unresiduals (full : Bool) (p : Predictor) (r : Lanes Word) : Lanes Word :=
  if full then Vector.ofFn fun k => r[k] ^^^ p.xprior[k] else r

/-- The slot hash (R105): `((d >> 8) XOR (d >> 24)) AND 0xFF`. -/
def hash (d : Word) : Byte := (((d >>> 8) ^^^ (d >>> 24)) &&& 0xFF#32).setWidth 8

/-- The table entry at a slot. -/
def Predictor.entry (table : Vector Word 256) (i : Byte) : Word := table[i.toNat]'(i.isLt)

/-- Phase 1 (R103, R107): the stores, in ascending lane order, so that the highest lane of a collision remains. -/
def Predictor.stored (p : Predictor) (d : Lanes Word) : Vector Word 256 :=
  laneOrder.foldl (fun (t : Vector Word 256) (k : Fin 8) => t.set p.idx[k].toNat d[k] p.idx[k].isLt) p.lookup

/-- Phases 1 to 3 of the xor stage (R103, R104): store, re-index, gather after all eight stores. -/
def Predictor.updateTable (p : Predictor) (d : Lanes Word) : Predictor :=
  { p with
    lookup := p.stored d
    idx := Vector.ofFn fun k => hash d[k]
    xprior := Vector.ofFn fun k => Predictor.entry (p.stored d) (hash d[k]) }

/-- The predictor state after a block (R164, R165): the table update of the full variant, and `PRIOR[k] <- v[k]`. -/
def Predictor.advance (full : Bool) (p : Predictor) (v d : Lanes Word) : Predictor :=
  { (if full then p.updateTable d else p) with prior := v }

end Sys2Proof.Machine
end

