-- ==== Sys2Proof/Machine/Pure.lean ====
section
/-! DEFINITION. The operations as pure functions (43_jobs.md R176): `encb`, `decb`, `Enc` and `Dec`. -/

namespace Sys2Proof.Machine

/-- The header word of a block with the given residuals (R164: `pack_hdr` of the eight `strip`s). -/
def headerOf (r : Lanes Word) : Word :=
  packHdr (Vector.ofFn fun k => (strip r[k]).lz) (Vector.ofFn fun k => (strip r[k]).tz)

/-- The payload bytes of a block with the given residuals: lanes concatenated in order (R72, R142). -/
def payloadOf (r : Lanes Word) : List Byte := laneOrder.flatMap fun k => (strip r[k]).payload

/-- `encb(full, P, V) = (P', H, Y)` (R176). -/
def encb (full : Bool) (p : Predictor) (v : Lanes Word) : Predictor × Word × List Byte :=
  let d := p.deltas v
  let r := Predictor.residuals full p d
  (p.advance full v d, headerOf r, payloadOf r)

/-- The width of lane `k` that a header word gives (R143). -/
def laneWidth (h : Word) (k : Fin 8) : Nat := width (hdrLz h k)

/-- The payload offset of lane `k` within its block: the exclusive prefix sum of the widths (R72, R143). -/
def laneOffset (h : Word) (k : Fin 8) : Nat := ((laneOrder.take k.val).map (laneWidth h)).sum

/-- The payload advance of a block, which its header word alone determines (R144). -/
def blockAdvance (h : Word) : Nat := (laneOrder.map (laneWidth h)).sum

/-- The residuals of a block from its header word and its payload bytes (R143, R126). -/
def residualsOf (h : Word) (y : List Byte) : Lanes Word :=
  Vector.ofFn fun k => unstrip (hdrTz h k) ((y.drop (laneOffset h k)).take (laneWidth h k))

/-- `decb(full, P, H, Y) = (P', V)` (R176). -/
def decb (full : Bool) (p : Predictor) (h : Word) (y : List Byte) : Predictor × Lanes Word :=
  let d := Predictor.unresiduals full p (residualsOf h y)
  let v := p.values d
  (p.advance full v d, v)

/-- `V_b`: the first 8 words of a list, padded with zero words (R176). -/
def blockWords (a : List Word) : Lanes Word := Vector.ofFn fun k => a.getD k.val 0

/-- The headers and payloads of `blocks` blocks, from the predictor state `p` on (R176). -/
def encBlocks (full : Bool) : Nat → Predictor → List Word → List Word × List Byte
  | 0, _, _ => ([], [])
  | blocks + 1, p, a =>
    let (p', h, y) := encb full p (blockWords a)
    let (hs, ys) := encBlocks full blocks p' (a.drop 8)
    (h :: hs, y ++ ys)

/-- The same blocks of the full variant in the deferred-store form (40_predictor.md R109): `prev` holds the deltas of the
block before, whose table update is made at the start of the block's step. -/
def encBlocksDeferred : Nat → Predictor → Lanes Word → List Word → List Word × List Byte
  | 0, _, _, _ => ([], [])
  | blocks + 1, p, prev, a =>
    let p := p.updateTable prev
    let v := blockWords a
    let d := p.deltas v
    let r := Predictor.residuals true p d
    let (hs, ys) := encBlocksDeferred blocks { p with prior := v } d (a.drop 8)
    (headerOf r :: hs, payloadOf r ++ ys)

/-- `Enc(full, A)` (R176): the header words, then the payloads. -/
def encStream (full : Bool) (a : List Word) : List Byte :=
  let (hs, ys) := encBlocks full (blockCount a.length) Predictor.zero a
  hs.flatMap (leBytes 4) ++ ys

/-- The words of `blocks` blocks, headers read from `hs` and payloads from `ys` (R176). -/
def decBlocks (full : Bool) : Nat → Predictor → List Byte → List Byte → List Word
  | 0, _, _, _ => []
  | blocks + 1, p, hs, ys =>
    let h := fromLE (hs.take 4)
    let (p', v) := decb full p h (ys.take (blockAdvance h))
    v.toList ++ decBlocks full blocks p' (hs.drop 4) (ys.drop (blockAdvance h))

/-- `Dec(full, Z, N)` (R176). -/
def decStream (full : Bool) (z : List Byte) (n : Nat) : List Word :=
  (decBlocks full (blockCount n) Predictor.zero z (z.drop (headerBytes n))).take n

/-- The number of stream bytes a decode of `blocks` blocks consumes of the payload area (R144, R168). -/
def payloadConsumed : Nat → List Byte → Nat
  | 0, _ => 0
  | blocks + 1, hs => blockAdvance (fromLE (hs.take 4)) + payloadConsumed blocks (hs.drop 4)

/-- The number of stream bytes a decode job consumes (R34, R168). -/
def decConsumed (z : List Byte) (n : Nat) : Nat := headerBytes n + payloadConsumed (blockCount n) z

end Sys2Proof.Machine
end

