-- ==== Sys2Proof/Machine/Blocks.lean ====
section
/-! DEFINITION. The block steps (43_jobs.md R164, R165) over the header moves (42_header_payload.md R145) and the payload
marshaller (R142, R143). -/

namespace Sys2Proof.Machine

/-! ### One header, one lane -/

/-- The header move of an encode block (R145): `DstWrite(4*b, 4, H)`, with H kept for the lanes. -/
def putHeader (h : Word) (s : State) : Except Stop State :=
  match dstWrite s s.headerOffset 4 h with
  | .ok t => .ok { t with hdr := h }
  | .error e => .error e

/-- The header move of a decode block (R145): `H = SrcRead(4*b, 4)`. -/
def readHeader (s : State) : Except Stop Word := srcRead s s.headerOffset 4

/-- Marshals one lane (R142): `DstWrite(PCUR, w, S); PCUR <- PCUR + w`. -/
def marshalLane (w : Nat) (sig : Word) (s : State) : Except Stop State :=
  match dstWrite s s.pcur.toNat w sig with
  | .ok t => .ok { t with pcur := t.pcur + BitVec.ofNat 32 w }
  | .error e => .error e

/-- Unmarshals one lane (R143, R126): `S = SrcRead(PCUR, w)`, the cursor past it, and the residual `S << 8*tz`. The
running cursor gives the addresses of R143's prefix sum. -/
def unmarshalLane (k : Fin 8) (w : Nat) (tz : BitVec 2) (s : State) : Except Stop State :=
  match srcRead s s.pcur.toNat w with
  | .ok sig => .ok { s with pcur := s.pcur + BitVec.ofNat 32 w, resid := s.resid.set k.val (unshift tz sig) }
  | .error e => .error e

/-! ### The values of a block -/

/-- Fetches the value of lane `k` of block BLK (R164): a real lane from the source window, a padding lane as it is. -/
def readValue (s : State) (v : Lanes Word) (k : Fin 8) : Except Stop (Lanes Word) :=
  if k.val < s.realLanes then
    match srcRead s (s.valueOffset k) 4 with
    | .ok x => .ok (v.set k.val x)
    | .error e => .error e
  else .ok v

/-- Fetches the values of block BLK in ascending lane order (R164), the padding lanes being 0 (R166). -/
def readValues (s : State) : Except Stop (Lanes Word) := laneOrder.foldlM (readValue s) (Lanes.same 0)

/-- Writes the value of lane `k` of the block of `s` into `t` (R165): real lanes only (R167). -/
def writeValue (s : State) (v : Lanes Word) (t : State) (k : Fin 8) : Except Stop State :=
  if k.val < s.realLanes then dstWrite t (s.valueOffset k) 4 v[k] else .ok t

/-- Writes the values of block BLK in ascending lane order (R165). -/
def writeValues (v : Lanes Word) (s : State) : Except Stop State := laneOrder.foldlM (writeValue s v) s

/-! ### The block steps -/

/-- What ends a block step (R164, R165): the table update of the full variant, PRIOR, and `BLK <- b + 1`. -/
def closeBlock (full : Bool) (v d : Lanes Word) (s : State) : State :=
  { s with pred := s.pred.advance full v d, blk := s.blk + 1, stage := .boundary }

/-- Marshals lane `k` of the residuals (R142). -/
def marshalResidual (r : Lanes Word) (t : State) (k : Fin 8) : Except Stop State :=
  marshalLane (strip r[k]).width (strip r[k]).sig t

/-- Marshals the eight lanes of the residuals in ascending order (R142, R164). -/
def marshalBlock (r : Lanes Word) (s : State) : Except Stop State := laneOrder.foldlM (marshalResidual r) s

/-- Unmarshals lane `k` that a header word describes (R143). -/
def unmarshalField (h : Word) (t : State) (k : Fin 8) : Except Stop State :=
  unmarshalLane k (laneWidth h k) (hdrTz h k) t

/-- Unmarshals the eight lanes that a header word describes in ascending order (R143, R165). -/
def unmarshalBlock (h : Word) (s : State) : Except Stop State := laneOrder.foldlM (unmarshalField h) s

/-- What an encode block step does before its header: the values, the residuals and the header word (R164). -/
def openEncode (full : Bool) (s : State) : Except Stop (Lanes Word × State) :=
  match readValues s with
  | .ok v =>
    let r := Predictor.residuals full s.pred (s.pred.deltas v)
    .ok (v, { s with resid := r, hdr := headerOf r })
  | .error e => .error e

/-- The encode block step of block BLK (R164), `enc_block`. -/
def encodeBlock (full : Bool) (s : State) : Except Stop State := do
  let (v, t) ← openEncode full s
  let t ← putHeader t.hdr t
  let t ← marshalBlock t.resid t
  return closeBlock full v (s.pred.deltas v) t

/-- What a decode block step does after its payload reads (R165): the deltas, the values, the value writes, the end. -/
def finishDecode (full : Bool) (s : State) : Except Stop State := do
  let d := Predictor.unresiduals full s.pred s.resid
  let v := s.pred.values d
  let t ← writeValues v s
  return closeBlock full v d t

/-- The decode block step of block BLK (R165), `dec_block`. -/
def decodeBlock (full : Bool) (s : State) : Except Stop State := do
  let h ← readHeader s
  let t ← unmarshalBlock h { s with hdr := h }
  finishDecode full t

/-- What an encode block step does after its payload writes, with the deltas and values recovered from the residuals
(R101, R104 invert R100, R103): for a state inside a block step. -/
def finishEncode (full : Bool) (s : State) : State :=
  let d := Predictor.unresiduals full s.pred s.resid
  closeBlock full (s.pred.values d) d s

end Sys2Proof.Machine
end

