-- ==== Sys2Proof/Machine/Jobs.lean ====
section
/-! DEFINITION. The five operations (43_jobs.md R161 to R174): the start step, the block steps and the finish step, and
one meaning for each command word. -/

namespace Sys2Proof.Machine

/-! ### The start step (R161) -/

/-- What every start step does first (R161): the pending START is taken, and BLK, RESULT, FADDR and CAUSE are cleared.
This is also the only way out of ERR but reset (R207). -/
def clearForStart (s : State) : State :=
  { s with
    start := false, blk := 0, result := 0, faddr := 0, cause := .noFault, stage := .boundary, blkSeen := 0 }

/-- A start that a check rejects (R161, R200): fault entry with FADDR 0; data memory is untouched. -/
def rejectStart (c : Cause) (s : State) : Host.Outcome State Fault Refusal :=
  .next (takeFault c 0 (clearForStart s))

/-- The start step of a command word that is no operation (R161): ILLEGAL_CMD. -/
def startIllegal (s : State) : Host.Outcome State Fault Refusal := rejectStart .illegalCmd s

/-- Initialisation at job start (R162) and the accepted start of a streaming job, whose windows are the engine's from
here on (R240). -/
def beginStream (s : State) : State :=
  { clearForStart s with
    status := .busy
    pcur := BitVec.ofNat 32 (headerBytes s.n.toNat)
    pred := Predictor.zero
    unread := s.windows :: s.unread }

/-- The start step of ENC, DEC, ENCQ and DECQ (R161), the command check having passed. A window over device registers is
refused (R56). -/
def startStream (s : State) : Host.Outcome State Fault Refusal :=
  if Config.nmax < s.n.toNat then rejectStart .badN s
  else if s.windowOverflows then rejectStart .badWindow s
  else if s.windowsAlias then rejectStart .aliasing s
  else if s.windowOverDevice then .refused .windowOverDevice
  else .next (beginStream s)

/-- The start step of UBOUND (R161, R174): no window checks. -/
def startUbound (s : State) : Host.Outcome State Fault Refusal :=
  if Config.nmax < s.n.toNat then rejectStart .badN s
  else .next { clearForStart s with status := .busy }

/-! ### The finish step (R168) -/

/-- The finish step of a streaming job: `RESULT <- PCUR`, `STATE <- DONE`. -/
def finishStream (s : State) : State := { s with result := s.pcur, status := .done }

/-- The finish step of UBOUND: `RESULT <- ceil(N/2) + 4*N`, `STATE <- DONE`. -/
def finishUbound (s : State) : State :=
  { s with result := BitVec.ofNat 32 (upperBound s.n.toNat), status := .done, stage := .boundary }

/-! ### One step of a job (R163) -/

/-- One step of an encode job: the start step unless the engine is BUSY; then the block step of block BLK, or the finish
step when BLK = B(N). A state that stands at the end of a block step ends that step. -/
def stepEncode (full : Bool) (s : State) : Host.Outcome State Fault Refusal :=
  if s.status = .busy then
    if s.stage = .close then .next (finishEncode full s)
    else if s.blk.toNat < s.blocks then settle s (encodeBlock full s)
    else .next (finishStream s)
  else startStream s

/-- One step of a decode job. -/
def stepDecode (full : Bool) (s : State) : Host.Outcome State Fault Refusal :=
  if s.status = .busy then
    if s.stage = .close then settle s (finishDecode full s)
    else if s.blk.toNat < s.blocks then settle s (decodeBlock full s)
    else .next (finishStream s)
  else startStream s

/-! ### The meanings of the command words -/

/-- ENC, full-codec encode (R170). -/
def execEnc (s : State) : Host.Outcome State Fault Refusal := stepEncode true s

/-- DEC, full-codec decode (R171). -/
def execDec (s : State) : Host.Outcome State Fault Refusal := stepDecode true s

/-- ENCQ, quick-codec encode (R172): as ENC without the xor stage. -/
def execEncq (s : State) : Host.Outcome State Fault Refusal := stepEncode false s

/-- DECQ, quick-codec decode (R173): as DEC without the xor stage. -/
def execDecq (s : State) : Host.Outcome State Fault Refusal := stepDecode false s

/-- UBOUND, the size function (R174): the start step, then the finish step; no memory is read or written. -/
def execUbound (s : State) : Host.Outcome State Fault Refusal :=
  if s.status = .busy then .next (finishUbound s) else startUbound s

end Sys2Proof.Machine
end

