-- ==== Sys2Proof/Machine/Stream.lean ====
section
/-! DEFINITION. The meanings of the stream's rows: a block header word (BLKHDR) and the four lane descriptors (LANE.W4,
LANE.W3, LANE.W2, LANE.W0), each as what the engine does with it inside a block step, in the direction of the running
job. The block steps of Blocks.lean are made of the same operations. -/

namespace Sys2Proof.Machine

/-- The direction of a streaming job: OPC[0] of R70. -/
inductive Direction where
  | encode
  | decode
deriving DecidableEq, Repr

/-- The direction of the running job: none unless the engine is BUSY with one of the four streaming operations. -/
def jobDirection (s : State) : Option Direction :=
  if s.status = .busy then
    match decodeCmd s.cmd with
    | .ok .enc => some .encode
    | .ok .encq => some .encode
    | .ok .dec => some .decode
    | .ok .decq => some .decode
    | _ => none
  else none

/-- Where the engine stands after lane `k` (R130: all eight lanes are always active). -/
def afterLane (k : Fin 8) : Stage := if h : k.val + 1 < 8 then .lane ⟨k.val + 1, h⟩ else .close

/-- A step that stands at `stage` once it has completed. -/
def thenStage (stage : Stage) (r : Except Stop State) : Except Stop State :=
  match r with
  | .ok t => .ok { t with stage := stage }
  | .error e => .error e

/-- One lane of the block being processed, with its descriptor (R142, R143): an encode job writes the low `w` bytes of
`S = r >> 8*tz`, a decode job reads `w` bytes and forms the residual. Outside a streaming job's lanes the engine makes
no access (R50, R224), so nothing happens. The spec takes an encode job's descriptors from `strip` of the residuals (R140,
R142) and a decode job's from its header word (R143); that a row acts with the descriptor it carries, also where that is
another one, is the model's choice (DESIGN CHOICE, log entry 24). -/
def stepLane (w : Nat) (tz : BitVec 2) (s : State) : Host.Outcome State Fault Refusal :=
  match jobDirection s, s.stage with
  | some .encode, .lane k => settle s (thenStage (afterLane k) (marshalLane w (s.resid[k] >>> (8 * tz.toNat)) s))
  | some .decode, .lane k => settle s (thenStage (afterLane k) (unmarshalLane k w tz s))
  | _, _ => .next s

/-- BLKHDR, a block header word (R74, R140, R141, R145): an encode job writes it at stream offset 4*BLK; a decode job,
whose fetch has read it there, takes its fields; the lanes follow. Outside a streaming job the engine makes no access
(R50, R224), so nothing happens. The spec gives the row this effect where a block's header is next; that it has the same
effect wherever else in a streaming job it is met is the model's choice (DESIGN CHOICE, log entry 17), and so is that it
acts with the fields it carries, also where the residuals or the stream give others (DESIGN CHOICE, log entry 24). -/
def execBlkhdr (lz tz : Lanes (BitVec 2)) (s : State) : Host.Outcome State Fault Refusal :=
  match jobDirection s with
  | some .encode => settle s (thenStage (.lane 0) (putHeader (packHdr lz tz) s))
  | some .decode => .next { s with hdr := packHdr lz tz, stage := .lane 0 }
  | none => .next s

/-- LANE.W4: a lane of payload width 4 (R76). -/
def execLaneW4 (tz : BitVec 2) (s : State) : Host.Outcome State Fault Refusal := stepLane 4 tz s

/-- LANE.W3: a lane of payload width 3 (R76). -/
def execLaneW3 (tz : BitVec 2) (s : State) : Host.Outcome State Fault Refusal := stepLane 3 tz s

/-- LANE.W2: a lane of payload width 2 (R76). -/
def execLaneW2 (tz : BitVec 2) (s : State) : Host.Outcome State Fault Refusal := stepLane 2 tz s

/-- LANE.W0: a lane without payload (R76). -/
def execLaneW0 (tz : BitVec 2) (s : State) : Host.Outcome State Fault Refusal := stepLane 0 tz s

end Sys2Proof.Machine
end

