-- ==== Sys2Proof/Machine/HostPort.lean ====
section
/-! DEFINITION. The host's side: the register space (10_state.md R22, R36), data memory as other agents see it
(20_memory.md R58, 70_reset_and_hazards.md R240) and reset (R230, R231). -/

namespace Sys2Proof.Machine

/-! ### The register space (R22) -/

/-- A naturally aligned 32-bit access: the only one defined (R22). -/
def accessDefined (offset size : Nat) : Bool := size == 4 && offset % 4 == 0

/-- A register write that asks for a start: of 1 to CTRL.START (R22, R160). -/
def startAsked (offset : Nat) (v : Word) : Bool := offset == 0x00 && v.getLsbD 0

/-- A host write to a register of an engine that is not BUSY (R22, R36): RW registers take the value, CTRL.START asks for
a start, read-only registers and offsets from 0x2C up ignore it. -/
def putRegister (offset : Nat) (v : Word) (s : State) : State :=
  match offset with
  | 0x00 => if v.getLsbD 0 then { s with start := true } else s
  | 0x08 => { s with cmd := v }
  | 0x0C => { s with n := v }
  | 0x10 => { s with src := v }
  | 0x14 => { s with srcLen := v }
  | 0x18 => { s with dst := v }
  | 0x1C => { s with dstLen := v }
  | _ => s

/-- A host register write (R22, R36): ignored while BUSY. -/
def hostWrite (offset size : Nat) (v : Word) (s : State) : Host.Outcome State Fault Refusal :=
  if accessDefined offset size = false then .refused (.badRegisterAccess offset size)
  else if s.status = .busy then .next s
  else .next (putRegister offset v s)

/-- The number of blocks the running job has: none for UBOUND, B(N) otherwise. -/
def jobBlocks (s : State) : Nat := if jobDirection s = none then 0 else s.blocks

/-- What a host read of BLK returns (R24, R246, U25): exact unless blocks are still to be completed; then some index not
yet completed, no smaller than what an earlier read of the job returned. Log entry 3. -/
def readBlk (s : State) : Word :=
  let least := max s.blk.toNat s.blkSeen.toNat
  if least < jobBlocks s then
    BitVec.ofNat 32 (least + Config.freeChoice s.freeCtr % (jobBlocks s - least))
  else s.blk

/-- What a host read of a register returns (R22): CTRL and everything from 0x2C up read as 0. -/
def getRegister (offset : Nat) (s : State) : Word :=
  match offset with
  | 0x04 => statusWord s.status s.cause
  | 0x08 => s.cmd
  | 0x0C => s.n
  | 0x10 => s.src
  | 0x14 => s.srcLen
  | 0x18 => s.dst
  | 0x1C => s.dstLen
  | 0x20 => s.result
  | 0x24 => s.faddr
  | 0x28 => readBlk s
  | _ => 0

/-- A host register read (R22, R36): the value is returned and no register changes; a read of BLK is remembered, so that
the next one of the job is no smaller (R246); a read of STATUS that returns DONE or ERR ends the time in which the
windows of the jobs before it are the engine's (R240). -/
def hostRead (offset size : Nat) (s : State) : Host.Outcome State Fault Refusal :=
  if accessDefined offset size = false then .refused (.badRegisterAccess offset size)
  else if offset = 0x28 then
    .next { s with hostData := readBlk s, blkSeen := readBlk s, freeCtr := s.freeCtr + 1 }
  else
    .next { s with
      hostData := getRegister offset s
      unread := if offset = 0x04 ∧ (s.status = .done ∨ s.status = .err) then [] else s.unread }

/-! ### Data memory, as other agents reach it (R20, R58, R240) -/

/-- The windows that are the engine's (R240): those of the running streaming job, and those of jobs whose end no read of
STATUS has reported yet. -/
def engineWindows (s : State) : List Windows := (if jobDirection s = none then [] else [s.windows]) ++ s.unread

/-- Another agent's write to data memory: refused in the engine's windows (R240), and in memory at once
otherwise, so that a START after it sees it (R58). The spec applies MemAdmit and the device ranges to the engine's
accesses alone (R50, R53, R54, R56); that another agent's access is made at every address, as to ordinary memory, is the
model's choice (DESIGN CHOICE, log entry 23). -/
def otherWrite (a : Word) (b : Byte) (s : State) : Host.Outcome State Fault Refusal :=
  if (engineWindows s).any fun w => w.inSource a.toNat || w.inDestination a.toNat then .refused (.windowTouched a)
  else .next { s with mem := s.mem.writeByte a.toNat b }

/-- Another agent's read of data memory: refused in the engine's destination windows (R240); reading a source window is
harmless. Made at every address, as to ordinary memory: the
model's choice (DESIGN CHOICE, log entry 23). -/
def otherRead (a : Word) (s : State) : Host.Outcome State Fault Refusal :=
  if (engineWindows s).any fun w => w.inDestination a.toNat then .refused (.windowTouched a)
  else .next { s with hostData := (s.mem.readByte a.toNat).setWidth 32 }

/-! ### Reset (R230, R231) -/

/-- Reset: the registers of the engine take the values of `State.reset`; data memory, the platform and what is outside
the engine stay. -/
def resetRegisters (s : State) : State :=
  { State.reset with
    mem := s.mem, plat := s.plat, turns := s.turns, hostData := s.hostData, freeCtr := s.freeCtr }

/-- The reset event (R230), and the loss of the destination window when it abandons a streaming job (R231). -/
def resetEvent (s : State) : State :=
  if jobDirection s = none then resetRegisters s else resetRegisters (loseDestination s)

/-! ### The host protocol (R160, R81) -/

/-- The host's register writes for a job in the notation of R81: CMD, N, SRC, SRC_LEN, DST, DST_LEN, then CTRL.START. -/
def jobTurns (cmd n src srcLen dst dstLen : Word) : List Turn :=
  [.regWrite 0x08 4 cmd, .regWrite 0x0C 4 n, .regWrite 0x10 4 src, .regWrite 0x14 4 srcLen, .regWrite 0x18 4 dst,
    .regWrite 0x1C 4 dstLen, .regWrite 0x00 4 1]

end Sys2Proof.Machine
end

