-- ==== Sys2Proof/Machine/Fetch.lean ====
section
/-! DEFINITION. What the engine runs next (43_jobs.md R163), and how an encoding is placed there. The engine fetches no
instructions from memory (R65): a command word comes from the register CMD (R70), a header word from the stream or from
the block being encoded (R145), a lane descriptor from the header word (R141). -/

namespace Sys2Proof.Machine

/-- What the engine finds to run. -/
inductive Fetched where
  /-- Nothing: the engine is not BUSY and no START is pending (R224, R230). -/
  | nothing
  /-- A pending START whose CMD is no operation (R161). -/
  | illegal
  /-- An instruction. -/
  | run (i : Instr)
  /-- The access that reads it was stopped (R145). -/
  | stopped (e : Stop)
  /-- The engine is BUSY and its CMD is no operation. -/
  | lost
deriving DecidableEq, Repr

/-- The command word in CMD (R70). -/
def fetchCommand (s : State) (bad : Fetched) : Fetched :=
  match decodeCmd s.cmd with
  | .ok i => .run i
  | .error _ => bad

/-- The header word of the block being processed: an encode job has made it, a decode job reads it (R145). -/
def fetchHeader (s : State) : Fetched :=
  match jobDirection s with
  | some .encode => .run (decodeHdr s.hdr)
  | some .decode =>
    match readHeader s with
    | .ok h => .run (decodeHdr h)
    | .error e => .stopped e
  | none => fetchCommand s .lost

/-- The descriptor of lane `k` in the header word (R141). -/
def fetchLane (s : State) (k : Fin 8) : Fetched :=
  match jobDirection s with
  | some _ => .run (laneOf (hdrTz s.hdr k) (hdrLz s.hdr k))
  | none => fetchCommand s .lost

/-- What the engine runs next (R160, R163). -/
def fetch (s : State) : Fetched :=
  if s.status = .busy then
    match s.stage with
    | .boundary => fetchCommand s .lost
    | .header => fetchHeader s
    | .lane k => fetchLane s k
    | .close => fetchCommand s .lost
  else if s.start then fetchCommand s .illegal
  else .nothing

/-! ### Placing an encoding where the engine fetches -/

/-- A command word in CMD with a START pending, the engine not BUSY (R160). -/
def placeCommand (s : State) (w : Word) : State :=
  { s with turns := [], start := true, cmd := w, status := if s.status = .busy then .idle else s.status }

/-- A running DECQ job of one block at the block's start, its stream at address 0. -/
def placeJob (s : State) (stage : Stage) : State :=
  { s with
    turns := [], status := .busy, cause := .noFault, cmd := 3, n := 8, src := 0, srcLen := 36, result := 0, blk := 0
    pcur := 4, stage := stage }

/-- A header word at stream offset 0 of a DECQ job whose header is next. -/
def placeHeader (s : State) (w : Word) : State :=
  { placeJob s .header with mem := s.mem.write 0 4 w }

/-- A lane descriptor in lane 0 of the header word of a DECQ job whose lane 0 is next, its payload four zero bytes. -/
def placeDescriptor (s : State) (w : Word) : State :=
  { placeJob s (.lane 0) with
    hdr := (w &&& 3) ||| ((w >>> 2 &&& 3) <<< 16), mem := s.mem.write 4 4 0 }

/-- Places the encoding with bits `w` in the format the opcode table reads it in. -/
def placeTableWord (s : State) (nbits w : Nat) : State :=
  match tableFormat nbits w with
  | .cmd => placeCommand s (BitVec.ofNat 32 w)
  | .hdr => placeHeader s (BitVec.ofNat 32 w)
  | .desc => placeDescriptor s (BitVec.ofNat 32 w)

end Sys2Proof.Machine
end

