-- ==== Sys2Proof/Machine/Dispatch.lean ====
section
/-! DEFINITION. The meaning of each instruction, one arm per constructor of `Instr`. -/

namespace Sys2Proof.Machine

def exec (i : Instr) (s : State) : Host.Outcome State Fault Refusal :=
  match i with
  | .enc => Sys2Proof.Machine.execEnc s
  | .dec => Sys2Proof.Machine.execDec s
  | .encq => Sys2Proof.Machine.execEncq s
  | .decq => Sys2Proof.Machine.execDecq s
  | .ubound => Sys2Proof.Machine.execUbound s
  | .blkhdr lz tz => Sys2Proof.Machine.execBlkhdr lz tz s
  | .laneW4 tz => Sys2Proof.Machine.execLaneW4 tz s
  | .laneW3 tz => Sys2Proof.Machine.execLaneW3 tz s
  | .laneW2 tz => Sys2Proof.Machine.execLaneW2 tz s
  | .laneW0 tz => Sys2Proof.Machine.execLaneW0 tz s

end Sys2Proof.Machine
end

