-- ==== Sys2Proof/Machine/Step.lean ====
section
/-! DEFINITION. One step of the machine: the next turn, the host's or the engine's (10_state.md R20, 43_jobs.md R163). -/

namespace Sys2Proof.Machine

/-- The engine's step (R163): it runs what it fetches, and does nothing when there is nothing to run. -/
def engineStep (s : State) : Host.Outcome State Fault Refusal :=
  match fetch s with
  | .nothing => .next s
  | .illegal => startIllegal s
  | .run i => exec i s
  | .stopped e => settle s (.error e)
  | .lost => .refused .noOperation

/-- One turn. A register write that makes a start pending makes the engine take the start step at once (R160); what it
writes otherwise has no effect until the next START (R36). -/
def takeTurn (t : Turn) (s : State) : Host.Outcome State Fault Refusal :=
  match t with
  | .engine => engineStep s
  | .regWrite offset size v =>
    match hostWrite offset size v s with
    | .next s' => if s'.status ≠ .busy ∧ startAsked offset v then engineStep s' else .next s'
    | .fault r => .fault r
    | .refused r => .refused r
  | .regRead offset size => hostRead offset size s
  | .memWrite a b => otherWrite a b s
  | .memRead a => otherRead a s
  | .reset => .next (resetEvent s)

/-- One step: the next turn of the list, and the engine's turn when the list is empty. -/
def step (s : State) : Host.Outcome State Fault Refusal :=
  match s.turns with
  | [] => engineStep s
  | t :: rest => takeTurn t { s with turns := rest }

/-- The state with the encoding of bits `w` where the engine fetches next. -/
def State.withFetchWord (s : State) (nbits w : Nat) : State := placeTableWord s nbits w

end Sys2Proof.Machine
end

