-- ==== Sys2Proof/Safety.lean ====
section
/-! DEFINITION. The terms in which claims are stated: when an access is admitted, what holds of every state the machine
can reach, and what a safe step is. -/

namespace Sys2Proof.Machine

/-- `SrcRead(off, n)` is not refused (R53) and names addresses that exist. -/
abbrev State.srcOk (s : State) (off n : Nat) : Prop :=
  n = 0 ∨ (off + n ≤ s.srcLen.toNat ∧ s.plat.admits (s.src.toNat + off) n .read = true ∧
    s.src.toNat + off + n ≤ Config.addressSpace)

/-- `DstWrite(off, n, v)` is not refused (R54) and names addresses that exist. -/
abbrev State.dstOk (s : State) (off n : Nat) : Prop :=
  n = 0 ∨ (off + n ≤ s.dstLen.toNat ∧ s.plat.admits (s.dst.toNat + off) n .write = true ∧
    s.dst.toNat + off + n ≤ Config.addressSpace)

/-- The engine is BUSY between two block steps with block BLK still to do (R163). -/
abbrev State.atBlock (s : State) : Prop :=
  s.status = .busy ∧ s.stage = .boundary ∧ s.blk.toNat < s.blocks

/-- The words `v_k` of block BLK as the source window holds them, padding lanes 0 (R164, R166). -/
def State.sourceBlock (s : State) : Lanes Word :=
  Vector.ofFn fun k => if k.val < s.realLanes then s.mem.read (s.src.toNat + s.valueOffset k) 4 else 0

/-- The header word of block BLK as the source window holds it (R145). -/
def State.sourceHeader (s : State) : Word := s.mem.read (s.src.toNat + s.headerOffset) 4

/-- The payload bytes of block BLK as the source window holds them (R143). -/
def State.sourcePayload (s : State) : List Byte :=
  s.mem.readBytes (s.src.toNat + s.pcur.toNat) (blockAdvance s.sourceHeader)

/-- The bytes a decode block step writes: its real lanes, little-endian (R167, R80). -/
def State.valueBytes (s : State) (v : Lanes Word) : List Byte := (v.toList.take s.realLanes).flatMap (leBytes 4)

/-- The `n` words of an array in memory from an address on (R80). -/
def Memory.words (m : Memory) (a : Nat) : Nat → List Word
  | 0 => []
  | n + 1 => m.read a 4 :: Memory.words m (a + 4) n

/-- The four streaming operations, each with whether it is the full variant (R2, R70). -/
def streamVariant : Instr → Option Bool
  | .enc => some true
  | .dec => some true
  | .encq => some false
  | .decq => some false
  | _ => none

/-- The encoding operations, with their variant. -/
def encodeVariant : Instr → Option Bool
  | .enc => some true
  | .encq => some false
  | _ => none

/-- The decoding operations, with their variant. -/
def decodeVariant : Instr → Option Bool
  | .dec => some true
  | .decq => some false
  | _ => none

/-- A lane descriptor row, with its payload width and its tz count (R76). -/
def laneRow : Instr → Option (Nat × BitVec 2)
  | .laneW4 tz => some (4, tz)
  | .laneW3 tz => some (3, tz)
  | .laneW2 tz => some (2, tz)
  | .laneW0 tz => some (0, tz)
  | _ => none

/-- How many lanes of the current block have been done. -/
def Stage.lanesDone : Stage → Nat
  | .boundary => 0
  | .header => 0
  | .lane k => k.val
  | .close => 8

/-- What holds while a job runs: CMD is an operation (UBOUND is 4, R70), N is legal, START is not pending, and for a
streaming job the windows lie in the address space without intersecting (R161), BLK has not passed the last block (R24),
no read of BLK has returned B(N) while blocks are still to do (R246), and PCUR lies between the header area and the
longest stream so far (R29, R144). -/
abbrev State.runningInv (s : State) : Prop :=
  s.start = false ∧ s.n.toNat ≤ Config.nmax ∧
  (jobDirection s = none → s.cmd = cmdWord 4 ∧ s.stage = .boundary ∧ s.blk = 0) ∧
  (jobDirection s ≠ none →
    s.windowOverflows = false ∧ s.windowsAlias = false ∧ s.blk.toNat ≤ s.blocks ∧
    (s.stage ≠ .boundary → s.blk.toNat < s.blocks) ∧
    (s.blk.toNat < s.blocks → s.blkSeen.toNat < s.blocks) ∧
    headerBytes s.n.toNat ≤ s.pcur.toNat ∧
    s.pcur.toNat ≤ headerBytes s.n.toNat + 32 * s.blk.toNat + 4 * s.stage.lanesDone)

/-- What holds of the status registers: CAUSE is set exactly in ERR (R22); RESULT is 0 but in DONE (R34); FADDR is 0 but
after an access was refused (R35); between jobs the engine stands at a block boundary. -/
abbrev State.statusInv (s : State) : Prop :=
  (s.cause = .noFault ↔ s.status ≠ .err) ∧
  (s.status ≠ .done → s.result = 0) ∧
  (s.cause ≠ .srcBounds → s.cause ≠ .dstBounds → s.cause ≠ .bus → s.faddr = 0) ∧
  (s.status ≠ .busy → s.stage = .boundary)

/-- What holds of every state the machine can reach: memory is in canonical form and every occasion of a free value is
past; what holds of the status registers; and what holds while a job runs. -/
abbrev State.Inv (s : State) : Prop :=
  s.mem.wf ∧ s.mem.tagsBelow s.freeCtr ∧ s.statusInv ∧ (s.status = .busy → s.runningInv)

/-- The state a rejected start leaves (R161, R206): ERR with its cause, and what every start step clears. -/
def State.rejected (s : State) (c : Cause) : State :=
  { s with
    start := false, status := .err, cause := c, blk := 0, result := 0, faddr := 0, stage := .boundary, blkSeen := 0 }

/-- What a fault in a block step leaves as in `s`, and what it loses (R206): RESULT, BLK, the job's registers and the
platform as before; bytes outside the destination window as before, and the bytes in it free values. -/
def State.faultFrame (s t : State) : Prop :=
  t.result = s.result ∧ t.blk = s.blk ∧ t.cmd = s.cmd ∧ t.n = s.n ∧ t.src = s.src ∧ t.srcLen = s.srcLen ∧
  t.dst = s.dst ∧ t.dstLen = s.dstLen ∧ t.start = s.start ∧ t.plat = s.plat ∧ t.turns = s.turns ∧
  (∀ a, s.inDestination a = false → t.mem.readByte a = s.mem.readByte a) ∧
  ∀ a, s.inDestination a = true → t.mem.readByte a = Config.freeByte s.freeCtr a

/-- `t` is `s` after the fault `c` at `addr` in a block step (R206): ERR, the cause, the address where FADDR can hold it,
and the frame. -/
def State.faulted (s : State) (c : Cause) (addr : Nat) (t : State) : Prop :=
  t.status = .err ∧ t.cause = c ∧ (addr < Config.addressSpace → t.faddr = BitVec.ofNat 32 addr) ∧ s.faultFrame t

/-- A safe outcome: the machine does not stop with a fault. -/
def safeOutcome : Host.Outcome State Fault Refusal → Bool
  | .next _ => true
  | .fault _ => false
  | .refused _ => true

end Sys2Proof.Machine
end

