-- ==== Sys2Proof/Certificates/Slice0/Obligations.lean ====
section
/-! DEFINITION. The statements for the provers. -/

open Sys2Proof Sys2Proof.Machine

/-! ### Encodings (30_encoding.md) -/

/-- Decoding what encoding wrote gives the instruction back, every field at every value (R70, R74, R75). -/
def Obligations.DecodeEncodeAgree : Prop :=
  ∀ (i : Instr) (rest : List Byte), i.wf = true → decode i.format (encode i ++ rest) = .ok (i, rest)

/-- The sixteen fields tile the header word, and each is where R141 reads it. -/
def Obligations.HeaderFieldsRoundTrip : Prop :=
  (∀ (lz tz : Lanes (BitVec 2)) (k : Fin 8),
    hdrLz (packHdr lz tz) k = lz[k] ∧ hdrTz (packHdr lz tz) k = tz[k]) ∧
  (∀ h : Word, packHdr (Vector.ofFn fun k => hdrLz h k) (Vector.ofFn fun k => hdrTz h k) = h) ∧
  (∀ (h : Word) (k : Fin 8),
    (hdrLz h k).setWidth 32 = (h >>> (2 * k.val)) &&& 3#32 ∧
    (hdrTz h k).setWidth 32 = (h >>> (16 + 2 * k.val)) &&& 3#32)

/-- The five command words and no others; OPC[0] is the direction and OPC[1] the variant (R70). -/
def Obligations.CommandWordsAreFive : Prop :=
  (∀ w : Word, 4 < w.toNat → ∃ e, decodeCmd w = .error e) ∧
  (∀ w : Word, w.toNat = 0 → decodeCmd w = .ok .enc) ∧
  (∀ w : Word, w.toNat = 1 → decodeCmd w = .ok .dec) ∧
  (∀ w : Word, w.toNat = 2 → decodeCmd w = .ok .encq) ∧
  (∀ w : Word, w.toNat = 3 → decodeCmd w = .ok .decq) ∧
  (∀ w : Word, w.toNat = 4 → decodeCmd w = .ok .ubound) ∧
  ∀ (w : Word) (i : Instr), w.toNat < 4 → decodeCmd w = .ok i →
    ((decodeVariant i).isSome = w.getLsbD 0) ∧ (encodeVariant i).isSome = !w.getLsbD 0 ∧
    streamVariant i = some (!w.getLsbD 1)

/-- A few words decode to what they stand for: the fields are laid out as R70, R74 and R75 say. That a word of 32 bits
standing alone is read as a command word where it is one of the five, and as a header word otherwise, is the model's
choice (log entry 5), and so is the one-byte layout of a descriptor standing alone (log entry 20). -/
def Obligations.SampleWordsDecode : Prop :=
  decodeTableWord 32 2 = some .encq ∧
  decodeTableWord 32 0xFFFEFFFE = some (.blkhdr #v[2, 3, 3, 3, 3, 3, 3, 3] #v[2, 3, 3, 3, 3, 3, 3, 3]) ∧
  decodeTableWord 8 0b1101 = some (.laneW3 3) ∧ decodeTableWord 8 0b0111 = some (.laneW0 1)

/-! ### The lane codec (41_lane_codec.md) -/

/-- The zero-bit counts count, and are 32 for the zero word alone (R7). -/
def Obligations.ZeroBitCounts : Prop :=
  ∀ x : Word,
    (x = 0 → ctz32 x = 32 ∧ clz32 x = 32) ∧
    (x ≠ 0 → ctz32 x < 32 ∧ clz32 x < 32 ∧
      x.getLsbD (ctz32 x) = true ∧ (∀ i, i < ctz32 x → x.getLsbD i = false) ∧
      x.getLsbD (31 - clz32 x) = true ∧ ∀ i, 31 - clz32 x < i → x.getLsbD i = false) ∧
    ctz32 x >>> 3 ≤ 4 ∧ clz32 x >>> 3 ≤ 4 ∧ (ctz32 x >>> 3 = 4 ↔ x = 0) ∧ (clz32 x >>> 3 = 4 ↔ x = 0)

/-- R125's table, row by row: `strip` by the position of the nonzero bytes (tz, lzb, lz, w and the payload; S above). -/
def Obligations.StripTable : Prop :=
  ∀ b0 b1 b2 b3 : Byte,
    let r : Word := b3 ++ b2 ++ b1 ++ b0
    let p := strip r
    p.sig = r >>> (8 * p.tz.toNat) ∧
    (p.tz.toNat, lzBytes r, p.lz.toNat, p.width, p.payload) =
      if b0 ≠ 0 then
        if b3 ≠ 0 then (0, 0, 0, 4, [b0, b1, b2, b3])
        else if b2 ≠ 0 then (0, 1, 1, 3, [b0, b1, b2])
        else if b1 ≠ 0 then (0, 2, 2, 2, [b0, b1])
        else (0, 3, 2, 2, [b0, 0])
      else if b1 ≠ 0 then
        if b3 ≠ 0 then (1, 1, 1, 3, [b1, b2, b3])
        else if b2 ≠ 0 then (1, 2, 2, 2, [b1, b2])
        else (1, 3, 2, 2, [b1, 0])
      else if b2 ≠ 0 then
        if b3 ≠ 0 then (2, 2, 2, 2, [b2, b3]) else (2, 3, 2, 2, [b2, 0])
      else if b3 ≠ 0 then (3, 3, 2, 2, [b3, 0])
      else (3, 4, 3, 0, [])

/-- The inverse law (R127): `unstrip` undoes `strip` for every word, and `strip` undoes `unstrip` exactly on canonical
lanes. -/
def Obligations.LaneCodecInverse : Prop :=
  (∀ r : Word, width (strip r).lz = (strip r).width ∧ unstrip (strip r).tz (strip r).payload = r) ∧
  ∀ (tz lz : BitVec 2) (payload : List Byte), payload.length = width lz →
    (((strip (unstrip tz payload)).tz = tz ∧ (strip (unstrip tz payload)).lz = lz ∧
      (strip (unstrip tz payload)).width = width lz ∧ (strip (unstrip tz payload)).payload = payload) ↔
      canonicalLane tz lz payload = true)

/-- The block advance (R144): the header word alone determines how many payload bytes the block has; 0 and 2 to 32 occur,
and nothing else. -/
def Obligations.BlockAdvanceRange : Prop :=
  (∀ r : Lanes Word, (payloadOf r).length = blockAdvance (headerOf r)) ∧
  (∀ h : Word, blockAdvance h ≤ 32 ∧ blockAdvance h ≠ 1) ∧
  ∀ n, n = 0 ∨ (2 ≤ n ∧ n ≤ 32) → ∃ h : Word, blockAdvance h = n

/-! ### The predictor (40_predictor.md) -/

/-- The slot hash reads bytes 1 and 3 of the delta and nothing else (R105). -/
def Obligations.HashReadsTwoBytes : Prop :=
  ∀ d : Word, Sys2Proof.Machine.hash d = d.extractLsb' 8 8 ^^^ d.extractLsb' 24 8 ∧
    (Sys2Proof.Machine.hash d).setWidth 32 = ((d >>> 8) ^^^ (d >>> 24)) &&& 0xFF#32

/-- Of the lanes that store to one entry, the highest remains; an entry no lane stores to keeps its word (R107). -/
def Obligations.HighestLaneRemains : Prop :=
  ∀ (p : Predictor) (d : Lanes Word) (i : Byte),
    (∀ k : Fin 8, p.idx[k] = i → (∀ j : Fin 8, k < j → p.idx[j] ≠ i) → Predictor.entry (p.stored d) i = d[k]) ∧
    ((∀ k : Fin 8, p.idx[k] ≠ i) → Predictor.entry (p.stored d) i = Predictor.entry p.lookup i)

/-- One block of the full variant, phase by phase (R103), and one of the quick variant, which leaves IDX, XPRIOR and
LOOKUP alone (R102); PRIOR takes the values (R100). -/
def Obligations.PredictorAdvance : Prop :=
  ∀ (p : Predictor) (v : Lanes Word) (k : Fin 8),
    (p.deltas v)[k] = v[k] - p.prior[k] ∧
    (Predictor.residuals true p (p.deltas v))[k] = (p.deltas v)[k] ^^^ p.xprior[k] ∧
    (Predictor.residuals false p (p.deltas v))[k] = (p.deltas v)[k] ∧
    (p.advance true v (p.deltas v)).idx[k] = Sys2Proof.Machine.hash ((p.deltas v)[k]) ∧
    (p.advance true v (p.deltas v)).xprior[k] =
      Predictor.entry (p.advance true v (p.deltas v)).lookup (Sys2Proof.Machine.hash ((p.deltas v)[k])) ∧
    (p.advance true v (p.deltas v)).lookup = p.stored (p.deltas v) ∧
    (p.advance true v (p.deltas v)).prior = v ∧
    p.advance false v (p.deltas v) = { p with prior := v }

/-- A decode block undoes an encode block and leaves the predictor in the same state (R101, R104). -/
def Obligations.DecoderTracksEncoder : Prop :=
  ∀ (full : Bool) (p : Predictor) (v : Lanes Word),
    decb full p (encb full p v).2.1 (encb full p v).2.2 = ((encb full p v).1, v)

/-- The first block of a full-variant stream equals the first block of the quick-variant stream (R108). -/
def Obligations.FirstBlockVariantsAgree : Prop :=
  ∀ v : Lanes Word, (encb true Predictor.zero v).2 = (encb false Predictor.zero v).2

/-- Deferring the table update to the start of the next block changes no output (R109). -/
def Obligations.DeferredStoreSameStream : Prop :=
  ∀ (blocks : Nat) (a : List Word),
    encBlocksDeferred blocks Predictor.zero (Lanes.same 0) a = encBlocks true blocks Predictor.zero a

/-! ### The operations as pure functions (43_jobs.md) -/

/-- The round trip (R177), with the stream length consumed equal to the one written. -/
def Obligations.StreamRoundTrip : Prop :=
  ∀ (full : Bool) (a : List Word), a.length ≤ Config.nmax →
    decStream full (encStream full a) a.length = a ∧ decConsumed (encStream full a) a.length = (encStream full a).length

/-- The size bounds of a stream, and where the document's bound meets the true one (R178, R9). -/
def Obligations.StreamSizeBounds : Prop :=
  (∀ (full : Bool) (a : List Word),
    4 * blockCount a.length ≤ (encStream full a).length ∧ (encStream full a).length ≤ maxStream a.length) ∧
  (∀ n, upperBound n ≤ maxStream n) ∧ ∀ n, upperBound n = maxStream n ↔ n % 8 = 0

/-! ### Data memory (20_memory.md) -/

/-- A little-endian write puts byte j at address + j and reads back as the low bytes (R8, R51). -/
def Obligations.LittleEndianReadsBack : Prop :=
  ∀ (m : Memory) (a n : Nat) (v : Word), m.wf → n ≤ 4 → a + n ≤ Config.addressSpace →
    (∀ j, j < n → (m.write a n v).readByte (a + j) = v.extractLsb' (8 * j) 8) ∧
    ((m.write a n v).read a n).toNat = v.toNat % 256 ^ n

/-! ### The start step (43_jobs.md R161, R162) -/

/-- An accepted start of ENC, DEC, ENCQ or DECQ: BUSY, with PCUR at 4*B(N) and the predictor all zero (R161,
R162, R232). Of the model's own fields, `unread` takes the job's windows (the model's reading of R240, log entry 14). -/
def Obligations.StreamStartAccepted : Prop :=
  ∀ (i : Instr) (full : Bool) (s : State), streamVariant i = some full → s.status ≠ .busy →
    s.n.toNat ≤ 2 ^ 28 → s.src.toNat + s.srcLen.toNat ≤ 2 ^ 32 → s.dst.toNat + s.dstLen.toNat ≤ 2 ^ 32 →
    ¬(0 < s.srcLen.toNat ∧ 0 < s.dstLen.toNat ∧ s.src.toNat < s.dst.toNat + s.dstLen.toNat ∧
      s.dst.toNat < s.src.toNat + s.srcLen.toNat) →
    s.windowOverDevice = false →
    exec i s = .next { s with
      start := false, status := .busy, cause := .noFault, result := 0, faddr := 0, blk := 0, stage := .boundary
      blkSeen := 0, unread := s.windows :: s.unread, pcur := BitVec.ofNat 32 (4 * ((s.n.toNat + 7) / 8))
      pred := { prior := Lanes.same 0, idx := Lanes.same 0, xprior := Lanes.same 0, lookup := Vector.replicate 256 0 } }

/-- A start of a streaming job that a check rejects, in the order of the checks (R161): BAD_N, BAD_WINDOW, ALIAS.
That the engine registers, unspecified then (R39, R206), are kept is the model's choice (log entry 15), and that memory is
as before, as R161 says, is its reading against R206's general words (log entry 11). -/
def Obligations.StreamStartRejected : Prop :=
  ∀ (i : Instr) (full : Bool) (s : State), streamVariant i = some full → s.status ≠ .busy →
    (2 ^ 28 < s.n.toNat → exec i s = .next (s.rejected .badN)) ∧
    (s.n.toNat ≤ 2 ^ 28 → 2 ^ 32 < s.src.toNat + s.srcLen.toNat ∨ 2 ^ 32 < s.dst.toNat + s.dstLen.toNat →
      exec i s = .next (s.rejected .badWindow)) ∧
    (s.n.toNat ≤ 2 ^ 28 → s.src.toNat + s.srcLen.toNat ≤ 2 ^ 32 → s.dst.toNat + s.dstLen.toNat ≤ 2 ^ 32 →
      0 < s.srcLen.toNat → 0 < s.dstLen.toNat → s.src.toNat < s.dst.toNat + s.dstLen.toNat →
      s.dst.toNat < s.src.toNat + s.srcLen.toNat → exec i s = .next (s.rejected .aliasing))

/-- A start whose command word is no operation (R161, R79): ILLEGAL_CMD, before every other check. That the engine
registers are kept is the model's choice (log entry 15), and that memory is as before, as R161 says, is its reading against
R206's general words (log entry 11). -/
def Obligations.IllegalCommandFaults : Prop :=
  ∀ s : State, s.turns = [] → s.status ≠ .busy → s.start = true →
    s.cmd.extractLsb' 3 29 ≠ 0 ∨ 4 < (s.cmd.extractLsb' 0 3).toNat → step s = .next (s.rejected .illegalCmd)

/-- The start step of UBOUND (R161, R174): accepted or BAD_N; the windows are not examined. That the engine registers,
unspecified then (R39), are kept is the model's choice (log entry 15). -/
def Obligations.UboundStart : Prop :=
  ∀ s : State, s.status ≠ .busy →
    (s.n.toNat ≤ 2 ^ 28 → exec .ubound s = .next { s with
      start := false, status := .busy, cause := .noFault, result := 0, faddr := 0, blk := 0, stage := .boundary
      blkSeen := 0 }) ∧
    (2 ^ 28 < s.n.toNat → exec .ubound s = .next (s.rejected .badN))

/-! ### The finish step (R168) -/

/-- UBOUND's finish step: RESULT is `ceil(N/2) + 4*N`, which fits; no memory is touched (R168, R174). That the
engine registers, unspecified after a job (R39), are kept is the model's choice (log entry 15). -/
def Obligations.UboundResult : Prop :=
  ∀ s : State, s.status = .busy →
    exec .ubound s = .next { s with
      result := BitVec.ofNat 32 ((s.n.toNat + 1) / 2 + 4 * s.n.toNat), status := .done, stage := .boundary } ∧
    (s.n.toNat ≤ 2 ^ 28 → (BitVec.ofNat 32 ((s.n.toNat + 1) / 2 + 4 * s.n.toNat)).toNat =
      (s.n.toNat + 1) / 2 + 4 * s.n.toNat)

/-- The finish step of a streaming job: RESULT takes PCUR and STATE becomes DONE (R168). That nothing else changes
is, for PCUR, PRIOR, IDX, XPRIOR and LOOKUP, which R39 leaves unspecified after a job, the model's choice (log entry 15). -/
def Obligations.StreamFinish : Prop :=
  ∀ (i : Instr) (full : Bool) (s : State), streamVariant i = some full → s.status = .busy → s.stage = .boundary →
    (s.n.toNat + 7) / 8 ≤ s.blk.toNat → exec i s = .next { s with result := s.pcur, status := .done }

/-! ### The block steps (R164, R165) -/

/-- The encode block step of ENC and ENCQ completes exactly as R164 says where none of its own accesses is refused: the
reads of the real lanes' values, the header write, and the payload write of each lane, at the width and the offset that
the block's header word gives. -/
def Obligations.EncodeBlockStep : Prop :=
  ∀ (i : Instr) (full : Bool) (s : State), encodeVariant i = some full → s.atBlock →
    (∀ k : Fin 8, k.val < s.realLanes → s.srcOk (s.valueOffset k) 4) → s.dstOk s.headerOffset 4 →
    let e := encb full s.pred s.sourceBlock
    (∀ k : Fin 8, s.dstOk (s.pcur.toNat + laneOffset e.2.1 k) (laneWidth e.2.1 k)) →
    exec i s = .next { s with
      mem := (s.mem.write (s.dst.toNat + 4 * s.blk.toNat) 4 e.2.1).writeBytes (s.dst.toNat + s.pcur.toNat) e.2.2
      pcur := s.pcur + BitVec.ofNat 32 e.2.2.length
      pred := e.1
      blk := s.blk + 1
      hdr := e.2.1
      resid := Predictor.residuals full s.pred (s.pred.deltas s.sourceBlock) }

/-- The decode block step of DEC and DECQ completes exactly as R165 says where none of its own accesses is refused: the
header read, the payload read of each lane, at the width and the offset that the header word gives, and the writes of the
real lanes' values. -/
def Obligations.DecodeBlockStep : Prop :=
  ∀ (i : Instr) (full : Bool) (s : State), decodeVariant i = some full → s.atBlock →
    s.srcOk s.headerOffset 4 →
    (∀ k : Fin 8, s.srcOk (s.pcur.toNat + laneOffset s.sourceHeader k) (laneWidth s.sourceHeader k)) →
    (∀ k : Fin 8, k.val < s.realLanes → s.dstOk (s.valueOffset k) 4) →
    let e := decb full s.pred s.sourceHeader s.sourcePayload
    exec i s = .next { s with
      mem := s.mem.writeBytes (s.dst.toNat + 32 * s.blk.toNat) (s.valueBytes e.2)
      pcur := s.pcur + BitVec.ofNat 32 (blockAdvance s.sourceHeader)
      pred := e.1
      blk := s.blk + 1
      hdr := s.sourceHeader
      resid := residualsOf s.sourceHeader s.sourcePayload }

/-- The frame of an encode block step of ENC and ENCQ that completes: every byte outside the header word and the payload reads as
before, and of the registers only PCUR, BLK and the predictor's change (R164, R56). -/
def Obligations.EncodeBlockFrame : Prop :=
  ∀ (i : Instr) (full : Bool) (s t : State), encodeVariant i = some full → s.atBlock → exec i s = .next t →
    t.status = .busy →
    t = { s with
      mem := t.mem, pcur := t.pcur, pred := t.pred, blk := s.blk + 1, hdr := t.hdr, resid := t.resid } ∧
    (full = false → t.pred = { s.pred with prior := t.pred.prior }) ∧
    ∀ a, (a < s.dst.toNat + 4 * s.blk.toNat ∨ s.dst.toNat + 4 * s.blk.toNat + 4 ≤ a) →
      (a < s.dst.toNat + s.pcur.toNat ∨
        s.dst.toNat + s.pcur.toNat + (encb full s.pred s.sourceBlock).2.2.length ≤ a) →
      t.mem.readByte a = s.mem.readByte a

/-- The frame of a decode block step of DEC and DECQ that completes: every byte outside the real lanes' words reads as before, and of
the registers only PCUR, BLK and the predictor's change (R165, R167). -/
def Obligations.DecodeBlockFrame : Prop :=
  ∀ (i : Instr) (full : Bool) (s t : State), decodeVariant i = some full → s.atBlock → exec i s = .next t →
    t.status = .busy →
    t = { s with
      mem := t.mem, pcur := t.pcur, pred := t.pred, blk := s.blk + 1, hdr := t.hdr, resid := t.resid } ∧
    (full = false → t.pred = { s.pred with prior := t.pred.prior }) ∧
    ∀ a, (a < s.dst.toNat + 32 * s.blk.toNat ∨
        s.dst.toNat + 32 * s.blk.toNat + 4 * min 8 (s.n.toNat - 8 * s.blk.toNat) ≤ a) →
      t.mem.readByte a = s.mem.readByte a

/-! ### Faults in a block step (60_exceptions.md) -/

/-- An encode job whose source window ends before the value of a real lane: SRC_BOUNDS at that value's address, the
earlier lanes' reads being admitted (R53, R200, R203, R204). -/
def Obligations.EncodeSourceShort : Prop :=
  ∀ (i : Instr) (full : Bool) (s : State) (k : Fin 8), encodeVariant i = some full → s.atBlock →
    k.val < s.realLanes → (∀ j : Fin 8, j < k → s.srcOk (s.valueOffset j) 4) →
    s.srcLen.toNat < 4 * (8 * s.blk.toNat + k.val) + 4 →
    ∃ t, exec i s = .next t ∧ s.faulted .srcBounds (s.src.toNat + 4 * (8 * s.blk.toNat + k.val)) t

/-- An encode job whose destination window ends before the block's header word: DST_BOUNDS at its address, after the
value reads (R54, R59, R200). -/
def Obligations.EncodeHeaderShort : Prop :=
  ∀ (i : Instr) (full : Bool) (s : State), encodeVariant i = some full → s.atBlock →
    (∀ k : Fin 8, k.val < s.realLanes → s.srcOk (s.valueOffset k) 4) →
    s.dstLen.toNat < 4 * s.blk.toNat + 4 →
    ∃ t, exec i s = .next t ∧ s.faulted .dstBounds (s.dst.toNat + 4 * s.blk.toNat) t

/-- A decode job's header read: SRC_BOUNDS where the window ends before it, and only otherwise BUS where the platform
refuses it (R53, R204). -/
def Obligations.DecodeHeaderRefused : Prop :=
  ∀ (i : Instr) (full : Bool) (s : State), decodeVariant i = some full → s.atBlock →
    (s.srcLen.toNat < 4 * s.blk.toNat + 4 →
      ∃ t, exec i s = .next t ∧ s.faulted .srcBounds (s.src.toNat + 4 * s.blk.toNat) t) ∧
    (4 * s.blk.toNat + 4 ≤ s.srcLen.toNat → s.plat.admits (s.src.toNat + 4 * s.blk.toNat) 4 .read = false →
      ∃ t, exec i s = .next t ∧ s.faulted .bus (s.src.toNat + 4 * s.blk.toNat) t)

/-- A decode job whose source window ends inside a lane's payload: SRC_BOUNDS at the first byte of that payload, the
header and the earlier lanes' reads being admitted (R53, R143, R203). -/
def Obligations.DecodePayloadShort : Prop :=
  ∀ (i : Instr) (full : Bool) (s : State) (k : Fin 8), decodeVariant i = some full → s.atBlock →
    s.srcOk s.headerOffset 4 → (∀ j : Fin 8, j < k →
      s.srcOk (s.pcur.toNat + laneOffset s.sourceHeader j) (laneWidth s.sourceHeader j)) →
    laneWidth s.sourceHeader k ≠ 0 →
    s.srcLen.toNat < s.pcur.toNat + laneOffset s.sourceHeader k + laneWidth s.sourceHeader k →
    ∃ t, exec i s = .next t ∧
      s.faulted .srcBounds (s.src.toNat + (s.pcur.toNat + laneOffset s.sourceHeader k)) t

/-- Every access of an encode block step of ENC and ENCQ that is refused while the accesses before it are not, in the order
of R59 (R54, R164, R200, R203, R204): BUS for a value read, the header write or a payload write that lies in its window
and that the platform refuses, DST_BOUNDS for a payload write that leaves the destination window, each at the access's
first byte. The bounds faults of the other two accesses are `EncodeSourceShort` and `EncodeHeaderShort`. -/
def Obligations.EncodeAccessRefused : Prop :=
  ∀ (i : Instr) (full : Bool) (s : State) (k : Fin 8), encodeVariant i = some full → s.atBlock →
    let h := (encb full s.pred s.sourceBlock).2.1
    let off := s.pcur.toNat + laneOffset h k
    (k.val < s.realLanes → (∀ j : Fin 8, j < k → s.srcOk (s.valueOffset j) 4) →
      s.valueOffset k + 4 ≤ s.srcLen.toNat → s.plat.admits (s.src.toNat + s.valueOffset k) 4 .read = false →
      ∃ t, exec i s = .next t ∧ s.faulted .bus (s.src.toNat + s.valueOffset k) t) ∧
    ((∀ j : Fin 8, j.val < s.realLanes → s.srcOk (s.valueOffset j) 4) →
      s.headerOffset + 4 ≤ s.dstLen.toNat → s.plat.admits (s.dst.toNat + s.headerOffset) 4 .write = false →
      ∃ t, exec i s = .next t ∧ s.faulted .bus (s.dst.toNat + s.headerOffset) t) ∧
    ((∀ j : Fin 8, j.val < s.realLanes → s.srcOk (s.valueOffset j) 4) → s.dstOk s.headerOffset 4 →
      (∀ j : Fin 8, j < k → s.dstOk (s.pcur.toNat + laneOffset h j) (laneWidth h j)) → laneWidth h k ≠ 0 →
      (s.dstLen.toNat < off + laneWidth h k →
        ∃ t, exec i s = .next t ∧ s.faulted .dstBounds (s.dst.toNat + off) t) ∧
      (off + laneWidth h k ≤ s.dstLen.toNat → s.plat.admits (s.dst.toNat + off) (laneWidth h k) .write = false →
        ∃ t, exec i s = .next t ∧ s.faulted .bus (s.dst.toNat + off) t))

/-- Every access of a decode block step of DEC and DECQ after the header read that is refused while the accesses before it
are not, in the order of R59 (R53, R54, R165, R200, R203, R204): BUS for a payload read or a value write that lies in its
window and that the platform refuses, DST_BOUNDS for a value write that leaves the destination window, each at the
access's first byte. The header read is `DecodeHeaderRefused`, a payload that leaves the source window
`DecodePayloadShort`. -/
def Obligations.DecodeAccessRefused : Prop :=
  ∀ (i : Instr) (full : Bool) (s : State) (k : Fin 8), decodeVariant i = some full → s.atBlock →
    s.srcOk s.headerOffset 4 →
    let h := s.sourceHeader
    let off := s.pcur.toNat + laneOffset h k
    ((∀ j : Fin 8, j < k → s.srcOk (s.pcur.toNat + laneOffset h j) (laneWidth h j)) → laneWidth h k ≠ 0 →
      off + laneWidth h k ≤ s.srcLen.toNat → s.plat.admits (s.src.toNat + off) (laneWidth h k) .read = false →
      ∃ t, exec i s = .next t ∧ s.faulted .bus (s.src.toNat + off) t) ∧
    ((∀ j : Fin 8, s.srcOk (s.pcur.toNat + laneOffset h j) (laneWidth h j)) → k.val < s.realLanes →
      (∀ j : Fin 8, j < k → s.dstOk (s.valueOffset j) 4) →
      (s.dstLen.toNat < s.valueOffset k + 4 →
        ∃ t, exec i s = .next t ∧ s.faulted .dstBounds (s.dst.toNat + s.valueOffset k) t) ∧
      (s.valueOffset k + 4 ≤ s.dstLen.toNat → s.plat.admits (s.dst.toNat + s.valueOffset k) 4 .write = false →
        ∃ t, exec i s = .next t ∧ s.faulted .bus (s.dst.toNat + s.valueOffset k) t))

/-- Fault entry, for every instruction that a BUSY engine runs: an access fault, with RESULT, BLK, the job's registers
and every byte outside the destination window as they were (R205, R206). -/
def Obligations.FaultEntryFrame : Prop :=
  ∀ (i : Instr) (s t : State), s.status = .busy → exec i s = .next t → t.status = .err →
    t.cause ∈ [Cause.srcBounds, .dstBounds, .bus] ∧ s.faultFrame t

/-! ### The stream's rows: BLKHDR and LANE.* -/

/-- BLKHDR in an encode job: the header word `pack_hdr` makes is written at DST + 4*b (R140, R145). That a header word is
a step of its own, with `hdr` and the stage that follows, is the model's granularity (log entry 6); that it acts so at
every stage and every BLK, also where no header is next, and with whatever fields it carries, are its choices (log entries
17 and 24). -/
def Obligations.HeaderRowEncodes : Prop :=
  ∀ (lz tz : Lanes (BitVec 2)) (s : State), jobDirection s = some .encode → s.dstOk s.headerOffset 4 →
    exec (.blkhdr lz tz) s = .next { s with
      mem := s.mem.write (s.dst.toNat + 4 * s.blk.toNat) 4 (packHdr lz tz), hdr := packHdr lz tz, stage := .lane 0 } ∧
    ∀ a, (a < s.dst.toNat + 4 * s.blk.toNat ∨ s.dst.toNat + 4 * s.blk.toNat + 4 ≤ a) →
      (s.mem.write (s.dst.toNat + 4 * s.blk.toNat) 4 (packHdr lz tz)).readByte a = s.mem.readByte a

/-- BLKHDR in a decode job: the engine holds the word, whose fields are those of R141, and memory is as before. That the
word is a step of its own, held in `hdr`, with the stage that follows, is the model's granularity (log entry 6); that it
acts so at every stage and every BLK, also where no header is next, and with whatever fields it carries, are its choices
(log entries 17 and 24). -/
def Obligations.HeaderRowDecodes : Prop :=
  ∀ (lz tz : Lanes (BitVec 2)) (s : State), jobDirection s = some .decode →
    exec (.blkhdr lz tz) s = .next { s with hdr := packHdr lz tz, stage := .lane 0 } ∧
    ∀ k : Fin 8, hdrLz (packHdr lz tz) k = lz[k] ∧ hdrTz (packHdr lz tz) k = tz[k]

/-- LANE.W4, LANE.W3, LANE.W2 and LANE.W0 in a decode job: `w` bytes at SRC + PCUR become the lane's residual, and PCUR
moves past them; no memory changes (R126, R143). That a lane is a step of its own, with `resid` and the stage that
follows, is the model's granularity (log entry 6); that it acts with the descriptor it carries, also where the header word
gives another, is its choice (log entry 24). -/
def Obligations.LaneRowDecodes : Prop :=
  ∀ (i : Instr) (w : Nat) (tz : BitVec 2) (k : Fin 8) (s : State), laneRow i = some (w, tz) →
    jobDirection s = some .decode → s.stage = .lane k → s.srcOk s.pcur.toNat w →
    exec i s = .next { s with
      pcur := s.pcur + BitVec.ofNat 32 w
      resid := s.resid.set k.val (unstrip tz (s.mem.readBytes (s.src.toNat + s.pcur.toNat) w))
      stage := if h : k.val + 1 < 8 then .lane ⟨k.val + 1, h⟩ else .close }

/-- LANE.W4, LANE.W3, LANE.W2 and LANE.W0 in an encode job: the low `w` bytes of the lane's significant word go to
DST + PCUR, PCUR moves past them, and every other byte reads as before (R142). That a lane is a step of its own, from
`resid`, with the stage that follows, is the model's granularity (log entry 6); that it acts with the descriptor it
carries, also where `strip` of the residual gives another, is its choice (log entry 24). -/
def Obligations.LaneRowEncodes : Prop :=
  ∀ (i : Instr) (w : Nat) (tz : BitVec 2) (k : Fin 8) (s : State), laneRow i = some (w, tz) →
    jobDirection s = some .encode → s.stage = .lane k → s.dstOk s.pcur.toNat w →
    exec i s = .next { s with
      mem := s.mem.write (s.dst.toNat + s.pcur.toNat) w (s.resid[k] >>> (8 * tz.toNat))
      pcur := s.pcur + BitVec.ofNat 32 w
      stage := if h : k.val + 1 < 8 then .lane ⟨k.val + 1, h⟩ else .close } ∧
    ∀ a, (a < s.dst.toNat + s.pcur.toNat ∨ s.dst.toNat + s.pcur.toNat + w ≤ a) →
      (s.mem.write (s.dst.toNat + s.pcur.toNat) w (s.resid[k] >>> (8 * tz.toNat))).readByte a = s.mem.readByte a

/-- LANE.W4, LANE.W3 and LANE.W2: a lane whose payload leaves its window takes the bounds fault at the payload's first
byte (R53, R54, R203). That a lane is a step of its own, which can fault alone, is the model's granularity (log entry
6); that it acts with the descriptor it carries is its choice (log entry 24). -/
def Obligations.LaneRowOutOfBounds : Prop :=
  ∀ (i : Instr) (w : Nat) (tz : BitVec 2) (k : Fin 8) (s : State), laneRow i = some (w, tz) → w ≠ 0 →
    s.stage = .lane k →
    (jobDirection s = some .decode → s.srcLen.toNat < s.pcur.toNat + w →
      ∃ t, exec i s = .next t ∧ s.faulted .srcBounds (s.src.toNat + s.pcur.toNat) t) ∧
    (jobDirection s = some .encode → s.dstLen.toNat < s.pcur.toNat + w →
      ∃ t, exec i s = .next t ∧ s.faulted .dstBounds (s.dst.toNat + s.pcur.toNat) t)

/-! ### The step (R163) -/

/-- A step runs the decoded instruction: the command word when a start is pending and at a block boundary or a block's
end; the header word or the lane's descriptor inside a block. Nothing is added around `exec` but taking the engine's
turn off the list. R163 makes a block step one step: that a header word, a lane's descriptor and a block's end are also
steps of their own, from a state that stands there, is the model's granularity (log entry 6). -/
def Obligations.StepRunsDecoded : Prop :=
  ∀ (s : State) (i : Instr), s.turns = [] →
    (step { s with turns := [.engine] } = step s) ∧
    (s.status ≠ .busy → s.start = true → decodeCmd s.cmd = .ok i → step s = exec i s) ∧
    (s.status = .busy → s.stage = .boundary ∨ s.stage = .close → decodeCmd s.cmd = .ok i → step s = exec i s) ∧
    (jobDirection s = some .decode → s.stage = .header → s.srcOk s.headerOffset 4 →
      decodeHdr s.sourceHeader = i → step s = exec i s) ∧
    (jobDirection s = some .encode → s.stage = .header → decodeHdr s.hdr = i → step s = exec i s) ∧
    ∀ k : Fin 8, jobDirection s ≠ none → s.stage = .lane k →
      laneOf (hdrTz s.hdr k) (hdrLz s.hdr k) = i → step s = exec i s

/-- An engine that is not BUSY does nothing until a START (R224). -/
def Obligations.IdleEngineDoesNothing : Prop :=
  ∀ s : State, s.turns = [] → s.status ≠ .busy → s.start = false → step s = .next s

/-- A decode block step is its header word and its eight lane descriptors, run one at a time, and its end: ten steps
from the block's header reach the state that the one block step reaches (R165), for a block step that completes. The
granularity is the model's choice (log entry 6). -/
def Obligations.DecodeBlockIsItsRows : Prop :=
  ∀ (i : Instr) (full : Bool) (s t : State), decodeVariant i = some full → s.atBlock → s.turns = [] →
    decodeCmd s.cmd = .ok i → exec i s = .next t → t.status = .busy →
    Sys2Proof.core.run 10 { s with stage := .header } = .next t

/-- An encode block step is its header word and its eight lane descriptors, run one at a time, and its end (R164), for a
block step that completes, the values having been fetched and turned into residuals before. The granularity is the
model's choice (log entry 6). -/
def Obligations.EncodeBlockIsItsRows : Prop :=
  ∀ (i : Instr) (full : Bool) (s t : State), encodeVariant i = some full → s.atBlock → s.turns = [] →
    decodeCmd s.cmd = .ok i → exec i s = .next t → t.status = .busy →
    Sys2Proof.core.run 10 { s with
      stage := .header
      hdr := (encb full s.pred s.sourceBlock).2.1
      resid := Predictor.residuals full s.pred (s.pred.deltas s.sourceBlock) } = .next t

/-! ### The host's side (10_state.md) -/

/-- While BUSY every host write to any register, CTRL.START included, is ignored (R36). -/
def Obligations.BusyIgnoresWrites : Prop :=
  ∀ (s : State) (offset : Nat) (v : Word) (rest : List Turn), s.status = .busy → offset % 4 = 0 →
    s.turns = .regWrite offset 4 v :: rest → step s = .next { s with turns := rest }

/-- The register map, writes, of an engine that is not BUSY (R22): the six RW registers take the value; STATUS, RESULT,
FADDR, BLK, a CTRL write of 0 in bit 0 and everything from 0x2C up change nothing. -/
def Obligations.RegisterMapWrites : Prop :=
  ∀ (s : State) (offset : Nat) (v : Word) (rest : List Turn), s.status ≠ .busy → s.start = false →
    s.turns = .regWrite offset 4 v :: rest →
    (offset = 0x08 → step s = .next { s with turns := rest, cmd := v }) ∧
    (offset = 0x0C → step s = .next { s with turns := rest, n := v }) ∧
    (offset = 0x10 → step s = .next { s with turns := rest, src := v }) ∧
    (offset = 0x14 → step s = .next { s with turns := rest, srcLen := v }) ∧
    (offset = 0x18 → step s = .next { s with turns := rest, dst := v }) ∧
    (offset = 0x1C → step s = .next { s with turns := rest, dstLen := v }) ∧
    ((offset = 0x00 ∧ v.getLsbD 0 = false) ∨ offset = 0x04 ∨ (0x20 ≤ offset ∧ offset % 4 = 0) →
      step s = .next { s with turns := rest })

/-- The register map, reads (R22): the value returned, in any state, and no register changed. Of the model's own fields a
read of STATUS that returns DONE or ERR also empties `unread`, the windows that R240 keeps for the engine until that read
(the model's reading, log entry 14), and a read of BLK also writes `blkSeen` and `freeCtr` (log entry 3). A read of BLK is exact
unless a streaming job has blocks still to do, with BLK = B(N) and a BUSY UBOUND among the exact cases (R246, U25); a
read of BLK while blocks are still to do is `BlkReadWhileBusy`. -/
def Obligations.RegisterMapReads : Prop :=
  ∀ (s : State) (offset : Nat) (rest : List Turn), s.turns = .regRead offset 4 :: rest →
    (offset = 0x00 → step s = .next { s with turns := rest, hostData := 0 }) ∧
    (offset = 0x04 → ∃ w : Word,
      step s = .next { s with
        turns := rest, hostData := w, unread := if s.status = .done ∨ s.status = .err then [] else s.unread } ∧
      w.toNat = s.status.code.toNat + 16 * s.cause.code.toNat) ∧
    (offset = 0x08 → step s = .next { s with turns := rest, hostData := s.cmd }) ∧
    (offset = 0x0C → step s = .next { s with turns := rest, hostData := s.n }) ∧
    (offset = 0x10 → step s = .next { s with turns := rest, hostData := s.src }) ∧
    (offset = 0x14 → step s = .next { s with turns := rest, hostData := s.srcLen }) ∧
    (offset = 0x18 → step s = .next { s with turns := rest, hostData := s.dst }) ∧
    (offset = 0x1C → step s = .next { s with turns := rest, hostData := s.dstLen }) ∧
    (offset = 0x20 → step s = .next { s with turns := rest, hostData := s.result }) ∧
    (offset = 0x24 → step s = .next { s with turns := rest, hostData := s.faddr }) ∧
    (offset = 0x28 → jobDirection s = none ∨ s.blocks ≤ s.blk.toNat → ∃ t, step s = .next t ∧ t.hostData = s.blk ∧
      t = { s with turns := rest, hostData := t.hostData, blkSeen := t.blkSeen, freeCtr := t.freeCtr }) ∧
    (0x2C ≤ offset ∧ offset % 4 = 0 → step s = .next { s with turns := rest, hostData := 0 })

/-- A register access that is not a naturally aligned 32-bit access is refused (R22). -/
def Obligations.OddAccessRefused : Prop :=
  ∀ (s : State) (offset size : Nat) (v : Word) (rest : List Turn), size ≠ 4 ∨ offset % 4 ≠ 0 →
    step { s with turns := .regWrite offset size v :: rest } = .refused (.badRegisterAccess offset size) ∧
    step { s with turns := .regRead offset size :: rest } = .refused (.badRegisterAccess offset size)

/-- A read of BLK while blocks are still to be completed returns the index of one of them, no smaller than what an
earlier read of the job returned (R246). Which one is a free value. -/
def Obligations.BlkReadWhileBusy : Prop :=
  ∀ (s : State) (rest : List Turn), s.turns = .regRead 0x28 4 :: rest → jobDirection s ≠ none →
    s.blk.toNat < s.blocks → s.blkSeen.toNat < s.blocks →
    ∃ t, step s = .next t ∧ s.blk.toNat ≤ t.hostData.toNat ∧ t.hostData.toNat < s.blocks ∧
      s.blkSeen.toNat ≤ t.hostData.toNat ∧ t.blkSeen = t.hostData ∧
      t = { s with turns := rest, hostData := t.hostData, blkSeen := t.blkSeen, freeCtr := t.freeCtr }

/-- A write of 1 to CTRL.START in a state other than BUSY makes the engine take the start step at once (R160): that of the
operation in CMD, or the ILLEGAL_CMD fault where CMD is no operation (R161). In that fault, that the engine registers
are kept is the model's choice (log entry 15), and that memory is as before, as R161 says, is its reading against R206's
general words (log entry 11). -/
def Obligations.StartWriteStartsAtOnce : Prop :=
  ∀ (s : State) (v : Word) (rest : List Turn), s.status ≠ .busy → v.getLsbD 0 = true →
    s.turns = .regWrite 0x00 4 v :: rest →
    (∀ i : Instr, decodeCmd s.cmd = .ok i → step s = exec i { s with turns := rest, start := true }) ∧
    (s.cmd.extractLsb' 3 29 ≠ 0 ∨ 4 < (s.cmd.extractLsb' 0 3).toNat →
      step s = .next (State.rejected { s with turns := rest } .illegalCmd))

/-- From an accepted START of a streaming job until a read of STATUS returns DONE or ERR, another agent's write to
either window and read of the destination window is refused; its accesses outside every such window, and its reads of a
source window, are made (R240). The engine's windows are the running job's and those not
yet seen to be free. That the time ends with that read, and not with BUSY, is the model's reading of R240 beside U12 (log
entry 14); that the other accesses are made at every address, also where MemAdmit refuses the engine or a device register
lies, and are one byte wide, are its choices (log entries 23 and 7). -/
def Obligations.WindowsExclusive : Prop :=
  (∀ (s t : State), startStream s = .next t → t.status = .busy → s.windows ∈ t.unread) ∧
  (∀ (s t : State), step s = .next t → (∀ w ∈ s.unread, w ∈ t.unread) ∨
    (∃ rest, s.turns = .regRead 0x04 4 :: rest ∧ (s.status = .done ∨ s.status = .err)) ∨
    ∃ rest, s.turns = .reset :: rest) ∧
  ∀ (s : State) (a : Word) (b : Byte) (rest : List Turn),
    (∀ w ∈ engineWindows s, w.inSource a.toNat = true ∨ w.inDestination a.toNat = true →
      step { s with turns := .memWrite a b :: rest } = .refused (.windowTouched a)) ∧
    (∀ w ∈ engineWindows s, w.inDestination a.toNat = true →
      step { s with turns := .memRead a :: rest } = .refused (.windowTouched a)) ∧
    ((∀ w ∈ engineWindows s, w.inSource a.toNat = false ∧ w.inDestination a.toNat = false) →
      step { s with turns := .memWrite a b :: rest } =
        .next { s with turns := rest, mem := s.mem.writeByte a.toNat b }) ∧
    ((∀ w ∈ engineWindows s, w.inDestination a.toNat = false) →
      step { s with turns := .memRead a :: rest } =
        .next { s with turns := rest, hostData := (s.mem.readByte a.toNat).setWidth 32 })

/-! ### Reset (70_reset_and_hazards.md) -/

/-- The state after reset, the values the spec gives (R40). -/
def Obligations.ResetValues : Prop :=
  State.reset.status = .idle ∧ State.reset.cause = .noFault ∧ State.reset.cmd = 0 ∧ State.reset.n = 0 ∧
  State.reset.src = 0 ∧ State.reset.srcLen = 0 ∧ State.reset.dst = 0 ∧ State.reset.dstLen = 0 ∧
  State.reset.result = 0 ∧ State.reset.faddr = 0 ∧ State.reset.blk = 0

/-- The reset event in any state (R230, R231): the host registers take their reset values; memory is not touched, but
that a streaming job it abandons loses its destination window, and nothing outside it. That an UBOUND job it abandons
loses no window (R231 names the job's destination window, and UBOUND uses none) is the model's reading (log entry 13). -/
def Obligations.ResetEvent : Prop :=
  ∀ (s : State) (rest : List Turn), s.turns = .reset :: rest →
    ∃ t, step s = .next t ∧ t.turns = rest ∧ t.plat = s.plat ∧ t.status = .idle ∧ t.cause = .noFault ∧ t.start = false ∧
      t.cmd = 0 ∧ t.n = 0 ∧ t.src = 0 ∧ t.srcLen = 0 ∧ t.dst = 0 ∧ t.dstLen = 0 ∧ t.result = 0 ∧ t.faddr = 0 ∧ t.blk = 0 ∧
      (jobDirection s = none → t.mem = s.mem) ∧
      (jobDirection s ≠ none → ∀ a, s.inDestination a = true → t.mem.readByte a = Config.freeByte s.freeCtr a) ∧
      ∀ a, s.inDestination a = false → t.mem.readByte a = s.mem.readByte a

/-! ### What every step keeps -/

/-- The state after reset meets the invariant. -/
def Obligations.ResetMeetsInv : Prop := State.reset.Inv

/-- Every step keeps the invariant: memory in canonical form, CAUSE set exactly in ERR, RESULT and FADDR 0 where the spec
says so, and in a running job a legal command and count, windows that lie apart in the address space, BLK not past the
last block and PCUR between the header area and the longest stream so far. -/
def Obligations.StepKeepsInv : Prop :=
  ∀ s t : State, s.Inv → step s = .next t → t.Inv

/-- No state that meets the invariant stops with a fault: every access names an address that exists (R161). -/
def Obligations.InvNeverFaults : Prop :=
  ∀ s : State, s.Inv → safeOutcome (step s) = true

/-- The engine writes nothing outside the destination window (R33), in any state. -/
def Obligations.EngineWritesOnlyDestination : Prop :=
  ∀ (s t : State) (a : Nat), engineStep s = .next t → s.inDestination a = false →
    t.mem.readByte a = s.mem.readByte a

/-- STATE moves as R23 says and in no other way: out of IDLE, DONE and ERR to BUSY or ERR by a START (a write of 1 to
CTRL.START, or the engine's step with a START pending), from BUSY to DONE or ERR by a step of the engine, never by a host
action, and to IDLE only by reset. -/
def Obligations.StateTransitions : Prop :=
  ∀ s t : State, step s = .next t → t.status ≠ s.status →
    (s.status ≠ .busy ∧ (t.status = .busy ∨ t.status = .err) ∧
      ((s.start = true ∧ (s.turns = [] ∨ ∃ rest, s.turns = .engine :: rest)) ∨
        ∃ v rest, s.turns = .regWrite 0x00 4 v :: rest ∧ v.getLsbD 0 = true)) ∨
    (s.status = .busy ∧ (t.status = .done ∨ t.status = .err) ∧ (s.turns = [] ∨ ∃ rest, s.turns = .engine :: rest)) ∨
    (t.status = .idle ∧ ∃ rest, s.turns = .reset :: rest)

/-! ### Whole jobs -/

/-- Every job ends (R163, R250): from a running streaming job with nothing else pending, DONE after exactly one step for
each block left and the finish step, or ERR no later. -/
def Obligations.JobEnds : Prop :=
  ∀ s : State, s.Inv → jobDirection s ≠ none → s.stage = .boundary → s.turns = [] →
    ∃ k t, k ≤ s.blocks - s.blk.toNat + 1 ∧ Sys2Proof.core.run k s = .next t ∧
      ((t.status = .done ∧ k = s.blocks - s.blk.toNat + 1) ∨ t.status = .err)

/-- On the default platform, an encode job whose windows hold its footprint ends DONE after B(N) + 2 steps and leaves `Enc(full, A)` in the
destination window, RESULT its length, and every other byte as before (R57, R170, R172, R176, R250). -/
def Obligations.EncodeJobLeavesStream : Prop :=
  ∀ (i : Instr) (full : Bool) (s : State), encodeVariant i = some full → decodeCmd s.cmd = .ok i →
    s.turns = [] → s.status ≠ .busy → s.start = true → s.mem.wf → s.n.toNat ≤ Config.nmax →
    s.windowOverflows = false → s.windowsAlias = false → s.plat = Platform.default →
    4 * s.n.toNat ≤ s.srcLen.toNat →
    let z := encStream full (s.mem.words s.src.toNat s.n.toNat)
    z.length ≤ s.dstLen.toNat →
    ∃ t, Sys2Proof.core.run (s.blocks + 2) s = .next t ∧ t.status = .done ∧ t.cause = .noFault ∧
      t.result.toNat = z.length ∧ t.blk.toNat = s.blocks ∧ t.mem.readBytes s.dst.toNat z.length = z ∧
      ∀ a, (a < s.dst.toNat ∨ s.dst.toNat + z.length ≤ a) → t.mem.readByte a = s.mem.readByte a

/-- On the default platform, a decode job whose windows hold its footprint ends DONE after B(N) + 2 steps and leaves `Dec(full, Z, N)` in the
destination window, RESULT the stream bytes consumed, and every other byte as before (R57, R171, R173, R176, R250). -/
def Obligations.DecodeJobLeavesValues : Prop :=
  ∀ (i : Instr) (full : Bool) (s : State), decodeVariant i = some full → decodeCmd s.cmd = .ok i →
    s.turns = [] → s.status ≠ .busy → s.start = true → s.mem.wf → s.n.toNat ≤ Config.nmax →
    s.windowOverflows = false → s.windowsAlias = false → s.plat = Platform.default →
    4 * s.n.toNat ≤ s.dstLen.toNat →
    let z := s.mem.readBytes s.src.toNat s.srcLen.toNat
    decConsumed z s.n.toNat ≤ s.srcLen.toNat →
    ∃ t, Sys2Proof.core.run (s.blocks + 2) s = .next t ∧ t.status = .done ∧ t.cause = .noFault ∧
      t.result.toNat = decConsumed z s.n.toNat ∧ t.blk.toNat = s.blocks ∧
      t.mem.words s.dst.toNat s.n.toNat = decStream full z s.n.toNat ∧
      ∀ a, (a < s.dst.toNat ∨ s.dst.toNat + 4 * s.n.toNat ≤ a) → t.mem.readByte a = s.mem.readByte a
end

