-- ==== Sys2Proof/Laws/Memory.lean ====
section
/-! SUPPORT. The laws of data memory: reading after writing, what a loss of a range does, and that every operation keeps
the canonical form. -/

namespace Sys2Proof.Machine

/-! ### The listed bytes -/

theorem cellAt_eq_none {l : List Host.Cell} {a : Nat} (h : ∀ c ∈ l, c.1 ≠ a) : cellAt l a = none := by
  induction l with
  | nil => rfl
  | cons c l ih =>
    obtain ⟨x, b⟩ := c
    have hx : x ≠ a := h (x, b) (by simp)
    simp only [cellAt, if_neg hx]
    exact ih fun c hc => h c (by simp [hc])

theorem mem_putCell {l : List Host.Cell} {a : Nat} {b : Byte} {c : Host.Cell} (h : c ∈ putCell l a b) :
    c ∈ l ∨ (c = (a, b) ∧ b ≠ 0) := by
  induction l with
  | nil =>
    simp only [putCell] at h
    split at h <;> simp_all
  | cons x l ih =>
    obtain ⟨y, d⟩ := x
    simp only [putCell] at h
    split at h
    · split at h <;> simp_all
      tauto
    · split at h
      · split at h <;> simp_all
        tauto
      · simp only [List.mem_cons] at h ⊢
        rcases h with h | h
        · exact .inl (.inl h)
        · rcases ih h with h | h
          · exact .inl (.inr h)
          · exact .inr h

theorem pairwise_putCell {l : List Host.Cell} {a : Nat} {b : Byte}
    (h : l.Pairwise fun x y => x.1 < y.1) : (putCell l a b).Pairwise fun x y => x.1 < y.1 := by
  induction l with
  | nil =>
    simp only [putCell]
    split <;> simp
  | cons x l ih =>
    obtain ⟨y, d⟩ := x
    obtain ⟨hy, hl⟩ := List.pairwise_cons.1 h
    simp only [putCell]
    split
    · rename_i hay
      split
      · exact h
      · refine List.pairwise_cons.2 ⟨fun z hz => ?_, h⟩
        rcases List.mem_cons.1 hz with rfl | hz
        · exact hay
        · exact Nat.lt_trans hay (hy z hz)
    · split
      · rename_i hay
        subst hay
        split
        · exact hl
        · exact List.pairwise_cons.2 ⟨hy, hl⟩
      · refine List.pairwise_cons.2 ⟨fun z hz => ?_, ih hl⟩
        rcases mem_putCell hz with hz | ⟨rfl, -⟩
        · exact hy z hz
        · simp only; omega

theorem cellAt_putCell_other {l : List Host.Cell} {a a' : Nat} {b : Byte} (h : a' ≠ a) :
    cellAt (putCell l a b) a' = cellAt l a' := by
  induction l with
  | nil =>
    simp only [putCell]
    split <;> simp [cellAt, Ne.symm h]
  | cons x l ih =>
    obtain ⟨y, d⟩ := x
    simp only [putCell]
    split
    · split <;> simp [cellAt, Ne.symm h]
    · split
      · rename_i hay
        subst hay
        split <;> simp [cellAt, Ne.symm h]
      · simp [cellAt, ih]

theorem cellAt_putCell_same {l : List Host.Cell} {a : Nat} {b : Byte} (h : l.Pairwise fun x y => x.1 < y.1) :
    cellAt (putCell l a b) a = if b = 0 then none else some b := by
  induction l with
  | nil =>
    simp only [putCell]
    split <;> simp [cellAt]
  | cons x l ih =>
    obtain ⟨y, d⟩ := x
    obtain ⟨hy, hl⟩ := List.pairwise_cons.1 h
    simp only [putCell]
    split
    · rename_i hay
      split
      · refine cellAt_eq_none fun c hc => ?_
        rcases List.mem_cons.1 hc with rfl | hc
        · exact Nat.ne_of_gt hay
        · exact Nat.ne_of_gt (Nat.lt_trans hay (hy c hc))
      · simp [cellAt]
    · split
      · rename_i hay
        subst hay
        split
        · exact cellAt_eq_none fun c hc => Nat.ne_of_gt (hy c hc)
        · simp [cellAt]
      · rename_i hay
        simp [cellAt, Ne.symm hay, ih hl]

/-! ### The unspecified spans -/

theorem Span.has_iff {sp : Span} {a : Nat} : sp.has a = true ↔ sp.lo ≤ a ∧ a < sp.hi := by
  simp [Span.has]

/-- What is left of a span: its piece below and its piece above, where they are not empty. -/
theorem Span.mem_cut {lo hi : Nat} {sp x : Span} (h : x ∈ sp.cut lo hi) :
    x.tag = sp.tag ∧ x.lo < x.hi ∧ sp.lo ≤ x.lo ∧ x.hi ≤ sp.hi ∧ (x.hi ≤ lo ∨ hi ≤ x.lo) := by
  simp only [Span.cut, List.mem_append] at h
  rcases h with h | h <;> split at h <;> simp at h <;> subst h <;> simp <;> omega

theorem Span.cut_has {lo hi : Nat} {sp : Span} {a : Nat} (ha : a < lo ∨ hi ≤ a) (h : sp.has a = true) :
    ∃ x ∈ sp.cut lo hi, x.has a = true := by
  rw [Span.has_iff] at h
  rcases ha with ha | ha
  · refine ⟨⟨sp.lo, min sp.hi lo, sp.tag⟩, ?_, ?_⟩
    · simp only [Span.cut, List.mem_append]
      left
      rw [if_pos (by omega)]
      simp
    · simp [Span.has_iff]; omega
  · refine ⟨⟨max sp.lo hi, sp.hi, sp.tag⟩, ?_, ?_⟩
    · simp only [Span.cut, List.mem_append]
      right
      rw [if_pos (by omega)]
      simp
    · simp [Span.has_iff]; omega

theorem spanAt_append (l₁ l₂ : List Span) (a : Nat) :
    spanAt (l₁ ++ l₂) a = (match spanAt l₁ a with | some x => some x | none => spanAt l₂ a) := by
  induction l₁ with
  | nil => rfl
  | cons x l ih =>
    simp only [List.cons_append, spanAt]
    split
    · rfl
    · exact ih

theorem spanAt_eq_none {l : List Span} {a : Nat} (h : ∀ x ∈ l, x.has a = false) : spanAt l a = none := by
  induction l with
  | nil => rfl
  | cons x l ih =>
    simp only [spanAt, h x (by simp), Bool.false_eq_true, if_false]
    exact ih fun y hy => h y (by simp [hy])

theorem spanAt_some_mem {l : List Span} {a : Nat} {x : Span} (h : spanAt l a = some x) : x ∈ l ∧ x.has a = true := by
  induction l with
  | nil => simp [spanAt] at h
  | cons y l ih =>
    simp only [spanAt] at h
    split at h
    · cases h
      simp_all
    · obtain ⟨h₁, h₂⟩ := ih h
      exact ⟨by simp [h₁], h₂⟩

theorem spanAt_exists {l : List Span} {a : Nat} (h : ∃ x ∈ l, x.has a = true) : ∃ x, spanAt l a = some x := by
  cases hs : spanAt l a with
  | some x => exact ⟨x, rfl⟩
  | none =>
    exfalso
    obtain ⟨x, hx, hxa⟩ := h
    induction l with
    | nil => simp at hx
    | cons y l ih =>
      simp only [spanAt] at hs
      split at hs
      · cases hs
      · rcases List.mem_cons.1 hx with rfl | hx
        · simp_all
        · exact ih hs hx

/-- Cutting leaves the occasion of every address outside the range. -/
theorem spanAt_cut_outside {l : List Span} {lo hi a : Nat} (ha : a < lo ∨ hi ≤ a) :
    (spanAt (l.flatMap (Span.cut lo hi)) a).map Span.tag = (spanAt l a).map Span.tag := by
  induction l with
  | nil => rfl
  | cons sp l ih =>
    rw [List.flatMap_cons, spanAt_append]
    by_cases h : sp.has a = true
    · obtain ⟨x, hx⟩ := spanAt_exists (Span.cut_has ha h)
      simp only [hx, spanAt, h, if_true, Option.map_some]
      rw [(Span.mem_cut (spanAt_some_mem hx).1).1]
    · have hn : spanAt (sp.cut lo hi) a = none := by
        refine spanAt_eq_none fun x hx => ?_
        obtain ⟨-, -, h₁, h₂, -⟩ := Span.mem_cut hx
        rw [Span.has_iff] at h
        rw [← Bool.not_eq_true, Span.has_iff]
        omega
      simp only [hn, spanAt, h]
      exact ih

/-- Cutting leaves no span on an address of the range. -/
theorem spanAt_cut_inside {l : List Span} {lo hi a : Nat} (h₁ : lo ≤ a) (h₂ : a < hi) :
    spanAt (l.flatMap (Span.cut lo hi)) a = none := by
  refine spanAt_eq_none fun x hx => ?_
  obtain ⟨sp, -, hx⟩ := List.mem_flatMap.1 hx
  obtain ⟨-, -, -, -, h⟩ := Span.mem_cut hx
  rw [← Bool.not_eq_true, Span.has_iff]
  omega

theorem mem_insertSpan {l : List Span} {sp x : Span} : x ∈ insertSpan l sp ↔ x = sp ∨ x ∈ l := by
  induction l with
  | nil => simp [insertSpan]
  | cons y l ih =>
    simp only [insertSpan]
    split
    · simp
    · simp [ih]
      tauto

theorem spanAt_insertSpan_outside {l : List Span} {sp : Span} {a : Nat} (h : sp.has a = false) :
    spanAt (insertSpan l sp) a = spanAt l a := by
  induction l with
  | nil => simp [insertSpan, spanAt, h]
  | cons y l ih =>
    simp only [insertSpan]
    split
    · simp [spanAt, h]
    · simp [spanAt, ih]

theorem spanAt_insertSpan_inside {l : List Span} {sp : Span} {a : Nat} (h : sp.has a = true)
    (hl : ∀ x ∈ l, x.has a = false) : spanAt (insertSpan l sp) a = some sp := by
  induction l with
  | nil => simp [insertSpan, spanAt, h]
  | cons y l ih =>
    simp only [insertSpan]
    split
    · simp [spanAt, h]
    · simp only [spanAt, hl y (by simp), Bool.false_eq_true, if_false]
      exact ih fun x hx => hl x (by simp [hx])

/-- The order the spans stand in. -/
abbrev spansApart (x y : Span) : Prop := x.hi ≤ y.lo ∧ (x.hi = y.lo → x.tag ≠ y.tag)

/-- Cutting keeps the spans apart, when the range is not empty. -/
theorem pairwise_cut {l : List Span} {lo hi : Nat} (hr : lo < hi) (h : l.Pairwise spansApart) :
    (l.flatMap (Span.cut lo hi)).Pairwise spansApart := by
  induction l with
  | nil => simp
  | cons sp l ih =>
    obtain ⟨hsp, hl⟩ := List.pairwise_cons.1 h
    rw [List.flatMap_cons, List.pairwise_append]
    refine ⟨?_, ih hl, fun x hx y hy => ?_⟩
    · simp only [Span.cut]
      split <;> split <;> simp [spansApart]
      omega
    · obtain ⟨z, hz, hy⟩ := List.mem_flatMap.1 hy
      have hz' := hsp z hz
      obtain ⟨tx, _, _, hx₁, _⟩ := Span.mem_cut hx
      obtain ⟨ty, _, hy₁, _, _⟩ := Span.mem_cut hy
      refine ⟨by omega, fun he => ?_⟩
      rw [tx, ty]
      exact hz'.2 (by omega)

/-- Inserting a new span of a new occasion, where no span lies, keeps them apart. -/
theorem pairwise_insertSpan {l : List Span} {sp : Span} (hne : sp.lo < sp.hi) (h : l.Pairwise spansApart)
    (hw : ∀ x ∈ l, x.lo < x.hi) (ho : ∀ x ∈ l, x.hi ≤ sp.lo ∨ sp.hi ≤ x.lo) (ht : ∀ x ∈ l, x.tag ≠ sp.tag) :
    (insertSpan l sp).Pairwise spansApart := by
  induction l with
  | nil => simp [insertSpan]
  | cons y l ih =>
    obtain ⟨hy, hl⟩ := List.pairwise_cons.1 h
    have hwy := hw y (by simp)
    have hoy := ho y (by simp)
    simp only [insertSpan]
    split
    · refine List.pairwise_cons.2 ⟨fun x hx => ?_, h⟩
      refine ⟨?_, fun _ => Ne.symm (ht x hx)⟩
      rcases List.mem_cons.1 hx with rfl | hx
      · omega
      · have := (hy x hx).1
        omega
    · refine List.pairwise_cons.2 ⟨fun x hx => ?_, ih hl (fun x hx => hw x (by simp [hx]))
        (fun x hx => ho x (by simp [hx])) (fun x hx => ht x (by simp [hx]))⟩
      rcases mem_insertSpan.1 hx with rfl | hx
      · exact ⟨by omega, fun _ => ht y (by simp)⟩
      · exact hy x hx

/-! ### Reading after writing -/

theorem Memory.unlisted_congr {m m' : Memory} {a : Nat}
    (h : (spanAt m.spans a).map Span.tag = (spanAt m'.spans a).map Span.tag) : m.unlisted a = m'.unlisted a := by
  simp only [Memory.unlisted]
  cases h₁ : spanAt m.spans a <;> cases h₂ : spanAt m'.spans a <;> simp_all

/-- A write leaves every other address alone (R56). -/
theorem Memory.readByte_writeByte_other {m : Memory} {a a' : Nat} {b : Byte} (h : a' ≠ a) :
    (m.writeByte a b).readByte a' = m.readByte a' := by
  have hu : (m.writeByte a b).unlisted a' = m.unlisted a' :=
    Memory.unlisted_congr (spanAt_cut_outside (by omega))
  simp only [Memory.readByte, hu]
  rw [show (m.writeByte a b).cells = putCell m.cells a b from rfl, cellAt_putCell_other h]

/-- A read after a write to the same address gives the byte written (R50). -/
theorem Memory.readByte_writeByte_same {m : Memory} (hm : m.wf) (a : Nat) (b : Byte) :
    (m.writeByte a b).readByte a = b := by
  have hu : (m.writeByte a b).unlisted a = 0 := by
    simp only [Memory.unlisted, Memory.writeByte]
    rw [spanAt_cut_inside (Nat.le_refl a) (Nat.lt_succ_self a)]
  simp only [Memory.readByte, hu]
  rw [show (m.writeByte a b).cells = putCell m.cells a b from rfl, cellAt_putCell_same hm.1]
  by_cases hb : b = 0
  · subst hb
    rfl
  · rw [if_neg hb]

theorem cellAt_filter_outside {l : List Host.Cell} {lo hi a : Nat} (ha : a < lo ∨ hi ≤ a) :
    cellAt (l.filter fun c => !(lo ≤ c.1 && c.1 < hi)) a = cellAt l a := by
  induction l with
  | nil => rfl
  | cons c l ih =>
    obtain ⟨x, b⟩ := c
    by_cases hx : lo ≤ x ∧ x < hi
    · have hxa : x ≠ a := by omega
      rw [List.filter_cons_of_neg (by simp [hx]), ih]
      simp [cellAt, hxa]
    · rw [List.filter_cons_of_pos (by simp; omega)]
      simp only [cellAt, ih]

/-- Losing a range leaves every address outside it alone (R206). -/
theorem Memory.readByte_lose_outside {m : Memory} {lo hi tag a : Nat} (ha : a < lo ∨ hi ≤ a) :
    (m.lose lo hi tag).readByte a = m.readByte a := by
  by_cases h : lo < hi
  · have hu : (m.lose lo hi tag).unlisted a = m.unlisted a := by
      refine Memory.unlisted_congr ?_
      simp only [Memory.lose, if_pos h]
      rw [spanAt_insertSpan_outside (by rw [← Bool.not_eq_true, Span.has_iff]; simp only; omega)]
      exact spanAt_cut_outside ha
    simp only [Memory.readByte, hu]
    simp only [Memory.lose, if_pos h]
    rw [cellAt_filter_outside ha]
  · simp [Memory.lose, h]

/-- Every byte of a lost range is a free value of that occasion (R206). -/
theorem Memory.readByte_lose_inside {m : Memory} {lo hi tag a : Nat} (h₁ : lo ≤ a) (h₂ : a < hi) :
    (m.lose lo hi tag).readByte a = Config.freeByte tag a := by
  have h : lo < hi := by omega
  have hc : cellAt (m.lose lo hi tag).cells a = none := by
    refine cellAt_eq_none fun c hc => ?_
    simp only [Memory.lose, if_pos h, List.mem_filter] at hc
    rintro rfl
    simp_all
  have hs : spanAt (m.lose lo hi tag).spans a = some ⟨lo, hi, tag⟩ := by
    simp only [Memory.lose, if_pos h]
    refine spanAt_insertSpan_inside (by rw [Span.has_iff]; exact ⟨h₁, h₂⟩) fun x hx => ?_
    obtain ⟨sp, -, hx⟩ := List.mem_flatMap.1 hx
    obtain ⟨-, -, -, -, h⟩ := Span.mem_cut hx
    rw [← Bool.not_eq_true, Span.has_iff]
    omega
  simp only [Memory.readByte, hc, Memory.unlisted, hs]

/-! ### The canonical form -/

/-- A write to an address of the address space keeps the canonical form. -/
theorem Memory.wf_writeByte {m : Memory} (hm : m.wf) {a : Nat} (ha : a < Config.addressSpace) (b : Byte) :
    (m.writeByte a b).wf := by
  obtain ⟨h₁, h₂, h₃, h₄⟩ := hm
  refine ⟨pairwise_putCell h₁, pairwise_cut (Nat.lt_succ_self a) h₂, fun c hc => ?_, fun sp hsp => ?_⟩
  · have hout : ∀ sp ∈ m.spans.flatMap (Span.cut a (a + 1)), sp.has c.1 = false := by
      intro sp hsp
      obtain ⟨x, hx, hsp⟩ := List.mem_flatMap.1 hsp
      obtain ⟨-, -, hl, hh, hd⟩ := Span.mem_cut hsp
      rw [← Bool.not_eq_true, Span.has_iff]
      rcases mem_putCell hc with hc | ⟨rfl, -⟩
      · have := (h₃ c hc).2.2 x hx
        rw [← Bool.not_eq_true, Span.has_iff] at this
        omega
      · simp only
        omega
    rcases mem_putCell hc with hc | ⟨rfl, hb⟩
    · exact ⟨(h₃ c hc).1, (h₃ c hc).2.1, hout⟩
    · exact ⟨ha, hb, hout⟩
  · obtain ⟨x, hx, hsp⟩ := List.mem_flatMap.1 hsp
    obtain ⟨-, hne, -, hh, -⟩ := Span.mem_cut hsp
    exact ⟨hne, Nat.le_trans hh (h₄ x hx).2⟩

/-- A write keeps every occasion past. -/
theorem Memory.tagsBelow_writeByte {m : Memory} {ctr : Nat} (h : m.tagsBelow ctr) (a : Nat) (b : Byte) :
    (m.writeByte a b).tagsBelow ctr := by
  intro sp hsp
  obtain ⟨x, hx, hsp⟩ := List.mem_flatMap.1 hsp
  rw [(Span.mem_cut hsp).1]
  exact h x hx

/-- Losing a range of the address space on a new occasion keeps the canonical form. -/
theorem Memory.wf_lose {m : Memory} (hm : m.wf) {lo hi tag : Nat} (ht : m.tagsBelow tag)
    (hhi : hi ≤ Config.addressSpace) : (m.lose lo hi tag).wf := by
  by_cases h : lo < hi
  swap
  · simpa [Memory.lose, h] using hm
  obtain ⟨h₁, h₂, h₃, h₄⟩ := hm
  have hcut : ∀ x ∈ m.spans.flatMap (Span.cut lo hi),
      x.lo < x.hi ∧ x.hi ≤ Config.addressSpace ∧ (x.hi ≤ lo ∨ hi ≤ x.lo) ∧ x.tag < tag := by
    intro x hx
    obtain ⟨sp, hsp, hx⟩ := List.mem_flatMap.1 hx
    obtain ⟨htag, hne, -, hh, hd⟩ := Span.mem_cut hx
    exact ⟨hne, Nat.le_trans hh (h₄ sp hsp).2, hd, htag ▸ ht sp hsp⟩
  simp only [Memory.lose, if_pos h]
  refine ⟨h₁.filter _, ?_, fun c hc => ?_, fun sp hsp => ?_⟩
  · exact pairwise_insertSpan h (pairwise_cut h h₂) (fun x hx => (hcut x hx).1) (fun x hx => (hcut x hx).2.2.1)
      fun x hx => Nat.ne_of_lt (hcut x hx).2.2.2
  · obtain ⟨hc, hout⟩ := List.mem_filter.1 hc
    refine ⟨(h₃ c hc).1, (h₃ c hc).2.1, fun sp hsp => ?_⟩
    rw [← Bool.not_eq_true, Span.has_iff]
    rcases mem_insertSpan.1 hsp with rfl | hsp
    · simp at hout
      simp only
      omega
    · obtain ⟨x, hx, hsp⟩ := List.mem_flatMap.1 hsp
      obtain ⟨-, -, hl, hh, -⟩ := Span.mem_cut hsp
      have := (h₃ c hc).2.2 x hx
      rw [← Bool.not_eq_true, Span.has_iff] at this
      omega
  · rcases mem_insertSpan.1 hsp with rfl | hsp
    · exact ⟨h, hhi⟩
    · exact ⟨(hcut sp hsp).1, (hcut sp hsp).2.1⟩

/-- Losing a range takes one occasion. -/
theorem Memory.tagsBelow_lose {m : Memory} {lo hi tag : Nat} (ht : m.tagsBelow tag) :
    (m.lose lo hi tag).tagsBelow (tag + 1) := by
  intro sp hsp
  by_cases h : lo < hi
  · simp only [Memory.lose, if_pos h] at hsp
    rcases mem_insertSpan.1 hsp with rfl | hsp
    · exact Nat.lt_succ_self tag
    · obtain ⟨x, hx, hsp⟩ := List.mem_flatMap.1 hsp
      rw [(Span.mem_cut hsp).1]
      exact Nat.lt_succ_of_lt (ht x hx)
  · simp only [Memory.lose, h, if_false] at hsp
    exact Nat.lt_succ_of_lt (ht sp hsp)

/-! ### Several bytes -/

/-- Writing bytes leaves every address outside them alone. -/
theorem Memory.readByte_writeBytes_outside {bs : List Byte} {m : Memory} {a a' : Nat}
    (h : a' < a ∨ a + bs.length ≤ a') : (m.writeBytes a bs).readByte a' = m.readByte a' := by
  induction bs generalizing m a with
  | nil => rfl
  | cons b bs ih =>
    simp only [List.length_cons] at h
    rw [Memory.writeBytes, ih (by omega), Memory.readByte_writeByte_other (by omega)]

/-- Writing bytes within the address space keeps the canonical form. -/
theorem Memory.wf_writeBytes {bs : List Byte} {m : Memory} (hm : m.wf) {a : Nat}
    (ha : a + bs.length ≤ Config.addressSpace) : (m.writeBytes a bs).wf := by
  induction bs generalizing m a with
  | nil => exact hm
  | cons b bs ih =>
    simp only [List.length_cons] at ha
    exact ih (Memory.wf_writeByte hm (by omega) b) (by omega)

theorem Memory.tagsBelow_writeBytes {bs : List Byte} {m : Memory} {ctr : Nat} (h : m.tagsBelow ctr) (a : Nat) :
    (m.writeBytes a bs).tagsBelow ctr := by
  induction bs generalizing m a with
  | nil => exact h
  | cons b bs ih => exact ih (Memory.tagsBelow_writeByte h a b) (a + 1)

/-- Bytes read where they were written are the bytes written. -/
theorem Memory.readBytes_writeBytes {bs : List Byte} {m : Memory} (hm : m.wf) {a : Nat}
    (ha : a + bs.length ≤ Config.addressSpace) : (m.writeBytes a bs).readBytes a bs.length = bs := by
  induction bs generalizing m a with
  | nil => rfl
  | cons b bs ih =>
    simp only [List.length_cons] at ha
    have hw := Memory.wf_writeByte hm (a := a) (by omega) b
    rw [List.length_cons, Memory.readBytes, Memory.writeBytes, ih hw (by omega),
      Memory.readByte_writeBytes_outside (by omega), Memory.readByte_writeByte_same hm]

/-- Two memories that agree on the bytes of a range read alike there. -/
theorem Memory.readBytes_congr {m m' : Memory} {a n : Nat}
    (h : ∀ x, a ≤ x → x < a + n → m.readByte x = m'.readByte x) : m.readBytes a n = m'.readBytes a n := by
  induction n generalizing a with
  | zero => rfl
  | succ n ih =>
    rw [Memory.readBytes, Memory.readBytes, h a (by omega) (by omega), ih fun x h₁ h₂ => h x (by omega) (by omega)]

@[simp] theorem Memory.length_readBytes (m : Memory) (a n : Nat) : (m.readBytes a n).length = n := by
  induction n generalizing a with
  | zero => rfl
  | succ n ih => simp [Memory.readBytes, ih]

@[simp] theorem length_leBytes (n : Nat) (x : Word) : (leBytes n x).length = n := by
  induction n generalizing x with
  | zero => rfl
  | succ n ih => simp [leBytes, ih]

/-- Writing bytes in two parts is writing them in one. -/
theorem Memory.writeBytes_append {bs cs : List Byte} {m : Memory} {a : Nat} :
    (m.writeBytes a bs).writeBytes (a + bs.length) cs = m.writeBytes a (bs ++ cs) := by
  induction bs generalizing m a with
  | nil => rfl
  | cons b bs ih =>
    simp only [List.cons_append, Memory.writeBytes, List.length_cons]
    rw [← ih, show a + (bs.length + 1) = a + 1 + bs.length by omega]

/-- Reading bytes in two parts is reading them in one. -/
theorem Memory.readBytes_append (m : Memory) (a k n : Nat) :
    m.readBytes a k ++ m.readBytes (a + k) n = m.readBytes a (k + n) := by
  induction k generalizing a with
  | zero => simp [Memory.readBytes]
  | succ k ih =>
    rw [show k + 1 + n = (k + n) + 1 by omega]
    simp only [Memory.readBytes, List.cons_append]
    rw [← ih, show a + (k + 1) = a + 1 + k by omega]

/-- `MemWrite` (R8) leaves every address outside its bytes alone. -/
theorem Memory.readByte_write_outside {m : Memory} {a n a' : Nat} {v : Word} (h : a' < a ∨ a + n ≤ a') :
    (m.write a n v).readByte a' = m.readByte a' :=
  Memory.readByte_writeBytes_outside (by simpa using h)

/-- `MemWrite` (R8) within the address space keeps the canonical form. -/
theorem Memory.wf_write {m : Memory} (hm : m.wf) {a n : Nat} (ha : a + n ≤ Config.addressSpace) (v : Word) :
    (m.write a n v).wf :=
  Memory.wf_writeBytes hm (by simpa using ha)

theorem Memory.tagsBelow_write {m : Memory} {ctr : Nat} (h : m.tagsBelow ctr) (a n : Nat) (v : Word) :
    (m.write a n v).tagsBelow ctr :=
  Memory.tagsBelow_writeBytes h a

/-- Memory as the platform leaves it is in canonical form. -/
theorem Memory.wf_untouched : Memory.untouched.wf := by
  decide

end Sys2Proof.Machine
end

