-- ==== Sys2Proof/Laws/State.lean ====
section
/-! SUPPORT. One lemma per field per named update of the state, so that no later proof unfolds a record update. -/

namespace Sys2Proof.Machine

/-! ### `takeFault`: fault entry (R206) -/

@[simp] theorem takeFault_start (c : Cause) (w : Word) (s : State) : (takeFault c w s).start = s.start := rfl
@[simp] theorem takeFault_status (c : Cause) (w : Word) (s : State) : (takeFault c w s).status = .err := rfl
@[simp] theorem takeFault_cause (c : Cause) (w : Word) (s : State) : (takeFault c w s).cause = c := rfl
@[simp] theorem takeFault_cmd (c : Cause) (w : Word) (s : State) : (takeFault c w s).cmd = s.cmd := rfl
@[simp] theorem takeFault_n (c : Cause) (w : Word) (s : State) : (takeFault c w s).n = s.n := rfl
@[simp] theorem takeFault_src (c : Cause) (w : Word) (s : State) : (takeFault c w s).src = s.src := rfl
@[simp] theorem takeFault_srcLen (c : Cause) (w : Word) (s : State) : (takeFault c w s).srcLen = s.srcLen := rfl
@[simp] theorem takeFault_dst (c : Cause) (w : Word) (s : State) : (takeFault c w s).dst = s.dst := rfl
@[simp] theorem takeFault_dstLen (c : Cause) (w : Word) (s : State) : (takeFault c w s).dstLen = s.dstLen := rfl
@[simp] theorem takeFault_result (c : Cause) (w : Word) (s : State) : (takeFault c w s).result = s.result := rfl
@[simp] theorem takeFault_faddr (c : Cause) (w : Word) (s : State) : (takeFault c w s).faddr = w := rfl
@[simp] theorem takeFault_blk (c : Cause) (w : Word) (s : State) : (takeFault c w s).blk = s.blk := rfl
@[simp] theorem takeFault_pcur (c : Cause) (w : Word) (s : State) : (takeFault c w s).pcur = s.pcur := rfl
@[simp] theorem takeFault_pred (c : Cause) (w : Word) (s : State) : (takeFault c w s).pred = s.pred := rfl
@[simp] theorem takeFault_stage (c : Cause) (w : Word) (s : State) : (takeFault c w s).stage = .boundary := rfl
@[simp] theorem takeFault_hdr (c : Cause) (w : Word) (s : State) : (takeFault c w s).hdr = s.hdr := rfl
@[simp] theorem takeFault_resid (c : Cause) (w : Word) (s : State) : (takeFault c w s).resid = s.resid := rfl
@[simp] theorem takeFault_mem (c : Cause) (w : Word) (s : State) : (takeFault c w s).mem = s.mem := rfl
@[simp] theorem takeFault_plat (c : Cause) (w : Word) (s : State) : (takeFault c w s).plat = s.plat := rfl
@[simp] theorem takeFault_turns (c : Cause) (w : Word) (s : State) : (takeFault c w s).turns = s.turns := rfl
@[simp] theorem takeFault_hostData (c : Cause) (w : Word) (s : State) : (takeFault c w s).hostData = s.hostData := rfl
@[simp] theorem takeFault_blkSeen (c : Cause) (w : Word) (s : State) : (takeFault c w s).blkSeen = s.blkSeen := rfl
@[simp] theorem takeFault_unread (c : Cause) (w : Word) (s : State) : (takeFault c w s).unread = s.unread := rfl
@[simp] theorem takeFault_freeCtr (c : Cause) (w : Word) (s : State) : (takeFault c w s).freeCtr = s.freeCtr := rfl

/-! ### `loseDestination`: the lost destination window (R206, R231) -/

@[simp] theorem loseDestination_start (s : State) : (loseDestination s).start = s.start := rfl
@[simp] theorem loseDestination_status (s : State) : (loseDestination s).status = s.status := rfl
@[simp] theorem loseDestination_cause (s : State) : (loseDestination s).cause = s.cause := rfl
@[simp] theorem loseDestination_cmd (s : State) : (loseDestination s).cmd = s.cmd := rfl
@[simp] theorem loseDestination_n (s : State) : (loseDestination s).n = s.n := rfl
@[simp] theorem loseDestination_src (s : State) : (loseDestination s).src = s.src := rfl
@[simp] theorem loseDestination_srcLen (s : State) : (loseDestination s).srcLen = s.srcLen := rfl
@[simp] theorem loseDestination_dst (s : State) : (loseDestination s).dst = s.dst := rfl
@[simp] theorem loseDestination_dstLen (s : State) : (loseDestination s).dstLen = s.dstLen := rfl
@[simp] theorem loseDestination_result (s : State) : (loseDestination s).result = s.result := rfl
@[simp] theorem loseDestination_faddr (s : State) : (loseDestination s).faddr = s.faddr := rfl
@[simp] theorem loseDestination_blk (s : State) : (loseDestination s).blk = s.blk := rfl
@[simp] theorem loseDestination_pcur (s : State) : (loseDestination s).pcur = s.pcur := rfl
@[simp] theorem loseDestination_pred (s : State) : (loseDestination s).pred = s.pred := rfl
@[simp] theorem loseDestination_stage (s : State) : (loseDestination s).stage = s.stage := rfl
@[simp] theorem loseDestination_hdr (s : State) : (loseDestination s).hdr = s.hdr := rfl
@[simp] theorem loseDestination_resid (s : State) : (loseDestination s).resid = s.resid := rfl
@[simp] theorem loseDestination_mem (s : State) : (loseDestination s).mem = s.mem.lose s.dst.toNat (s.dst.toNat + s.dstLen.toNat) s.freeCtr := rfl
@[simp] theorem loseDestination_plat (s : State) : (loseDestination s).plat = s.plat := rfl
@[simp] theorem loseDestination_turns (s : State) : (loseDestination s).turns = s.turns := rfl
@[simp] theorem loseDestination_hostData (s : State) : (loseDestination s).hostData = s.hostData := rfl
@[simp] theorem loseDestination_blkSeen (s : State) : (loseDestination s).blkSeen = s.blkSeen := rfl
@[simp] theorem loseDestination_unread (s : State) : (loseDestination s).unread = s.unread := rfl
@[simp] theorem loseDestination_freeCtr (s : State) : (loseDestination s).freeCtr = s.freeCtr + 1 := rfl

/-! ### `raiseInBlock`: a fault in a block step (R206) -/

@[simp] theorem raiseInBlock_start (c : Cause) (a : Nat) (s : State) : (raiseInBlock c a s).start = s.start := rfl
@[simp] theorem raiseInBlock_status (c : Cause) (a : Nat) (s : State) : (raiseInBlock c a s).status = .err := rfl
@[simp] theorem raiseInBlock_cause (c : Cause) (a : Nat) (s : State) : (raiseInBlock c a s).cause = c := rfl
@[simp] theorem raiseInBlock_cmd (c : Cause) (a : Nat) (s : State) : (raiseInBlock c a s).cmd = s.cmd := rfl
@[simp] theorem raiseInBlock_n (c : Cause) (a : Nat) (s : State) : (raiseInBlock c a s).n = s.n := rfl
@[simp] theorem raiseInBlock_src (c : Cause) (a : Nat) (s : State) : (raiseInBlock c a s).src = s.src := rfl
@[simp] theorem raiseInBlock_srcLen (c : Cause) (a : Nat) (s : State) : (raiseInBlock c a s).srcLen = s.srcLen := rfl
@[simp] theorem raiseInBlock_dst (c : Cause) (a : Nat) (s : State) : (raiseInBlock c a s).dst = s.dst := rfl
@[simp] theorem raiseInBlock_dstLen (c : Cause) (a : Nat) (s : State) : (raiseInBlock c a s).dstLen = s.dstLen := rfl
@[simp] theorem raiseInBlock_result (c : Cause) (a : Nat) (s : State) : (raiseInBlock c a s).result = s.result := rfl
@[simp] theorem raiseInBlock_faddr (c : Cause) (a : Nat) (s : State) : (raiseInBlock c a s).faddr = faddrOf s.freeCtr a := rfl
@[simp] theorem raiseInBlock_blk (c : Cause) (a : Nat) (s : State) : (raiseInBlock c a s).blk = s.blk := rfl
@[simp] theorem raiseInBlock_pcur (c : Cause) (a : Nat) (s : State) : (raiseInBlock c a s).pcur = s.pcur := rfl
@[simp] theorem raiseInBlock_pred (c : Cause) (a : Nat) (s : State) : (raiseInBlock c a s).pred = s.pred := rfl
@[simp] theorem raiseInBlock_stage (c : Cause) (a : Nat) (s : State) : (raiseInBlock c a s).stage = .boundary := rfl
@[simp] theorem raiseInBlock_hdr (c : Cause) (a : Nat) (s : State) : (raiseInBlock c a s).hdr = s.hdr := rfl
@[simp] theorem raiseInBlock_resid (c : Cause) (a : Nat) (s : State) : (raiseInBlock c a s).resid = s.resid := rfl
@[simp] theorem raiseInBlock_mem (c : Cause) (a : Nat) (s : State) : (raiseInBlock c a s).mem = s.mem.lose s.dst.toNat (s.dst.toNat + s.dstLen.toNat) s.freeCtr := rfl
@[simp] theorem raiseInBlock_plat (c : Cause) (a : Nat) (s : State) : (raiseInBlock c a s).plat = s.plat := rfl
@[simp] theorem raiseInBlock_turns (c : Cause) (a : Nat) (s : State) : (raiseInBlock c a s).turns = s.turns := rfl
@[simp] theorem raiseInBlock_hostData (c : Cause) (a : Nat) (s : State) : (raiseInBlock c a s).hostData = s.hostData := rfl
@[simp] theorem raiseInBlock_blkSeen (c : Cause) (a : Nat) (s : State) : (raiseInBlock c a s).blkSeen = s.blkSeen := rfl
@[simp] theorem raiseInBlock_unread (c : Cause) (a : Nat) (s : State) : (raiseInBlock c a s).unread = s.unread := rfl
@[simp] theorem raiseInBlock_freeCtr (c : Cause) (a : Nat) (s : State) : (raiseInBlock c a s).freeCtr = s.freeCtr + 1 := rfl

/-! ### `closeBlock`: the end of a block step (R164, R165) -/

@[simp] theorem closeBlock_start (full : Bool) (v d : Lanes Word) (s : State) : (closeBlock full v d s).start = s.start := rfl
@[simp] theorem closeBlock_status (full : Bool) (v d : Lanes Word) (s : State) : (closeBlock full v d s).status = s.status := rfl
@[simp] theorem closeBlock_cause (full : Bool) (v d : Lanes Word) (s : State) : (closeBlock full v d s).cause = s.cause := rfl
@[simp] theorem closeBlock_cmd (full : Bool) (v d : Lanes Word) (s : State) : (closeBlock full v d s).cmd = s.cmd := rfl
@[simp] theorem closeBlock_n (full : Bool) (v d : Lanes Word) (s : State) : (closeBlock full v d s).n = s.n := rfl
@[simp] theorem closeBlock_src (full : Bool) (v d : Lanes Word) (s : State) : (closeBlock full v d s).src = s.src := rfl
@[simp] theorem closeBlock_srcLen (full : Bool) (v d : Lanes Word) (s : State) : (closeBlock full v d s).srcLen = s.srcLen := rfl
@[simp] theorem closeBlock_dst (full : Bool) (v d : Lanes Word) (s : State) : (closeBlock full v d s).dst = s.dst := rfl
@[simp] theorem closeBlock_dstLen (full : Bool) (v d : Lanes Word) (s : State) : (closeBlock full v d s).dstLen = s.dstLen := rfl
@[simp] theorem closeBlock_result (full : Bool) (v d : Lanes Word) (s : State) : (closeBlock full v d s).result = s.result := rfl
@[simp] theorem closeBlock_faddr (full : Bool) (v d : Lanes Word) (s : State) : (closeBlock full v d s).faddr = s.faddr := rfl
@[simp] theorem closeBlock_blk (full : Bool) (v d : Lanes Word) (s : State) : (closeBlock full v d s).blk = s.blk + 1 := rfl
@[simp] theorem closeBlock_pcur (full : Bool) (v d : Lanes Word) (s : State) : (closeBlock full v d s).pcur = s.pcur := rfl
@[simp] theorem closeBlock_pred (full : Bool) (v d : Lanes Word) (s : State) : (closeBlock full v d s).pred = s.pred.advance full v d := rfl
@[simp] theorem closeBlock_stage (full : Bool) (v d : Lanes Word) (s : State) : (closeBlock full v d s).stage = .boundary := rfl
@[simp] theorem closeBlock_hdr (full : Bool) (v d : Lanes Word) (s : State) : (closeBlock full v d s).hdr = s.hdr := rfl
@[simp] theorem closeBlock_resid (full : Bool) (v d : Lanes Word) (s : State) : (closeBlock full v d s).resid = s.resid := rfl
@[simp] theorem closeBlock_mem (full : Bool) (v d : Lanes Word) (s : State) : (closeBlock full v d s).mem = s.mem := rfl
@[simp] theorem closeBlock_plat (full : Bool) (v d : Lanes Word) (s : State) : (closeBlock full v d s).plat = s.plat := rfl
@[simp] theorem closeBlock_turns (full : Bool) (v d : Lanes Word) (s : State) : (closeBlock full v d s).turns = s.turns := rfl
@[simp] theorem closeBlock_hostData (full : Bool) (v d : Lanes Word) (s : State) : (closeBlock full v d s).hostData = s.hostData := rfl
@[simp] theorem closeBlock_blkSeen (full : Bool) (v d : Lanes Word) (s : State) : (closeBlock full v d s).blkSeen = s.blkSeen := rfl
@[simp] theorem closeBlock_unread (full : Bool) (v d : Lanes Word) (s : State) : (closeBlock full v d s).unread = s.unread := rfl
@[simp] theorem closeBlock_freeCtr (full : Bool) (v d : Lanes Word) (s : State) : (closeBlock full v d s).freeCtr = s.freeCtr := rfl

/-! ### `clearForStart`: what every start step does first (R161) -/

@[simp] theorem clearForStart_start (s : State) : (clearForStart s).start = false := rfl
@[simp] theorem clearForStart_status (s : State) : (clearForStart s).status = s.status := rfl
@[simp] theorem clearForStart_cause (s : State) : (clearForStart s).cause = .noFault := rfl
@[simp] theorem clearForStart_cmd (s : State) : (clearForStart s).cmd = s.cmd := rfl
@[simp] theorem clearForStart_n (s : State) : (clearForStart s).n = s.n := rfl
@[simp] theorem clearForStart_src (s : State) : (clearForStart s).src = s.src := rfl
@[simp] theorem clearForStart_srcLen (s : State) : (clearForStart s).srcLen = s.srcLen := rfl
@[simp] theorem clearForStart_dst (s : State) : (clearForStart s).dst = s.dst := rfl
@[simp] theorem clearForStart_dstLen (s : State) : (clearForStart s).dstLen = s.dstLen := rfl
@[simp] theorem clearForStart_result (s : State) : (clearForStart s).result = 0 := rfl
@[simp] theorem clearForStart_faddr (s : State) : (clearForStart s).faddr = 0 := rfl
@[simp] theorem clearForStart_blk (s : State) : (clearForStart s).blk = 0 := rfl
@[simp] theorem clearForStart_pcur (s : State) : (clearForStart s).pcur = s.pcur := rfl
@[simp] theorem clearForStart_pred (s : State) : (clearForStart s).pred = s.pred := rfl
@[simp] theorem clearForStart_stage (s : State) : (clearForStart s).stage = .boundary := rfl
@[simp] theorem clearForStart_hdr (s : State) : (clearForStart s).hdr = s.hdr := rfl
@[simp] theorem clearForStart_resid (s : State) : (clearForStart s).resid = s.resid := rfl
@[simp] theorem clearForStart_mem (s : State) : (clearForStart s).mem = s.mem := rfl
@[simp] theorem clearForStart_plat (s : State) : (clearForStart s).plat = s.plat := rfl
@[simp] theorem clearForStart_turns (s : State) : (clearForStart s).turns = s.turns := rfl
@[simp] theorem clearForStart_hostData (s : State) : (clearForStart s).hostData = s.hostData := rfl
@[simp] theorem clearForStart_blkSeen (s : State) : (clearForStart s).blkSeen = 0 := rfl
@[simp] theorem clearForStart_unread (s : State) : (clearForStart s).unread = s.unread := rfl
@[simp] theorem clearForStart_freeCtr (s : State) : (clearForStart s).freeCtr = s.freeCtr := rfl

/-! ### `beginStream`: the accepted start (R162) -/

@[simp] theorem beginStream_start (s : State) : (beginStream s).start = false := rfl
@[simp] theorem beginStream_status (s : State) : (beginStream s).status = .busy := rfl
@[simp] theorem beginStream_cause (s : State) : (beginStream s).cause = .noFault := rfl
@[simp] theorem beginStream_cmd (s : State) : (beginStream s).cmd = s.cmd := rfl
@[simp] theorem beginStream_n (s : State) : (beginStream s).n = s.n := rfl
@[simp] theorem beginStream_src (s : State) : (beginStream s).src = s.src := rfl
@[simp] theorem beginStream_srcLen (s : State) : (beginStream s).srcLen = s.srcLen := rfl
@[simp] theorem beginStream_dst (s : State) : (beginStream s).dst = s.dst := rfl
@[simp] theorem beginStream_dstLen (s : State) : (beginStream s).dstLen = s.dstLen := rfl
@[simp] theorem beginStream_result (s : State) : (beginStream s).result = 0 := rfl
@[simp] theorem beginStream_faddr (s : State) : (beginStream s).faddr = 0 := rfl
@[simp] theorem beginStream_blk (s : State) : (beginStream s).blk = 0 := rfl
@[simp] theorem beginStream_pcur (s : State) : (beginStream s).pcur = BitVec.ofNat 32 (headerBytes s.n.toNat) := rfl
@[simp] theorem beginStream_pred (s : State) : (beginStream s).pred = Predictor.zero := rfl
@[simp] theorem beginStream_stage (s : State) : (beginStream s).stage = .boundary := rfl
@[simp] theorem beginStream_hdr (s : State) : (beginStream s).hdr = s.hdr := rfl
@[simp] theorem beginStream_resid (s : State) : (beginStream s).resid = s.resid := rfl
@[simp] theorem beginStream_mem (s : State) : (beginStream s).mem = s.mem := rfl
@[simp] theorem beginStream_plat (s : State) : (beginStream s).plat = s.plat := rfl
@[simp] theorem beginStream_turns (s : State) : (beginStream s).turns = s.turns := rfl
@[simp] theorem beginStream_hostData (s : State) : (beginStream s).hostData = s.hostData := rfl
@[simp] theorem beginStream_blkSeen (s : State) : (beginStream s).blkSeen = 0 := rfl
@[simp] theorem beginStream_unread (s : State) : (beginStream s).unread = s.windows :: s.unread := rfl
@[simp] theorem beginStream_freeCtr (s : State) : (beginStream s).freeCtr = s.freeCtr := rfl

/-! ### `finishStream`: the finish step (R168) -/

@[simp] theorem finishStream_start (s : State) : (finishStream s).start = s.start := rfl
@[simp] theorem finishStream_status (s : State) : (finishStream s).status = .done := rfl
@[simp] theorem finishStream_cause (s : State) : (finishStream s).cause = s.cause := rfl
@[simp] theorem finishStream_cmd (s : State) : (finishStream s).cmd = s.cmd := rfl
@[simp] theorem finishStream_n (s : State) : (finishStream s).n = s.n := rfl
@[simp] theorem finishStream_src (s : State) : (finishStream s).src = s.src := rfl
@[simp] theorem finishStream_srcLen (s : State) : (finishStream s).srcLen = s.srcLen := rfl
@[simp] theorem finishStream_dst (s : State) : (finishStream s).dst = s.dst := rfl
@[simp] theorem finishStream_dstLen (s : State) : (finishStream s).dstLen = s.dstLen := rfl
@[simp] theorem finishStream_result (s : State) : (finishStream s).result = s.pcur := rfl
@[simp] theorem finishStream_faddr (s : State) : (finishStream s).faddr = s.faddr := rfl
@[simp] theorem finishStream_blk (s : State) : (finishStream s).blk = s.blk := rfl
@[simp] theorem finishStream_pcur (s : State) : (finishStream s).pcur = s.pcur := rfl
@[simp] theorem finishStream_pred (s : State) : (finishStream s).pred = s.pred := rfl
@[simp] theorem finishStream_stage (s : State) : (finishStream s).stage = s.stage := rfl
@[simp] theorem finishStream_hdr (s : State) : (finishStream s).hdr = s.hdr := rfl
@[simp] theorem finishStream_resid (s : State) : (finishStream s).resid = s.resid := rfl
@[simp] theorem finishStream_mem (s : State) : (finishStream s).mem = s.mem := rfl
@[simp] theorem finishStream_plat (s : State) : (finishStream s).plat = s.plat := rfl
@[simp] theorem finishStream_turns (s : State) : (finishStream s).turns = s.turns := rfl
@[simp] theorem finishStream_hostData (s : State) : (finishStream s).hostData = s.hostData := rfl
@[simp] theorem finishStream_blkSeen (s : State) : (finishStream s).blkSeen = s.blkSeen := rfl
@[simp] theorem finishStream_unread (s : State) : (finishStream s).unread = s.unread := rfl
@[simp] theorem finishStream_freeCtr (s : State) : (finishStream s).freeCtr = s.freeCtr := rfl

/-! ### `finishUbound`: the finish step of UBOUND (R168) -/

@[simp] theorem finishUbound_start (s : State) : (finishUbound s).start = s.start := rfl
@[simp] theorem finishUbound_status (s : State) : (finishUbound s).status = .done := rfl
@[simp] theorem finishUbound_cause (s : State) : (finishUbound s).cause = s.cause := rfl
@[simp] theorem finishUbound_cmd (s : State) : (finishUbound s).cmd = s.cmd := rfl
@[simp] theorem finishUbound_n (s : State) : (finishUbound s).n = s.n := rfl
@[simp] theorem finishUbound_src (s : State) : (finishUbound s).src = s.src := rfl
@[simp] theorem finishUbound_srcLen (s : State) : (finishUbound s).srcLen = s.srcLen := rfl
@[simp] theorem finishUbound_dst (s : State) : (finishUbound s).dst = s.dst := rfl
@[simp] theorem finishUbound_dstLen (s : State) : (finishUbound s).dstLen = s.dstLen := rfl
@[simp] theorem finishUbound_result (s : State) : (finishUbound s).result = BitVec.ofNat 32 (upperBound s.n.toNat) := rfl
@[simp] theorem finishUbound_faddr (s : State) : (finishUbound s).faddr = s.faddr := rfl
@[simp] theorem finishUbound_blk (s : State) : (finishUbound s).blk = s.blk := rfl
@[simp] theorem finishUbound_pcur (s : State) : (finishUbound s).pcur = s.pcur := rfl
@[simp] theorem finishUbound_pred (s : State) : (finishUbound s).pred = s.pred := rfl
@[simp] theorem finishUbound_stage (s : State) : (finishUbound s).stage = .boundary := rfl
@[simp] theorem finishUbound_hdr (s : State) : (finishUbound s).hdr = s.hdr := rfl
@[simp] theorem finishUbound_resid (s : State) : (finishUbound s).resid = s.resid := rfl
@[simp] theorem finishUbound_mem (s : State) : (finishUbound s).mem = s.mem := rfl
@[simp] theorem finishUbound_plat (s : State) : (finishUbound s).plat = s.plat := rfl
@[simp] theorem finishUbound_turns (s : State) : (finishUbound s).turns = s.turns := rfl
@[simp] theorem finishUbound_hostData (s : State) : (finishUbound s).hostData = s.hostData := rfl
@[simp] theorem finishUbound_blkSeen (s : State) : (finishUbound s).blkSeen = s.blkSeen := rfl
@[simp] theorem finishUbound_unread (s : State) : (finishUbound s).unread = s.unread := rfl
@[simp] theorem finishUbound_freeCtr (s : State) : (finishUbound s).freeCtr = s.freeCtr := rfl

/-! ### `resetRegisters`: reset of the registers (R230) -/

@[simp] theorem resetRegisters_start (s : State) : (resetRegisters s).start = State.reset.start := rfl
@[simp] theorem resetRegisters_status (s : State) : (resetRegisters s).status = State.reset.status := rfl
@[simp] theorem resetRegisters_cause (s : State) : (resetRegisters s).cause = State.reset.cause := rfl
@[simp] theorem resetRegisters_cmd (s : State) : (resetRegisters s).cmd = State.reset.cmd := rfl
@[simp] theorem resetRegisters_n (s : State) : (resetRegisters s).n = State.reset.n := rfl
@[simp] theorem resetRegisters_src (s : State) : (resetRegisters s).src = State.reset.src := rfl
@[simp] theorem resetRegisters_srcLen (s : State) : (resetRegisters s).srcLen = State.reset.srcLen := rfl
@[simp] theorem resetRegisters_dst (s : State) : (resetRegisters s).dst = State.reset.dst := rfl
@[simp] theorem resetRegisters_dstLen (s : State) : (resetRegisters s).dstLen = State.reset.dstLen := rfl
@[simp] theorem resetRegisters_result (s : State) : (resetRegisters s).result = State.reset.result := rfl
@[simp] theorem resetRegisters_faddr (s : State) : (resetRegisters s).faddr = State.reset.faddr := rfl
@[simp] theorem resetRegisters_blk (s : State) : (resetRegisters s).blk = State.reset.blk := rfl
@[simp] theorem resetRegisters_pcur (s : State) : (resetRegisters s).pcur = State.reset.pcur := rfl
@[simp] theorem resetRegisters_pred (s : State) : (resetRegisters s).pred = State.reset.pred := rfl
@[simp] theorem resetRegisters_stage (s : State) : (resetRegisters s).stage = State.reset.stage := rfl
@[simp] theorem resetRegisters_hdr (s : State) : (resetRegisters s).hdr = State.reset.hdr := rfl
@[simp] theorem resetRegisters_resid (s : State) : (resetRegisters s).resid = State.reset.resid := rfl
@[simp] theorem resetRegisters_mem (s : State) : (resetRegisters s).mem = s.mem := rfl
@[simp] theorem resetRegisters_plat (s : State) : (resetRegisters s).plat = s.plat := rfl
@[simp] theorem resetRegisters_turns (s : State) : (resetRegisters s).turns = s.turns := rfl
@[simp] theorem resetRegisters_hostData (s : State) : (resetRegisters s).hostData = s.hostData := rfl
@[simp] theorem resetRegisters_blkSeen (s : State) : (resetRegisters s).blkSeen = State.reset.blkSeen := rfl
@[simp] theorem resetRegisters_unread (s : State) : (resetRegisters s).unread = [] := rfl
@[simp] theorem resetRegisters_freeCtr (s : State) : (resetRegisters s).freeCtr = s.freeCtr := rfl

end Sys2Proof.Machine
end

