-- ==== Sys2Proof/Laws/Access.lean ====
section
/-! SUPPORT. What each shared access of a block step can do, said once: when it answers, and with what. -/

namespace Sys2Proof.Machine

/-! ### The window-checked accesses (R53, R54) -/

/-- `SrcRead` answers exactly when it is not refused, with the bytes of memory (R53). -/
theorem srcRead_ok_iff {s : State} {off n : Nat} {v : Word} :
    srcRead s off n = .ok v ↔ s.srcOk off n ∧ v = s.mem.read (s.src.toNat + off) n := by
  unfold srcRead
  split
  · rename_i h
    subst h
    exact ⟨fun h => ⟨.inl rfl, (Except.ok.inj h).symm⟩, fun h => by rw [h.2]; rfl⟩
  split
  · refine ⟨fun h => (nomatch h), fun h => ?_⟩
    rcases h.1 with h | h <;> omega
  split
  · rename_i h
    refine ⟨fun h => (nomatch h), fun h' => ?_⟩
    rcases h'.1 with h' | h'
    · omega
    · exact absurd (h.symm.trans h'.2.1) (by simp)
  split
  · refine ⟨fun h => (nomatch h), fun h => ?_⟩
    rcases h.1 with h | h <;> omega
  · rename_i h
    refine ⟨fun h => ⟨.inr ⟨by omega, by simpa using ‹¬ _ = false›, by omega⟩, (Except.ok.inj h).symm⟩, fun h => ?_⟩
    rw [h.2]

/-- How `SrcRead` is stopped: past the window, refused by the platform, or past the address space (R53). -/
theorem srcRead_error_iff {s : State} {off n : Nat} {e : Stop} :
    srcRead s off n = .error e ↔ n ≠ 0 ∧
      ((s.srcLen.toNat < off + n ∧ e = .raised .srcBounds (s.src.toNat + off)) ∨
       (off + n ≤ s.srcLen.toNat ∧ s.plat.admits (s.src.toNat + off) n .read = false ∧
          e = .raised .bus (s.src.toNat + off)) ∨
       (off + n ≤ s.srcLen.toNat ∧ s.plat.admits (s.src.toNat + off) n .read = true ∧
          Config.addressSpace < s.src.toNat + off + n ∧ e = .outside (s.src.toNat + off))) := by
  unfold srcRead
  split
  · simp_all
  split
  · rename_i h₀ h
    constructor
    · intro he
      exact ⟨h₀, .inl ⟨h, (Except.error.inj he).symm⟩⟩
    · rintro ⟨-, ⟨-, rfl⟩ | ⟨h', -⟩ | ⟨h', -⟩⟩
      · rfl
      all_goals omega
  split
  · rename_i h₀ h₁ h
    constructor
    · intro he
      exact ⟨h₀, .inr (.inl ⟨by omega, h, (Except.error.inj he).symm⟩)⟩
    · rintro ⟨-, ⟨h', -⟩ | ⟨-, -, rfl⟩ | ⟨-, h', -⟩⟩
      · omega
      · rfl
      · simp_all
  split
  · rename_i h₀ h₁ h₂ h
    constructor
    · intro he
      exact ⟨h₀, .inr (.inr ⟨by omega, by simpa using h₂, h, (Except.error.inj he).symm⟩)⟩
    · rintro ⟨-, ⟨h', -⟩ | ⟨-, h', -⟩ | ⟨-, -, -, rfl⟩⟩
      · omega
      · simp_all
      · rfl
  · rename_i h₀ h₁ h₂ h
    refine ⟨fun he => (nomatch he), ?_⟩
    rintro ⟨-, ⟨h', -⟩ | ⟨-, h', -⟩ | ⟨-, -, h', -⟩⟩
    · omega
    · exact absurd h' h₂
    · omega

/-- `DstWrite` answers exactly when it is not refused, and changes the written bytes alone (R54). -/
theorem dstWrite_ok_iff {s t : State} {off n : Nat} {v : Word} :
    dstWrite s off n v = .ok t ↔
      s.dstOk off n ∧ t = { s with mem := s.mem.write (s.dst.toNat + off) n v } := by
  unfold dstWrite
  split
  · rename_i h
    subst h
    exact ⟨fun h => ⟨.inl rfl, (Except.ok.inj h).symm⟩, fun h => by rw [h.2]; rfl⟩
  split
  · refine ⟨fun h => (nomatch h), fun h => ?_⟩
    rcases h.1 with h | h <;> omega
  split
  · rename_i h
    refine ⟨fun h => (nomatch h), fun h' => ?_⟩
    rcases h'.1 with h' | h'
    · omega
    · exact absurd (h.symm.trans h'.2.1) (by simp)
  split
  · refine ⟨fun h => (nomatch h), fun h => ?_⟩
    rcases h.1 with h | h <;> omega
  · rename_i h
    refine ⟨fun h => ⟨.inr ⟨by omega, by simpa using ‹¬ _ = false›, by omega⟩, (Except.ok.inj h).symm⟩, fun h => ?_⟩
    rw [h.2]

/-- How `DstWrite` is stopped (R54). -/
theorem dstWrite_error_iff {s : State} {off n : Nat} {v : Word} {e : Stop} :
    dstWrite s off n v = .error e ↔ n ≠ 0 ∧
      ((s.dstLen.toNat < off + n ∧ e = .raised .dstBounds (s.dst.toNat + off)) ∨
       (off + n ≤ s.dstLen.toNat ∧ s.plat.admits (s.dst.toNat + off) n .write = false ∧
          e = .raised .bus (s.dst.toNat + off)) ∨
       (off + n ≤ s.dstLen.toNat ∧ s.plat.admits (s.dst.toNat + off) n .write = true ∧
          Config.addressSpace < s.dst.toNat + off + n ∧ e = .outside (s.dst.toNat + off))) := by
  unfold dstWrite
  split
  · simp_all
  split
  · rename_i h₀ h
    constructor
    · intro he
      exact ⟨h₀, .inl ⟨h, (Except.error.inj he).symm⟩⟩
    · rintro ⟨-, ⟨-, rfl⟩ | ⟨h', -⟩ | ⟨h', -⟩⟩
      · rfl
      all_goals omega
  split
  · rename_i h₀ h₁ h
    constructor
    · intro he
      exact ⟨h₀, .inr (.inl ⟨by omega, h, (Except.error.inj he).symm⟩)⟩
    · rintro ⟨-, ⟨h', -⟩ | ⟨-, -, rfl⟩ | ⟨-, h', -⟩⟩
      · omega
      · rfl
      · simp_all
  split
  · rename_i h₀ h₁ h₂ h
    constructor
    · intro he
      exact ⟨h₀, .inr (.inr ⟨by omega, by simpa using h₂, h, (Except.error.inj he).symm⟩)⟩
    · rintro ⟨-, ⟨h', -⟩ | ⟨-, h', -⟩ | ⟨-, -, -, rfl⟩⟩
      · omega
      · simp_all
      · rfl
  · rename_i h₀ h₁ h₂ h
    refine ⟨fun he => (nomatch he), ?_⟩
    rintro ⟨-, ⟨h', -⟩ | ⟨-, h', -⟩ | ⟨-, -, h', -⟩⟩
    · omega
    · exact absurd h' h₂
    · omega

/-! ### The header moves and one lane (R145, R142, R143) -/

theorem putHeader_ok_iff {h : Word} {s t : State} :
    putHeader h s = .ok t ↔ s.dstOk s.headerOffset 4 ∧
      t = { s with mem := s.mem.write (s.dst.toNat + s.headerOffset) 4 h, hdr := h } := by
  simp only [putHeader]
  cases hw : dstWrite s s.headerOffset 4 h with
  | ok u =>
    obtain ⟨h₁, rfl⟩ := dstWrite_ok_iff.1 hw
    simp [h₁, eq_comm]
  | error e =>
    have : ¬ s.dstOk s.headerOffset 4 := fun h₁ => by
      rw [dstWrite_ok_iff.2 ⟨h₁, rfl⟩] at hw
      cases hw
    simp [this]

theorem putHeader_error_iff {h : Word} {s : State} {e : Stop} :
    putHeader h s = .error e ↔ dstWrite s s.headerOffset 4 h = .error e := by
  simp only [putHeader]
  cases dstWrite s s.headerOffset 4 h <;> simp

theorem marshalLane_ok_iff {w : Nat} {sig : Word} {s t : State} :
    marshalLane w sig s = .ok t ↔ s.dstOk s.pcur.toNat w ∧
      t = { s with
        mem := s.mem.write (s.dst.toNat + s.pcur.toNat) w sig, pcur := s.pcur + BitVec.ofNat 32 w } := by
  simp only [marshalLane]
  cases hw : dstWrite s s.pcur.toNat w sig with
  | ok u =>
    obtain ⟨h₁, rfl⟩ := dstWrite_ok_iff.1 hw
    simp [h₁, eq_comm]
  | error e =>
    have : ¬ s.dstOk s.pcur.toNat w := fun h₁ => by
      rw [dstWrite_ok_iff.2 ⟨h₁, rfl⟩] at hw
      cases hw
    simp [this]

theorem marshalLane_error_iff {w : Nat} {sig : Word} {s : State} {e : Stop} :
    marshalLane w sig s = .error e ↔ dstWrite s s.pcur.toNat w sig = .error e := by
  simp only [marshalLane]
  cases dstWrite s s.pcur.toNat w sig <;> simp

theorem unmarshalLane_ok_iff {k : Fin 8} {w : Nat} {tz : BitVec 2} {s t : State} :
    unmarshalLane k w tz s = .ok t ↔ s.srcOk s.pcur.toNat w ∧
      t = { s with
        pcur := s.pcur + BitVec.ofNat 32 w
        resid := s.resid.set k.val (unstrip tz (s.mem.readBytes (s.src.toNat + s.pcur.toNat) w)) } := by
  simp only [unmarshalLane]
  cases hw : srcRead s s.pcur.toNat w with
  | ok u =>
    obtain ⟨h₁, rfl⟩ := srcRead_ok_iff.1 hw
    simp [h₁, eq_comm, unstrip, Memory.read]
  | error e =>
    have : ¬ s.srcOk s.pcur.toNat w := fun h₁ => by
      rw [srcRead_ok_iff.2 ⟨h₁, rfl⟩] at hw
      cases hw
    simp [this]

theorem unmarshalLane_error_iff {k : Fin 8} {w : Nat} {tz : BitVec 2} {s : State} {e : Stop} :
    unmarshalLane k w tz s = .error e ↔ srcRead s s.pcur.toNat w = .error e := by
  simp only [unmarshalLane]
  cases srcRead s s.pcur.toNat w <;> simp

/-! ### The eight lanes -/

/-- One step of a fold that may be stopped. -/
theorem foldlM_cons_ok {α β : Type} {f : β → α → Except Stop β} {x : α} {l : List α} {b c : β} :
    (x :: l).foldlM f b = .ok c ↔ ∃ b', f b x = .ok b' ∧ l.foldlM f b' = .ok c := by
  rw [List.foldlM_cons]
  cases h : f b x <;> simp [bind, Except.bind]

/-- What `readValue` answers with. -/
theorem readValue_ok {s : State} {u v : Lanes Word} {x : Fin 8} (h : readValue s u x = .ok v) :
    (x.val < s.realLanes → s.srcOk (s.valueOffset x) 4) ∧
      v = if x.val < s.realLanes then u.set x.val (s.mem.read (s.src.toNat + s.valueOffset x) 4) else u := by
  unfold readValue at h
  split at h
  · rename_i hx
    split at h
    · rename_i y hy
      obtain ⟨hok, rfl⟩ := srcRead_ok_iff.1 hy
      cases h
      exact ⟨fun _ => hok, by rw [if_pos hx]⟩
    · cases h
  · rename_i hx
    cases h
    exact ⟨fun h => absurd h hx, by rw [if_neg hx]⟩

theorem readValueList_ok {s : State} {l : List (Fin 8)} {u v : Lanes Word} (h : l.foldlM (readValue s) u = .ok v) :
    (∀ k : Fin 8, v[k] = if k ∈ l ∧ k.val < s.realLanes then s.mem.read (s.src.toNat + s.valueOffset k) 4 else u[k]) ∧
      ∀ k ∈ l, k.val < s.realLanes → s.srcOk (s.valueOffset k) 4 := by
  induction l generalizing u with
  | nil =>
    cases h
    simp
  | cons x l ih =>
    obtain ⟨u', hx, hl⟩ := foldlM_cons_ok.1 h
    obtain ⟨h₁, h₂⟩ := ih hl
    obtain ⟨hok, rfl⟩ := readValue_ok hx
    refine ⟨fun k => ?_, fun k hk hkr => ?_⟩
    · rw [h₁ k]
      by_cases hkl : k ∈ l ∧ k.val < s.realLanes
      · rw [if_pos hkl, if_pos ⟨List.mem_cons_of_mem _ hkl.1, hkl.2⟩]
      · rw [if_neg hkl]
        by_cases hkx : k = x
        · subst hkx
          by_cases hk : k.val < s.realLanes <;> simp [hk]
        · have hne : ¬ x.val = k.val := fun he => hkx (Fin.ext he.symm)
          have hnm : ¬ (k ∈ x :: l ∧ k.val < s.realLanes) := fun ⟨hm, hr⟩ =>
            hkl ⟨(List.mem_cons.1 hm).resolve_left hkx, hr⟩
          rw [if_neg hnm]
          split
          · exact Vector.getElem_set_ne _ _ hne
          · rfl
    · rcases List.mem_cons.1 hk with rfl | hk
      · exact hok hkr
      · exact h₂ k hk hkr

theorem mem_laneOrder (k : Fin 8) : k ∈ laneOrder := by
  revert k
  decide

/-- What `readValues` answers with: each real lane's word, the padding lanes 0 (R164, R166). -/
theorem readValues_ok {s : State} {v : Lanes Word} (h : readValues s = .ok v) :
    v = s.sourceBlock ∧ ∀ k : Fin 8, k.val < s.realLanes → s.srcOk (s.valueOffset k) 4 := by
  obtain ⟨h₁, h₂⟩ := readValueList_ok h
  refine ⟨?_, fun k hk => h₂ k (mem_laneOrder k) hk⟩
  ext i hi : 1
  have := h₁ ⟨i, hi⟩
  rw [show v[(⟨i, hi⟩ : Fin 8)] = v[i] from rfl] at this
  rw [this, State.sourceBlock, Vector.getElem_ofFn]
  simp only [mem_laneOrder, true_and]
  split
  · rfl
  · exact Vector.getElem_replicate hi

/-- Fetching answers when every real lane's read is not refused (R53, R164). -/
theorem readValueList_complete {s : State} {l : List (Fin 8)} {u : Lanes Word}
    (h : ∀ k ∈ l, k.val < s.realLanes → s.srcOk (s.valueOffset k) 4) : ∃ v, l.foldlM (readValue s) u = .ok v := by
  induction l generalizing u with
  | nil => exact ⟨u, rfl⟩
  | cons x l ih =>
    have hx : ∃ u', readValue s u x = .ok u' := by
      unfold readValue
      split
      · rename_i hx
        rw [srcRead_ok_iff.2 ⟨h x (by simp) hx, rfl⟩]
        exact ⟨_, rfl⟩
      · exact ⟨_, rfl⟩
    obtain ⟨u', hx⟩ := hx
    obtain ⟨v, hv⟩ := ih (u := u') fun k hk => h k (by simp [hk])
    exact ⟨v, foldlM_cons_ok.2 ⟨u', hx, hv⟩⟩

/-- The payload bytes of several lanes, one after the other (R72). -/
def payloadsOf (r : Lanes Word) (l : List (Fin 8)) : List Byte := l.flatMap fun k => (strip r[k]).payload

theorem length_payloadsOf_cons (r : Lanes Word) (x : Fin 8) (l : List (Fin 8)) :
    (payloadsOf r (x :: l)).length = (strip r[x]).width + (payloadsOf r l).length := by
  rw [payloadsOf, List.flatMap_cons, List.length_append, Stripped.payload, length_leBytes]
  rfl

/-- The cursor past a lane that fits the window does not wrap (R29). -/
theorem cursor_past {p : Word} {w b : Nat} (h : p.toNat + w ≤ b) (hb : b < 2 ^ 32) :
    (p + BitVec.ofNat 32 w).toNat = p.toNat + w := by
  rw [BitVec.toNat_add, BitVec.toNat_ofNat, Nat.mod_eq_of_lt (a := w) (by omega), Nat.mod_eq_of_lt (by omega)]

/-- Several lanes marshalled: their payloads one after the other, the cursor past them (R142). -/
theorem marshalList_ok {r : Lanes Word} {l : List (Fin 8)} {s t : State} (h : l.foldlM (marshalResidual r) s = .ok t) :
    t = { s with
      mem := s.mem.writeBytes (s.dst.toNat + s.pcur.toNat) (payloadsOf r l)
      pcur := s.pcur + BitVec.ofNat 32 (payloadsOf r l).length } := by
  induction l generalizing s with
  | nil =>
    cases h
    simp [payloadsOf, Memory.writeBytes]
  | cons x l ih =>
    obtain ⟨u, hx, hl⟩ := foldlM_cons_ok.1 h
    obtain ⟨hok, rfl⟩ := marshalLane_ok_iff.1 hx
    have hlt : (s.pcur + BitVec.ofNat 32 (strip r[x]).width).toNat = s.pcur.toNat + (strip r[x]).width := by
      rcases hok with h0 | ⟨h₁, -, -⟩
      · rw [h0]
        exact congrArg BitVec.toNat (BitVec.add_zero _)
      · exact cursor_past h₁ s.dstLen.isLt
    have hbytes : payloadsOf r (x :: l) = leBytes (strip r[x]).width (strip r[x]).sig ++ payloadsOf r l := rfl
    have hmem := Memory.writeBytes_append (m := s.mem) (a := s.dst.toNat + s.pcur.toNat)
      (bs := leBytes (strip r[x]).width (strip r[x]).sig) (cs := payloadsOf r l)
    rw [length_leBytes, Nat.add_assoc] at hmem
    rw [ih hl]
    simp only [hlt, Memory.write, hbytes, List.length_append, length_leBytes, BitVec.ofNat_add, BitVec.add_assoc, ← hmem]

/-- `marshalBlock` (R142): the block's payload at PCUR, and PCUR past it. -/
theorem marshalBlock_ok {r : Lanes Word} {s t : State} (h : marshalBlock r s = .ok t) :
    t = { s with
      mem := s.mem.writeBytes (s.dst.toNat + s.pcur.toNat) (payloadOf r)
      pcur := s.pcur + BitVec.ofNat 32 (payloadOf r).length } :=
  marshalList_ok h

/-- Marshalling answers when the payload fits the window and the platform admits it (R54, R142). -/
theorem marshalList_complete {r : Lanes Word} {l : List (Fin 8)} {s : State}
    (hfit : s.pcur.toNat + (payloadsOf r l).length ≤ s.dstLen.toNat)
    (hspace : s.dst.toNat + s.dstLen.toNat ≤ Config.addressSpace)
    (hadm : ∀ a n, s.plat.admits a n .write = true) : ∃ t, l.foldlM (marshalResidual r) s = .ok t := by
  induction l generalizing s with
  | nil => exact ⟨s, rfl⟩
  | cons x l ih =>
    rw [length_payloadsOf_cons] at hfit
    have hok : s.dstOk s.pcur.toNat (strip r[x]).width := .inr ⟨by omega, hadm _ _, by omega⟩
    have hx := (marshalLane_ok_iff (sig := (strip r[x]).sig)).2 ⟨hok, rfl⟩
    have hlt := cursor_past (p := s.pcur) (w := (strip r[x]).width) (by omega) s.dstLen.isLt
    obtain ⟨t, ht⟩ := ih (s := { s with
        mem := s.mem.write (s.dst.toNat + s.pcur.toNat) (strip r[x]).width (strip r[x]).sig
        pcur := s.pcur + BitVec.ofNat 32 (strip r[x]).width }) (by simp only [hlt]; omega) hspace hadm
    exact ⟨t, foldlM_cons_ok.2 ⟨_, hx, ht⟩⟩

/-- Several lanes unmarshalled change the cursor and the residuals only (R143). -/
theorem unmarshalList_frame {h : Word} {l : List (Fin 8)} {s t : State} (hf : l.foldlM (unmarshalField h) s = .ok t) :
    t = { s with pcur := s.pcur + BitVec.ofNat 32 (l.map (laneWidth h)).sum, resid := t.resid } := by
  induction l generalizing s with
  | nil =>
    cases hf
    simp
  | cons x l ih =>
    obtain ⟨u, hx, hl⟩ := foldlM_cons_ok.1 hf
    obtain ⟨-, rfl⟩ := unmarshalLane_ok_iff.1 hx
    rw [ih hl]
    simp only [List.map_cons, List.sum_cons, BitVec.ofNat_add, BitVec.add_assoc]

/-- `unmarshalBlock` changes the cursor, by the advance its header word determines, and the residuals only (R144). -/
theorem unmarshalBlock_frame {h : Word} {s t : State} (hf : unmarshalBlock h s = .ok t) :
    t = { s with pcur := s.pcur + BitVec.ofNat 32 (blockAdvance h), resid := t.resid } :=
  unmarshalList_frame hf

theorem writeValue_frame {s t u : State} {v : Lanes Word} {x : Fin 8} (h : writeValue s v t x = .ok u) :
    u = { t with mem := u.mem } := by
  unfold writeValue at h
  split at h
  · obtain ⟨-, rfl⟩ := dstWrite_ok_iff.1 h
    rfl
  · cases h
    rfl

theorem writeValueList_frame {s t u : State} {v : Lanes Word} {l : List (Fin 8)}
    (h : l.foldlM (writeValue s v) t = .ok u) : u = { t with mem := u.mem } := by
  induction l generalizing t with
  | nil =>
    cases h
    rfl
  | cons x l ih =>
    obtain ⟨u', hx, hl⟩ := foldlM_cons_ok.1 h
    rw [ih hl, writeValue_frame hx]

/-- `writeValues` changes memory only (R165, R167). -/
theorem writeValues_frame {v : Lanes Word} {s t : State} (h : writeValues v s = .ok t) : t = { s with mem := t.mem } :=
  writeValueList_frame h

/-- `writeValues` changes no byte outside the block's real values (R167). -/
theorem writeValueList_outside {s t u : State} {v : Lanes Word} {l : List (Fin 8)} {a : Nat} (hd : t.dst = s.dst)
    (ha : a < s.dst.toNat + 32 * s.blk.toNat ∨ s.dst.toNat + 32 * s.blk.toNat + 4 * s.realLanes ≤ a)
    (h : l.foldlM (writeValue s v) t = .ok u) : u.mem.readByte a = t.mem.readByte a := by
  induction l generalizing t with
  | nil =>
    cases h
    rfl
  | cons x l ih =>
    obtain ⟨u', hx, hl⟩ := foldlM_cons_ok.1 h
    have hfr := writeValue_frame hx
    rw [ih (by rw [hfr]; exact hd) hl]
    unfold writeValue at hx
    split at hx
    · rename_i hk
      obtain ⟨-, rfl⟩ := dstWrite_ok_iff.1 hx
      refine Memory.readByte_write_outside ?_
      rw [hd]
      simp only [State.valueOffset]
      omega
    · cases hx
      rfl

/-! ### What the lanes of a decode block hold and write -/

/-- The residuals after several lanes: each lane of the list holds the residual of its own payload bytes, which stand
after those of the lanes before it in the list (R143). -/
theorem unmarshalList_resid {h : Word} {l : List (Fin 8)} (hl : l.Nodup) {s t : State}
    (hf : l.foldlM (unmarshalField h) s = .ok t) (k : Fin 8) :
    t.resid[k] = if k ∈ l then unstrip (hdrTz h k) (s.mem.readBytes
        (s.src.toNat + (s.pcur.toNat + ((l.takeWhile (· ≠ k)).map (laneWidth h)).sum)) (laneWidth h k))
      else s.resid[k] := by
  induction l generalizing s with
  | nil =>
    cases hf
    simp
  | cons x l ih =>
    obtain ⟨hxl, hl⟩ := List.nodup_cons.1 hl
    obtain ⟨u, hx, hrest⟩ := foldlM_cons_ok.1 hf
    obtain ⟨hok, rfl⟩ := unmarshalLane_ok_iff.1 hx
    have hlt : (s.pcur + BitVec.ofNat 32 (laneWidth h x)).toNat = s.pcur.toNat + laneWidth h x := by
      rcases hok with h0 | ⟨h₁, -, -⟩
      · rw [h0]
        exact congrArg BitVec.toNat (BitVec.add_zero _)
      · exact cursor_past h₁ s.srcLen.isLt
    rw [ih hl hrest]
    by_cases hkx : k = x
    · subst hkx
      simp [hxl]
    · have hne : ¬ x.val = k.val := fun he => hkx (Fin.ext he.symm)
      have hxk : x ≠ k := Ne.symm hkx
      by_cases hkl : k ∈ l
      · rw [if_pos hkl, if_pos (List.mem_cons_of_mem _ hkl), List.takeWhile_cons_of_pos (by simpa using hxk)]
        simp only [hlt, List.map_cons, List.sum_cons, Nat.add_assoc]
      · rw [if_neg hkl, if_neg (by simp [hkx, hkl])]
        exact Vector.getElem_set_ne x.isLt k.isLt hne

theorem takeWhile_laneOrder (k : Fin 8) : laneOrder.takeWhile (· ≠ k) = laneOrder.take k.val := by
  revert k
  decide

/-- `unmarshalBlock` (R143): lane `k`'s residual is that of its payload bytes at the prefix sum of the widths. -/
theorem unmarshalBlock_resid {h : Word} {s t : State} (hf : unmarshalBlock h s = .ok t) (k : Fin 8) :
    t.resid[k] = unstrip (hdrTz h k)
      (s.mem.readBytes (s.src.toNat + (s.pcur.toNat + laneOffset h k)) (laneWidth h k)) := by
  have := unmarshalList_resid (by decide) hf k
  rwa [if_pos (mem_laneOrder k), takeWhile_laneOrder] at this

/-- Unmarshalling answers when the payload lies in the window and the platform admits it (R53, R143). -/
theorem unmarshalList_complete {h : Word} {l : List (Fin 8)} {s : State}
    (hfit : s.pcur.toNat + (l.map (laneWidth h)).sum ≤ s.srcLen.toNat)
    (hspace : s.src.toNat + s.srcLen.toNat ≤ Config.addressSpace)
    (hadm : ∀ a n, s.plat.admits a n .read = true) : ∃ t, l.foldlM (unmarshalField h) s = .ok t := by
  induction l generalizing s with
  | nil => exact ⟨s, rfl⟩
  | cons x l ih =>
    simp only [List.map_cons, List.sum_cons] at hfit
    have hok : s.srcOk s.pcur.toNat (laneWidth h x) := .inr ⟨by omega, hadm _ _, by omega⟩
    have hx := (unmarshalLane_ok_iff (k := x) (tz := hdrTz h x)).2 ⟨hok, rfl⟩
    have hlt := cursor_past (p := s.pcur) (w := laneWidth h x) (by omega) s.srcLen.isLt
    obtain ⟨t, ht⟩ := ih (s := { s with
        pcur := s.pcur + BitVec.ofNat 32 (laneWidth h x)
        resid := s.resid.set x.val (unstrip (hdrTz h x)
          (s.mem.readBytes (s.src.toNat + s.pcur.toNat) (laneWidth h x))) })
      (by simp only [hlt]; omega) hspace hadm
    exact ⟨t, foldlM_cons_ok.2 ⟨_, hx, ht⟩⟩

theorem writeValueList_filter (s : State) (v : Lanes Word) (l : List (Fin 8)) (t : State) :
    l.foldlM (writeValue s v) t = (l.filter fun k => k.val < s.realLanes).foldlM (writeValue s v) t := by
  induction l generalizing t with
  | nil => rfl
  | cons x l ih =>
    by_cases hx : x.val < s.realLanes
    · rw [List.filter_cons_of_pos (by simpa using hx), List.foldlM_cons, List.foldlM_cons]
      exact congrArg (writeValue s v t x >>= ·) (funext fun t => ih t)
    · rw [List.filter_cons_of_neg (by simpa using hx), List.foldlM_cons, writeValue, if_neg hx]
      exact ih t

/-- Consecutive real lanes, written from lane `j` on, are their words' bytes one after the other. -/
theorem writeValueList_mem {s : State} {v : Lanes Word} {l : List (Fin 8)} {j : Nat} {t u : State} (hd : t.dst = s.dst)
    (hj : ∀ i (hi : i < l.length), (l[i]).val = j + i) (hr : ∀ k ∈ l, k.val < s.realLanes)
    (h : l.foldlM (writeValue s v) t = .ok u) :
    u.mem = t.mem.writeBytes (s.dst.toNat + (32 * s.blk.toNat + 4 * j)) (l.flatMap fun k => leBytes 4 v[k]) := by
  induction l generalizing j t with
  | nil =>
    cases h
    rfl
  | cons x l ih =>
    obtain ⟨t', hx, hl⟩ := foldlM_cons_ok.1 h
    rw [writeValue, if_pos (hr x (by simp))] at hx
    obtain ⟨-, rfl⟩ := dstWrite_ok_iff.1 hx
    have hxj : x.val = j := hj 0 (by simp)
    rw [ih (j := j + 1) (t := { t with mem := t.mem.write (t.dst.toNat + s.valueOffset x) 4 v[x] }) hd
      (fun i hi => by have := hj (i + 1) (by simpa using hi); simp only [List.getElem_cons_succ] at this; omega)
      (fun k hk => hr k (by simp [hk])) hl]
    have happ := Memory.writeBytes_append (m := t.mem) (a := s.dst.toNat + (32 * s.blk.toNat + 4 * j))
      (bs := leBytes 4 v[x]) (cs := l.flatMap fun k => leBytes 4 v[k])
    rw [length_leBytes] at happ
    rw [List.flatMap_cons, ← happ]
    simp only [hd, Memory.write, State.valueOffset, hxj]
    rw [show 4 * (8 * s.blk.toNat + j) = 32 * s.blk.toNat + 4 * j by omega,
      show s.dst.toNat + (32 * s.blk.toNat + 4 * (j + 1)) = s.dst.toNat + (32 * s.blk.toNat + 4 * j) + 4 by omega]

theorem filter_laneOrder (c : Nat) (hc : c ≤ 8) : (laneOrder.filter fun k => k.val < c) = laneOrder.take c := by
  have : ∀ c : Fin 9, (laneOrder.filter fun k => k.val < c.val) = laneOrder.take c.val := by decide
  exact this ⟨c, by omega⟩

theorem toList_eq_map_laneOrder {α : Type} (v : Lanes α) : v.toList = laneOrder.map fun k => v[k] := by
  obtain ⟨⟨l⟩, hl⟩ := v
  match l, hl with
  | [_, _, _, _, _, _, _, _], _ => rfl

theorem realLanes_le (s : State) : s.realLanes ≤ 8 := Nat.min_le_left _ _

/-- `writeValues` (R165, R167): the block's real values, little-endian, one after the other at `DST + 32*b`. -/
theorem writeValues_mem {v : Lanes Word} {s t : State} (h : writeValues v s = .ok t) :
    t.mem = s.mem.writeBytes (s.dst.toNat + 32 * s.blk.toNat) (s.valueBytes v) := by
  rw [writeValues, writeValueList_filter, filter_laneOrder _ (realLanes_le s)] at h
  have hj : ∀ c : Fin 9, ∀ i (hi : i < (laneOrder.take c.val).length), ((laneOrder.take c.val)[i]).val = 0 + i := by
    decide
  have hr : ∀ c : Fin 9, ∀ k ∈ laneOrder.take c.val, k.val < c.val := by decide
  have := writeValueList_mem rfl (hj ⟨s.realLanes, Nat.lt_succ_of_le (realLanes_le s)⟩)
    (hr ⟨s.realLanes, Nat.lt_succ_of_le (realLanes_le s)⟩) h
  rw [this, State.valueBytes, toList_eq_map_laneOrder, ← List.map_take, List.flatMap_map]
  rfl

/-- Writing the values answers when every real lane's write is not refused (R54, R165). -/
theorem writeValueList_complete {s t : State} {v : Lanes Word} {l : List (Fin 8)}
    (hd : t.dst = s.dst ∧ t.dstLen = s.dstLen ∧ t.plat = s.plat)
    (h : ∀ k ∈ l, k.val < s.realLanes → s.dstOk (s.valueOffset k) 4) : ∃ u, l.foldlM (writeValue s v) t = .ok u := by
  induction l generalizing t with
  | nil => exact ⟨t, rfl⟩
  | cons x l ih =>
    have hx : ∃ t', writeValue s v t x = .ok t' := by
      unfold writeValue
      split
      · rename_i hx
        have hok := h x (by simp) hx
        refine ⟨_, dstWrite_ok_iff.2 ⟨?_, rfl⟩⟩
        simpa only [State.dstOk, hd.1, hd.2.1, hd.2.2] using hok
      · exact ⟨_, rfl⟩
    obtain ⟨t', hx⟩ := hx
    have hfr := writeValue_frame hx
    obtain ⟨u, hu⟩ := ih (t := t') (by rw [hfr]; exact hd) fun k hk => h k (by simp [hk])
    exact ⟨u, foldlM_cons_ok.2 ⟨t', hx, hu⟩⟩

end Sys2Proof.Machine
end

