-- ==== Sys2Proof/Laws/Jobs.lean ====
section
/-! SUPPORT. What each step of a job, each sub-instruction and each turn of the host can do, said once. -/

namespace Sys2Proof.Machine

/-! ### A step that an access may have stopped -/

/-- If `settle` answers a next state, the step completed or took its fault (R206). -/
theorem settle_next {s t : State} {r : Except Stop State} (h : settle s r = .next t) :
    r = .ok t ∨ ∃ c a, r = .error (.raised c a) ∧ t = raiseInBlock c a s := by
  unfold settle at h
  split at h
  · cases h
    exact .inl rfl
  · cases h
    exact .inr ⟨_, _, rfl, rfl⟩
  · cases h

/-- `settle` faults exactly on addresses that do not exist. -/
theorem settle_fault {s : State} {r : Except Stop State} {f : Fault} (h : settle s r = .fault f) :
    ∃ a, r = .error (.outside a) ∧ f = .noSuchAddress a := by
  unfold settle at h
  split at h <;> cases h
  exact ⟨_, rfl, rfl⟩

/-- A bind that answers, answered twice. -/
theorem bind_ok {α β : Type} {x : Except Stop α} {f : α → Except Stop β} {b : β} (h : (x >>= f) = .ok b) :
    ∃ a, x = .ok a ∧ f a = .ok b := by
  cases x with
  | ok a => exact ⟨a, rfl, h⟩
  | error e => cases h

/-! ### The block steps (R164, R165) -/

/-- The two values of an encode block: what it reads and the residuals it makes (R164). -/
theorem openEncode_ok {full : Bool} {s t : State} {v : Lanes Word} (h : openEncode full s = .ok (v, t)) :
    v = s.sourceBlock ∧ t = { s with
      resid := Predictor.residuals full s.pred (s.pred.deltas s.sourceBlock)
      hdr := headerOf (Predictor.residuals full s.pred (s.pred.deltas s.sourceBlock)) } := by
  unfold openEncode at h
  split at h
  · rename_i u hu
    obtain ⟨rfl, -⟩ := readValues_ok hu
    cases h
    exact ⟨rfl, rfl⟩
  · cases h

/-- What an encode block step that completes leaves (R164): the header word at DST + 4*b, the payload at DST + PCUR,
PCUR past it, the predictor advanced, and BLK one more. -/
theorem encodeBlock_ok {full : Bool} {s t : State} (h : encodeBlock full s = .ok t) :
    let e := encb full s.pred s.sourceBlock
    t = { s with
      mem := (s.mem.write (s.dst.toNat + s.headerOffset) 4 e.2.1).writeBytes (s.dst.toNat + s.pcur.toNat) e.2.2
      pcur := s.pcur + BitVec.ofNat 32 e.2.2.length
      pred := e.1
      blk := s.blk + 1
      stage := .boundary
      hdr := e.2.1
      resid := Predictor.residuals full s.pred (s.pred.deltas s.sourceBlock) } := by
  obtain ⟨⟨v, u⟩, ho, h⟩ := bind_ok h
  obtain ⟨rfl, rfl⟩ := openEncode_ok ho
  obtain ⟨u₁, hp, h⟩ := bind_ok h
  obtain ⟨-, rfl⟩ := putHeader_ok_iff.1 hp
  obtain ⟨u₂, hm, h⟩ := bind_ok h
  have := marshalBlock_ok hm
  subst this
  cases h
  rfl

theorem readHeader_ok {s : State} {h : Word} (hr : readHeader s = .ok h) :
    s.srcOk s.headerOffset 4 ∧ h = s.sourceHeader :=
  srcRead_ok_iff.1 hr

theorem Memory.readBytes_drop_take (m : Memory) {a k n total : Nat} (h : k + n ≤ total) :
    ((m.readBytes a total).drop k).take n = m.readBytes (a + k) n := by
  obtain ⟨rest, rfl⟩ := Nat.exists_eq_add_of_le h
  rw [Nat.add_assoc, ← Memory.readBytes_append, List.drop_left' (Memory.length_readBytes m a k),
    ← Memory.readBytes_append, List.take_left' (Memory.length_readBytes m (a + k) n)]

/-- Each lane's payload lies within the block's (R72, R144). -/
theorem laneOffset_add_width_le (h : Word) (k : Fin 8) : laneOffset h k + laneWidth h k ≤ blockAdvance h := by
  unfold laneOffset blockAdvance
  fin_cases k <;> simp [laneOrder] <;> omega

/-- What a decode block step that completes leaves (R165): the real lanes' words at DST + 32*b, PCUR past the payload,
the predictor advanced, and BLK one more. -/
theorem decodeBlock_ok {full : Bool} {s t : State} (h : decodeBlock full s = .ok t) :
    let e := decb full s.pred s.sourceHeader s.sourcePayload
    t = { s with
      mem := s.mem.writeBytes (s.dst.toNat + 32 * s.blk.toNat) (s.valueBytes e.2)
      pcur := s.pcur + BitVec.ofNat 32 (blockAdvance s.sourceHeader)
      pred := e.1
      blk := s.blk + 1
      stage := .boundary
      hdr := s.sourceHeader
      resid := residualsOf s.sourceHeader s.sourcePayload } := by
  obtain ⟨hw, hr, h⟩ := bind_ok h
  obtain ⟨-, rfl⟩ := readHeader_ok hr
  obtain ⟨u, hu, h⟩ := bind_ok h
  have hres : u.resid = residualsOf s.sourceHeader s.sourcePayload := by
    ext i hi : 1
    have := unmarshalBlock_resid hu ⟨i, hi⟩
    rw [show u.resid[(⟨i, hi⟩ : Fin 8)] = u.resid[i] from rfl] at this
    rw [this, residualsOf, Vector.getElem_ofFn, State.sourcePayload,
      Memory.readBytes_drop_take _ (laneOffset_add_width_le _ _), Nat.add_assoc]
  have hfr := unmarshalBlock_frame hu
  rw [hres] at hfr
  subst hfr
  obtain ⟨u₁, hw, h⟩ := bind_ok h
  have hm := writeValues_mem hw
  have hf := writeValues_frame hw
  cases h
  rw [hf]
  rw [hm]
  rfl

/-! ### The start step (R161) -/

/-- What a start step that is not refused leaves: a rejected job, for the first check that fails, or a running one. -/
theorem startStream_next {s t : State} (h : startStream s = .next t) :
    (∃ c ∈ [Cause.badN, .badWindow, .aliasing], t = takeFault c 0 (clearForStart s)) ∨
    (t = beginStream s ∧ s.n.toNat ≤ Config.nmax ∧ s.windowOverflows = false ∧ s.windowsAlias = false ∧
      s.windowOverDevice = false) := by
  unfold startStream rejectStart at h
  split at h
  · cases h
    exact .inl ⟨_, by simp, rfl⟩
  split at h
  · cases h
    exact .inl ⟨_, by simp, rfl⟩
  split at h
  · cases h
    exact .inl ⟨_, by simp, rfl⟩
  split at h
  · cases h
  · rename_i h₁ h₂ h₃ h₄
    cases h
    exact .inr ⟨rfl, by omega, by simpa using h₂, by simpa using h₃, by simpa using h₄⟩

/-- What a start step of UBOUND leaves. -/
theorem startUbound_next {s t : State} (h : startUbound s = .next t) :
    t = takeFault .badN 0 (clearForStart s) ∨
      (t = { clearForStart s with status := .busy } ∧ s.n.toNat ≤ Config.nmax) := by
  unfold startUbound rejectStart at h
  split at h <;> cases h
  · exact .inl rfl
  · exact .inr ⟨rfl, by omega⟩

/-! ### One step of a job (R163) -/

/-- What one step of an encode job can leave. -/
theorem stepEncode_next {full : Bool} {s t : State} (h : stepEncode full s = .next t) :
    (s.status ≠ .busy ∧ startStream s = .next t) ∨
    (s.status = .busy ∧ s.stage = .close ∧ t = finishEncode full s) ∨
    (s.status = .busy ∧ s.stage ≠ .close ∧ s.blk.toNat < s.blocks ∧
      (encodeBlock full s = .ok t ∨ ∃ c a, encodeBlock full s = .error (.raised c a) ∧ t = raiseInBlock c a s)) ∨
    (s.status = .busy ∧ s.stage ≠ .close ∧ s.blocks ≤ s.blk.toNat ∧ t = finishStream s) := by
  unfold stepEncode at h
  split at h
  · rename_i hb
    split at h
    · cases h
      exact .inr (.inl ⟨hb, ‹_›, rfl⟩)
    split at h
    · exact .inr (.inr (.inl ⟨hb, ‹_›, ‹_›, settle_next h⟩))
    · cases h
      exact .inr (.inr (.inr ⟨hb, ‹_›, by omega, rfl⟩))
  · exact .inl ⟨‹_›, h⟩

/-- What one step of a decode job can leave. -/
theorem stepDecode_next {full : Bool} {s t : State} (h : stepDecode full s = .next t) :
    (s.status ≠ .busy ∧ startStream s = .next t) ∨
    (s.status = .busy ∧ s.stage = .close ∧
      (finishDecode full s = .ok t ∨ ∃ c a, finishDecode full s = .error (.raised c a) ∧ t = raiseInBlock c a s)) ∨
    (s.status = .busy ∧ s.stage ≠ .close ∧ s.blk.toNat < s.blocks ∧
      (decodeBlock full s = .ok t ∨ ∃ c a, decodeBlock full s = .error (.raised c a) ∧ t = raiseInBlock c a s)) ∨
    (s.status = .busy ∧ s.stage ≠ .close ∧ s.blocks ≤ s.blk.toNat ∧ t = finishStream s) := by
  unfold stepDecode at h
  split at h
  · rename_i hb
    split at h
    · exact .inr (.inl ⟨hb, ‹_›, settle_next h⟩)
    split at h
    · exact .inr (.inr (.inl ⟨hb, ‹_›, ‹_›, settle_next h⟩))
    · cases h
      exact .inr (.inr (.inr ⟨hb, ‹_›, by omega, rfl⟩))
  · exact .inl ⟨‹_›, h⟩

/-- What ends a decode block step (R165). -/
theorem finishDecode_ok {full : Bool} {s t : State} (h : finishDecode full s = .ok t) :
    let d := Predictor.unresiduals full s.pred s.resid
    let v := s.pred.values d
    t = { s with
      mem := s.mem.writeBytes (s.dst.toNat + 32 * s.blk.toNat) (s.valueBytes v)
      pred := s.pred.advance full v d
      blk := s.blk + 1
      stage := .boundary } := by
  obtain ⟨u, hw, h⟩ := bind_ok h
  have hm := writeValues_mem hw
  have hf := writeValues_frame hw
  cases h
  rw [hf, hm]
  rfl

/-! ### The stream's rows (R142, R143, R145) -/

theorem thenStage_ok {g : Stage} {r : Except Stop State} {t : State} (h : thenStage g r = .ok t) :
    ∃ u, r = .ok u ∧ t = { u with stage := g } := by
  unfold thenStage at h
  split at h <;> cases h
  exact ⟨_, rfl, rfl⟩

theorem thenStage_error {g : Stage} {r : Except Stop State} {e : Stop} (h : thenStage g r = .error e) :
    r = .error e := by
  unfold thenStage at h
  split at h <;> cases h
  rfl

/-- What one lane descriptor can leave. -/
theorem stepLane_next {w : Nat} {tz : BitVec 2} {s t : State} (h : stepLane w tz s = .next t) :
    t = s ∨
    (∃ k, s.stage = .lane k ∧ jobDirection s = some .encode ∧ s.dstOk s.pcur.toNat w ∧
      t = { s with
        mem := s.mem.write (s.dst.toNat + s.pcur.toNat) w (s.resid[k] >>> (8 * tz.toNat))
        pcur := s.pcur + BitVec.ofNat 32 w
        stage := afterLane k }) ∨
    (∃ k, s.stage = .lane k ∧ jobDirection s = some .decode ∧ s.srcOk s.pcur.toNat w ∧
      t = { s with
        pcur := s.pcur + BitVec.ofNat 32 w
        resid := s.resid.set k.val (unstrip tz (s.mem.readBytes (s.src.toNat + s.pcur.toNat) w))
        stage := afterLane k }) ∨
    (jobDirection s ≠ none ∧ ∃ c a, t = raiseInBlock c a s) := by
  unfold stepLane at h
  split at h
  · rename_i k hd hg
    rcases settle_next h with hr | ⟨c, a, -, rfl⟩
    · obtain ⟨u, hu, rfl⟩ := thenStage_ok hr
      obtain ⟨hok, rfl⟩ := marshalLane_ok_iff.1 hu
      exact .inr (.inl ⟨k, hg, hd, hok, rfl⟩)
    · exact .inr (.inr (.inr ⟨by simp [hd], c, a, rfl⟩))
  · rename_i k hd hg
    rcases settle_next h with hr | ⟨c, a, -, rfl⟩
    · obtain ⟨u, hu, rfl⟩ := thenStage_ok hr
      obtain ⟨hok, rfl⟩ := unmarshalLane_ok_iff.1 hu
      exact .inr (.inr (.inl ⟨k, hg, hd, hok, rfl⟩))
    · exact .inr (.inr (.inr ⟨by simp [hd], c, a, rfl⟩))
  · cases h
    exact .inl rfl

/-- What a block header word can leave. -/
theorem execBlkhdr_next {lz tz : Lanes (BitVec 2)} {s t : State} (h : execBlkhdr lz tz s = .next t) :
    t = s ∨
    (jobDirection s = some .encode ∧ s.dstOk s.headerOffset 4 ∧
      t = { s with
        mem := s.mem.write (s.dst.toNat + s.headerOffset) 4 (packHdr lz tz)
        hdr := packHdr lz tz
        stage := .lane 0 }) ∨
    (jobDirection s = some .decode ∧ t = { s with hdr := packHdr lz tz, stage := .lane 0 }) ∨
    (jobDirection s ≠ none ∧ ∃ c a, t = raiseInBlock c a s) := by
  unfold execBlkhdr at h
  split at h
  · rename_i hd
    rcases settle_next h with hr | ⟨c, a, -, rfl⟩
    · obtain ⟨u, hu, rfl⟩ := thenStage_ok hr
      obtain ⟨hok, rfl⟩ := putHeader_ok_iff.1 hu
      exact .inr (.inl ⟨hd, hok, rfl⟩)
    · exact .inr (.inr (.inr ⟨by simp [hd], c, a, rfl⟩))
  · cases h
    exact .inr (.inr (.inl ⟨‹_›, rfl⟩))
  · cases h
    exact .inl rfl

/-! ### The host's turns (R22, R36, R240) -/

/-- A defined register write leaves a BUSY engine alone, and otherwise does what the register map says (R22, R36). -/
theorem hostWrite_next {offset size : Nat} {v : Word} {s t : State} (h : hostWrite offset size v s = .next t) :
    accessDefined offset size = true ∧ ((s.status = .busy ∧ t = s) ∨ (s.status ≠ .busy ∧ t = putRegister offset v s)) := by
  unfold hostWrite at h
  split at h
  · cases h
  · rename_i hd
    refine ⟨by simpa using hd, ?_⟩
    split at h <;> cases h
    · exact .inl ⟨‹_›, rfl⟩
    · exact .inr ⟨‹_›, rfl⟩

/-- A register write keeps everything but the register it names. -/
theorem putRegister_frame (offset : Nat) (v : Word) (s : State) :
    putRegister offset v s = { s with
      start := (putRegister offset v s).start
      cmd := (putRegister offset v s).cmd
      n := (putRegister offset v s).n
      src := (putRegister offset v s).src
      srcLen := (putRegister offset v s).srcLen
      dst := (putRegister offset v s).dst
      dstLen := (putRegister offset v s).dstLen } := by
  unfold putRegister
  split <;> (try split) <;> rfl

/-- A defined register read changes what the read returned, and nothing the engine sees (R22). -/
theorem hostRead_next {offset size : Nat} {s t : State} (h : hostRead offset size s = .next t) :
    accessDefined offset size = true ∧
      t = { s with hostData := t.hostData, blkSeen := t.blkSeen, unread := t.unread, freeCtr := t.freeCtr } ∧ s.freeCtr ≤ t.freeCtr := by
  unfold hostRead at h
  split at h
  · cases h
  · rename_i hd
    refine ⟨by simpa using hd, ?_⟩
    split at h <;> cases h
    · exact ⟨rfl, Nat.le_succ _⟩
    · exact ⟨rfl, Nat.le_refl _⟩

/-- Another agent's write that is not refused changes one byte, outside every window that is the engine's. -/
theorem otherWrite_next {a : Word} {b : Byte} {s t : State} (h : otherWrite a b s = .next t) :
    (∀ w ∈ engineWindows s, w.inSource a.toNat = false ∧ w.inDestination a.toNat = false) ∧
      t = { s with mem := s.mem.writeByte a.toNat b } := by
  unfold otherWrite at h
  split at h
  · cases h
  · rename_i hr
    cases h
    refine ⟨fun w hw => ?_, rfl⟩
    simp only [List.any_eq_true, not_exists, not_and, Bool.or_eq_true, not_or, Bool.not_eq_true] at hr
    exact hr w hw

/-- The windows of the running streaming job are the engine's. -/
theorem windows_mem_engineWindows {s : State} (h : jobDirection s ≠ none) : s.windows ∈ engineWindows s := by
  simp [engineWindows, h]

/-- Another agent's read that is not refused changes what the read returned. -/
theorem otherRead_next {a : Word} {s t : State} (h : otherRead a s = .next t) :
    t = { s with hostData := (s.mem.readByte a.toNat).setWidth 32 } := by
  unfold otherRead at h
  split at h <;> cases h
  rfl

end Sys2Proof.Machine
end

