-- ==== Sys2Proof/Laws/PerInstr.lean ====
section
/-! SUPPORT. What is stated of every instruction, one lemma per constructor. -/

namespace Sys2Proof.Laws

/-- The length of an encoding is its format's: 4 bytes for a command word and a block header word (30_encoding.md R70,
R74), one byte for a descriptor of the tables (R75). -/
def EncodeLength.Statement (i : Instr) : Prop :=
  (encode i).length = match i.format with
    | .cmd => 4
    | .hdr => 4
    | .desc => 1

theorem EncodeLength.enc : EncodeLength.Statement .enc := rfl

theorem EncodeLength.dec : EncodeLength.Statement .dec := rfl

theorem EncodeLength.encq : EncodeLength.Statement .encq := rfl

theorem EncodeLength.decq : EncodeLength.Statement .decq := rfl

theorem EncodeLength.ubound : EncodeLength.Statement .ubound := rfl

theorem EncodeLength.blkhdr (lz tz : Lanes (BitVec 2)) : EncodeLength.Statement (.blkhdr lz tz) := rfl

theorem EncodeLength.laneW4 (tz : BitVec 2) : EncodeLength.Statement (.laneW4 tz) := rfl

theorem EncodeLength.laneW3 (tz : BitVec 2) : EncodeLength.Statement (.laneW3 tz) := rfl

theorem EncodeLength.laneW2 (tz : BitVec 2) : EncodeLength.Statement (.laneW2 tz) := rfl

theorem EncodeLength.laneW0 (tz : BitVec 2) : EncodeLength.Statement (.laneW0 tz) := rfl

end Sys2Proof.Laws
end

