-- ==== Sys2Proof/Tests/Slice0.lean ====
section
/-! SUPPORT. Small tests: encodings written out from the spec, single steps on the spec's own vectors
(95_test_vectors.md), and for each statement with hypotheses a state that meets them all. -/

namespace Sys2Proof.Tests

open Sys2Proof Sys2Proof.Machine

-- One test after another: evaluated side by side they need more threads than a checker's memory limit has stacks for.
set_option Elab.async false

/-! ### Helpers -/

/-- The outcome is a next state with a property. -/
def onNext (p : State → Bool) : Host.Outcome State Fault Refusal → Bool
  | .next t => p t
  | .fault _ => false
  | .refused _ => false

theorem next_of_onNext {p : State → Bool} {o : Host.Outcome State Fault Refusal} (h : onNext p o = true) :
    ∃ t, o = .next t ∧ p t = true := by
  cases o with
  | next t => exact ⟨t, rfl, h⟩
  | fault r => cases h
  | refused r => cases h

/-- Memory that reads 0 wherever nothing is listed, with bytes put at an address. -/
def memOf (a : Nat) (bytes : List Byte) : Memory := Memory.writeBytes ⟨[], []⟩ a bytes

/-- The command words (R70). -/
def opENC : Word := 0
def opDEC : Word := 1
def opENCQ : Word := 2
def opDECQ : Word := 3
def opUBOUND : Word := 4

/-- A running job of `n` values at a block boundary, source window at 0x1000, destination window at 0x2000. -/
def job (cmd n srcLen dstLen : Word) (src : List Byte) : State :=
  { State.reset with
    status := .busy, cmd := cmd, n := n, src := 0x1000, srcLen := srcLen, dst := 0x2000, dstLen := dstLen
    pcur := BitVec.ofNat 32 (headerBytes n.toNat), mem := memOf 0x1000 src }

/-- A job not yet started: START pending. -/
def pending (cmd n srcLen dstLen : Word) (src : List Byte) : State :=
  { job cmd n srcLen dstLen src with status := .idle, start := true, pcur := 0 }

/-! ### Decoding: words written out from 30_encoding.md -/

theorem test_decode_enc : decodeTableWord 32 0b00000000000000000000000000000000 = some .enc := by decide
theorem test_decode_dec : decodeTableWord 32 0b00000000000000000000000000000001 = some .dec := by decide
theorem test_decode_encq : decodeTableWord 32 0b00000000000000000000000000000010 = some .encq := by decide
theorem test_decode_decq : decodeTableWord 32 0b00000000000000000000000000000011 = some .decq := by decide
theorem test_decode_ubound : decodeTableWord 32 0b00000000000000000000000000000100 = some .ubound := by decide

/-- Row 7 of the header table of 95_test_vectors.md 2.6: tz of lanes 7..0, then lz of lanes 7..0. -/
theorem test_decode_blkhdr : decodeTableWord 32 0b11_00_01_00_00_00_11_10_11_00_01_01_00_10_10_10 =
    some (.blkhdr #v[2, 2, 2, 0, 1, 1, 0, 3] #v[2, 3, 0, 0, 0, 1, 0, 3]) := by decide
theorem test_decode_laneW4 : decodeTableWord 8 0b01_00 = some (.laneW4 1) := by decide
theorem test_decode_laneW3 : decodeTableWord 8 0b10_01 = some (.laneW3 2) := by decide
theorem test_decode_laneW2 : decodeTableWord 8 0b11_10 = some (.laneW2 3) := by decide
theorem test_decode_laneW0 : decodeTableWord 8 0b00_11 = some (.laneW0 0) := by decide

/-- The bytes of a header word on the wire (R145's example). -/
theorem test_encode_blkhdr :
    encode (.blkhdr #v[2, 3, 3, 3, 3, 3, 3, 3] #v[2, 3, 3, 3, 3, 3, 3, 3]) = [0xFE, 0xFF, 0xFE, 0xFF] := by decide
theorem test_encode_ubound : encode .ubound = [4, 0, 0, 0] := by decide

/-- Refusals by name (R70, R75). -/
theorem test_refuse_reserved_bit : decode .cmd [0x08, 0, 0, 0] = .error .reservedBits := by rfl
theorem test_refuse_top_bit : decode .cmd [0x00, 0, 0, 0x80] = .error .reservedBits := by rfl
theorem test_refuse_opc5 : decode .cmd [0x05, 0, 0, 0] = .error .reservedOpc := by rfl
theorem test_refuse_short : decode .hdr [0xFE, 0xFF, 0xFE] = .error .truncated := by rfl
theorem test_refuse_descriptor : decode .desc [0x10] = .error .notADescriptor := by rfl

/-- WellFormed: lanes that the canonical check refuses, one for each of its conditions (R77; 95_test_vectors.md 2.5). -/
theorem test_canonical_lane : canonicalLane 3 2 [0x80, 0x00] = true ∧ canonicalLane 0 0 [0x78, 0x56, 0x34, 0x12] = true := by
  decide
theorem test_not_canonical_descriptor : canonicalLane 0 3 [] = false ∧ canonicalLane 1 0 [0x78, 0x56, 0x34, 0x12] = false := by
  decide
theorem test_not_canonical_width4 : canonicalLane 0 0 [0, 0, 0, 0] = false ∧ canonicalLane 0 0 [1, 0, 0, 0] = false := by
  decide
theorem test_not_canonical_width3 : canonicalLane 0 1 [1, 2, 0] = false ∧ canonicalLane 1 1 [0, 2, 3] = false := by decide
theorem test_not_canonical_width2 : canonicalLane 0 2 [0, 1] = false ∧ canonicalLane 3 2 [0x80, 0x3F] = false := by decide

/-! ### The lane codec, the predictor and the header (95_test_vectors.md 2.2, 2.4 to 2.6) -/

theorem test_strip : ([0x3F800000, 0x12345678, 0x00ABCDEF, 0xABCDEF00, 0x00000001, 0x80000000, 0] : List Word).map
      (fun r => ((strip r).tz.toNat, (strip r).lz.toNat, (strip r).width, (strip r).payload)) =
    [(2, 2, 2, [0x80, 0x3F]), (0, 0, 4, [0x78, 0x56, 0x34, 0x12]), (0, 1, 3, [0xEF, 0xCD, 0xAB]),
      (1, 1, 3, [0xEF, 0xCD, 0xAB]), (0, 2, 2, [0x01, 0x00]), (3, 2, 2, [0x80, 0x00]), (3, 3, 0, [])] := by decide

theorem test_unstrip : unstrip 1 [0x78, 0x56, 0x34, 0x12] = 0x34567800 ∧ unstrip 2 [0xEF, 0xCD, 0xAB] = 0xCDEF0000 ∧
    unstrip 3 [0x80, 0x3F] = 0x80000000 := by decide

theorem test_hash : ([0x3F800000, 0x12345678, 0xABCDEF00, 0xFFFFFFFF, 0x0000FF00, 0x00FF00FF] : List Word).map
    Sys2Proof.Machine.hash = [0x3F, 0x44, 0x44, 0x00, 0xFF, 0x00] := by decide

/-- V-X0: block 0 of deltas 1..8 leaves lane 7's delta in entry 0, and every XPRIOR gathers it. -/
theorem test_store_collision :
    (Predictor.zero.updateTable #v[1, 2, 3, 4, 5, 6, 7, 8]).xprior = Lanes.same 8 := by decide +kernel

/-! ### One step of each instruction -/

/-- V-S4, block 0 of `ENC N=8`, eight 1.0f: the header, the payload and PCUR. -/
theorem test_enc_block : onNext (fun t => t.status == .busy && t.pcur == 20 && t.blk == 1 &&
      t.mem.readBytes 0x2000 8 == [0xAA, 0xAA, 0xAA, 0xAA, 0x80, 0x3F, 0x80, 0x3F] && t.pred.idx == Lanes.same 0x3F)
    (exec .enc (job opENC 8 32 36 ((List.replicate 8 [0, 0, 0x80, 0x3F]).flatten))) = true := by decide +kernel

/-- P1, block 0 of `ENCQ N=8`: every width. -/
theorem test_encq_block : onNext (fun t => t.pcur == 24 && t.mem.readBytes 0x2000 24 ==
      [0x2A, 0xC5, 0x0E, 0xC4, 0x80, 0x3F, 0x80, 0x00, 0x01, 0x00, 0x78, 0x56, 0x34, 0x12, 0xEF, 0xCD, 0xAB, 0xEF, 0xCD,
        0xAB, 0x01, 0x00, 0xC0, 0x7F])
    (exec .encq (job opENCQ 8 32 36
      [0, 0, 0x80, 0x3F, 0, 0, 0, 0x80, 1, 0, 0, 0, 0x78, 0x56, 0x34, 0x12, 0xEF, 0xCD, 0xAB, 0, 0, 0xEF, 0xCD, 0xAB,
        1, 0, 0xC0, 0x7F, 0, 0, 0, 0])) = true := by decide +kernel

/-- The third fault row of `ENCQ N=3` in 95_test_vectors.md 2.9: DST_BOUNDS at lane 2's payload. -/
theorem test_encq_dst_bounds : onNext (fun t => t.status == .err && t.cause == .dstBounds && t.faddr == 0x2008 && t.blk == 0)
    (exec .encq (job opENCQ 3 12 9 [0, 0, 0x80, 0x3F, 0, 0, 0, 0x40, 0, 0, 0x40, 0x40])) = true := by decide +kernel

/-- Block 2 of P2's DEC: `r = 3F800000`, XPRIOR the same, so the delta is 0 and the values are PRIOR's. -/
theorem test_dec_block : onNext (fun t => t.pcur == 44 && t.mem.readBytes 0x2040 4 == [0, 0, 0x80, 0x3F])
    (exec .dec { job opDEC 24 44 96 ([0, 0, 0, 0, 0, 0, 0, 0] ++ [0xAA, 0xAA, 0xAA, 0xAA] ++ List.replicate 16 0 ++
        (List.replicate 8 [0x80, 0x3F]).flatten) with
      blk := 2, pcur := 28
      pred := { Predictor.zero with prior := Lanes.same 0x3F800000, xprior := Lanes.same 0x3F800000 } }) = true := by
  decide +kernel

/-- V-J6: a non-canonical stream decodes by the formulas. -/
theorem test_decq_noncanonical : onNext (fun t => t.pcur == 8 && t.mem.readBytes 0x2000 4 == [0x00, 0x78, 0x56, 0x34])
    (exec .decq (job opDECQ 8 8 32 [0xFC, 0xFF, 0x01, 0x00, 0x78, 0x56, 0x34, 0x12])) = true := by decide +kernel

/-- `DECQ N=3` with 7 source bytes: SRC_BOUNDS at lane 1's payload (95_test_vectors.md 2.9). -/
theorem test_decq_src_bounds : onNext (fun t => t.cause == .srcBounds && t.faddr == 0x1006)
    (exec .decq (job opDECQ 3 7 12 [0xEA, 0xFF, 0xEE, 0xFF, 0x80, 0x3F, 0x40])) = true := by decide +kernel

/-- V-J7: `UBOUND N=9` is 41. -/
theorem test_ubound_finish : onNext (fun t => t.status == .done && t.result == 41) (exec .ubound (job opUBOUND 9 0 0 [])) =
    true := by decide +kernel

/-- BAD_N comes before BAD_WINDOW, BAD_WINDOW before ALIAS (95_test_vectors.md 2.9). -/
theorem test_start_order :
    onNext (fun t => t.cause == .badN) (exec .enc { pending opENC 0x10000001 0x20 0 [] with src := 0xFFFFFFF0 }) = true ∧
    onNext (fun t => t.cause == .badWindow)
      (exec .enc { pending opENC 0 0x20 4 [] with src := 0xFFFFFFF0, dst := 0xFFFFFFF8 }) = true := by
  decide +kernel

/-- A header row in a decode job, and a lane row of each width in an encode job, as the first instruction after reset. -/
theorem test_step_blkhdr : onNext (fun t => t.hdr == 0xFFFEFFFE && t.stage == .lane 0)
    (step (State.reset.withFetchWord 32 0xFFFEFFFE)) = true := by decide +kernel

theorem test_step_enc : onNext (fun t => t.status == .busy) (step (State.reset.withFetchWord 32 0)) = true := by
  decide +kernel

theorem test_step_laneW4 : onNext (fun t => t.pcur == 8 && t.stage == .lane 1) (step (State.reset.withFetchWord 8 0b01_00)) =
    true := by decide +kernel

theorem test_step_laneW0 : onNext (fun t => t.pcur == 4 && t.stage == .lane 1) (step (State.reset.withFetchWord 8 0b00_11)) =
    true := by decide +kernel

theorem test_laneW3_decode : onNext (fun t => t.pcur == 7 && t.resid[0] == 0xABCDEF00)
    (exec (.laneW3 1) { job opDECQ 8 36 32 [0, 0, 0, 0, 0xEF, 0xCD, 0xAB] with stage := .lane 0 }) = true := by
  decide +kernel

theorem test_laneW2_encode : onNext (fun t => t.pcur == 6 && t.mem.readBytes 0x2004 2 == [0x80, 0x3F])
    (exec (.laneW2 2) { job opENCQ 8 32 36 [] with stage := .lane 0, resid := Lanes.same 0x3F800000 }) = true := by
  decide +kernel

/-- An illegal command word faults; a register read of STATUS gives STATE and CAUSE in their places (R22). -/
theorem test_illegal : onNext (fun t => t.cause == .illegalCmd) (step (pending 5 0 0 0 [])) = true := by decide +kernel

theorem test_status_word : statusWord .err .bus = 0x73 := by decide

/-! ### Witnesses: a state that meets the hypotheses of each statement -/

theorem witness_DecodeEncodeAgree : (Instr.blkhdr (Lanes.same 3) (Lanes.same 3)).wf = true := rfl

theorem witness_CommandWordsAreFive :
    4 < (5#32).toNat ∧ 4 < (0xFFFFFFFF#32).toNat ∧ (0#32).toNat = 0 ∧ (1#32).toNat = 1 ∧ (2#32).toNat = 2 ∧
      (3#32).toNat = 3 ∧ (4#32).toNat = 4 ∧ decodeCmd 3 = .ok .decq := ⟨by decide, by decide, rfl, rfl, rfl, rfl, rfl, rfl⟩

theorem witness_ZeroBitCounts : (1#32) ≠ 0 ∧ (0x80000000#32) ≠ 0 := by decide

theorem witness_LaneCodecInverse : ([0x78, 0x56, 0x34, 0x12] : List Byte).length = width 0 ∧ ([] : List Byte).length = width 3 :=
  by decide

theorem witness_BlockAdvanceRange : (0 = 0 ∨ (2 ≤ 0 ∧ 0 ≤ 32)) ∧ (32 = 0 ∨ (2 ≤ 32 ∧ 32 ≤ 32)) := by decide

theorem witness_HighestLaneRemains : let p := Predictor.zero
    (p.idx[(7 : Fin 8)] = 0 ∧ ∀ j : Fin 8, 7 < j → p.idx[j] ≠ 0) ∧ ∀ k : Fin 8, p.idx[k] ≠ 255 := by decide

theorem witness_StreamRoundTrip : ([1, 2, 3] : List Word).length ≤ Config.nmax := by decide

theorem witness_LittleEndianReadsBack :
    (memOf 0 [1]).wf ∧ 4 ≤ 4 ∧ 0xFFFFFFFC + 4 ≤ Config.addressSpace ∧ 0 ≤ 4 ∧ Config.addressSpace + 0 ≤ Config.addressSpace := by
  decide

/-- Both windows end at the top of what is allowed: the largest N, and the source window at the top of memory. -/
def startState : State :=
  { pending opENC 0x10000000 0x10 0x10 [] with src := 0xFFFFFFF0, dst := 0xFFFFFFE0 }

theorem witness_StreamStartAccepted : let s := startState
    streamVariant .enc = some true ∧ s.status ≠ .busy ∧ s.n.toNat ≤ 2 ^ 28 ∧ s.src.toNat + s.srcLen.toNat ≤ 2 ^ 32 ∧
    s.dst.toNat + s.dstLen.toNat ≤ 2 ^ 32 ∧
    ¬(0 < s.srcLen.toNat ∧ 0 < s.dstLen.toNat ∧ s.src.toNat < s.dst.toNat + s.dstLen.toNat ∧
      s.dst.toNat < s.src.toNat + s.srcLen.toNat) ∧ s.windowOverDevice = false := by decide

theorem witness_StreamStartRejected_badN : let s := { startState with n := 0x10000001 }
    streamVariant .dec = some true ∧ s.status ≠ .busy ∧ 2 ^ 28 < s.n.toNat := by decide

theorem witness_StreamStartRejected_badWindow : let s := { startState with srcLen := 0x11 }
    streamVariant .encq = some false ∧ s.status ≠ .busy ∧ s.n.toNat ≤ 2 ^ 28 ∧ 2 ^ 32 < s.src.toNat + s.srcLen.toNat := by
  decide

theorem witness_StreamStartRejected_alias : let s := { startState with dstLen := 0x11 }
    streamVariant .decq = some false ∧ s.status ≠ .busy ∧ s.n.toNat ≤ 2 ^ 28 ∧ s.src.toNat + s.srcLen.toNat ≤ 2 ^ 32 ∧
    s.dst.toNat + s.dstLen.toNat ≤ 2 ^ 32 ∧ 0 < s.srcLen.toNat ∧ 0 < s.dstLen.toNat ∧
    s.src.toNat < s.dst.toNat + s.dstLen.toNat ∧ s.dst.toNat < s.src.toNat + s.srcLen.toNat := by decide

theorem witness_IllegalCommandFaults : 4 < ((5#32).extractLsb' 0 3).toNat ∧
    (8#32).extractLsb' 3 29 ≠ 0 ∧ (0x80000000#32).extractLsb' 3 29 ≠ 0 ∧
    (pending 5 0 0 0 []).turns = [] ∧ (pending 5 0 0 0 []).status ≠ .busy ∧ (pending 5 0 0 0 []).start = true :=
  ⟨by decide, by decide, by decide, rfl, by decide, rfl⟩

theorem witness_UboundStart : (pending opUBOUND 0x10000000 0 0 []).status ≠ .busy ∧
    (pending opUBOUND 0x10000000 0 0 []).n.toNat ≤ 2 ^ 28 ∧ 2 ^ 28 < (pending opUBOUND 0x10000001 0 0 []).n.toNat := by decide

theorem witness_UboundResult : (job opUBOUND 0x10000000 0 0 []).status = .busy ∧
    (job opUBOUND 0x10000000 0 0 []).n.toNat ≤ 2 ^ 28 := by decide

theorem witness_StreamFinish : let s := { job opENC 8 32 36 [] with blk := 1 }
    streamVariant .enc = some true ∧ s.status = .busy ∧ s.stage = .boundary ∧ (s.n.toNat + 7) / 8 ≤ s.blk.toNat := by decide

/-- `ENCQ N=9`: block 1 has one real lane; every value 0. -/
def encState : State := { job opENCQ 9 36 72 [] with blk := 1 }

/-- `DECQ N=9`: block 1, its header word all (3,3). -/
def decState : State := { job opDECQ 9 8 36 [0xFF, 0xFF, 0xFF, 0xFF, 0xFF, 0xFF, 0xFF, 0xFF] with blk := 1 }

theorem witness_EncodeBlockStep : let s := encState
    let h := (encb false s.pred s.sourceBlock).2.1
    encodeVariant .encq = some false ∧ s.atBlock ∧ (∀ k : Fin 8, k.val < s.realLanes → s.srcOk (s.valueOffset k) 4) ∧
    s.dstOk s.headerOffset 4 ∧ ∀ k : Fin 8, s.dstOk (s.pcur.toNat + laneOffset h k) (laneWidth h k) := by
  decide +kernel

/-- One block whose payloads fill the destination window to its last byte, on a platform that refuses other addresses. -/
def fullState : State :=
  { job opENCQ 3 12 10 [0, 0, 0x80, 0x3F, 0, 0, 0, 0x40, 0, 0, 0x40, 0x40] with
    plat := ⟨[⟨0x200A, 0x20000, 0, 4, .write⟩], []⟩ }

theorem witness_EncodeBlockStep_full : let s := fullState
    let h := (encb false s.pred s.sourceBlock).2.1
    s.atBlock ∧ (∀ k : Fin 8, k.val < s.realLanes → s.srcOk (s.valueOffset k) 4) ∧ s.dstOk s.headerOffset 4 ∧
    (∀ k : Fin 8, s.dstOk (s.pcur.toNat + laneOffset h k) (laneWidth h k)) ∧ laneWidth h 2 = 2 := by decide +kernel

theorem witness_DecodeBlockStep : let s := decState
    decodeVariant .decq = some false ∧ s.atBlock ∧ s.srcOk s.headerOffset 4 ∧
    (∀ k : Fin 8, s.srcOk (s.pcur.toNat + laneOffset s.sourceHeader k) (laneWidth s.sourceHeader k)) ∧
    ∀ k : Fin 8, k.val < s.realLanes → s.dstOk (s.valueOffset k) 4 := by decide +kernel

theorem witness_EncodeBlockFrame : encodeVariant .encq = some false ∧ encState.atBlock ∧ encState.turns = [] ∧
    decodeCmd encState.cmd = .ok .encq ∧
    ∃ t, exec .encq encState = .next t ∧ (t.status == .busy) = true :=
  ⟨rfl, by decide, rfl, rfl, next_of_onNext (by decide +kernel)⟩

theorem witness_DecodeBlockFrame : decodeVariant .decq = some false ∧ decState.atBlock ∧ decState.turns = [] ∧
    decodeCmd decState.cmd = .ok .decq ∧
    ∃ t, exec .decq decState = .next t ∧ (t.status == .busy) = true :=
  ⟨rfl, by decide, rfl, rfl, next_of_onNext (by decide +kernel)⟩

/-- The source window one byte short of the third value. -/
theorem witness_EncodeSourceShort : let s := job opENCQ 3 11 36 []
    encodeVariant .encq = some false ∧ s.atBlock ∧ (2 : Fin 8).val < s.realLanes ∧
    (∀ j : Fin 8, j < 2 → s.srcOk (s.valueOffset j) 4) ∧ s.srcLen.toNat < 4 * (8 * s.blk.toNat + (2 : Fin 8).val) + 4 := by
  decide +kernel

theorem witness_EncodeHeaderShort : let s := job opENCQ 3 12 3 []
    encodeVariant .encq = some false ∧ s.atBlock ∧ (∀ k : Fin 8, k.val < s.realLanes → s.srcOk (s.valueOffset k) 4) ∧
    s.dstLen.toNat < 4 * s.blk.toNat + 4 := by decide +kernel

/-- A platform that refuses reads at the header's address. -/
def deniedState : State := { job opDECQ 8 4 32 [] with plat := ⟨[⟨0x1000, 0x1001, 4, 4, .read⟩], []⟩ }

theorem witness_DecodeHeaderRefused : decodeVariant .decq = some false ∧
    (let s := job opDECQ 8 3 32 []; s.atBlock ∧ s.srcLen.toNat < 4 * s.blk.toNat + 4) ∧
    (let s := deniedState; s.atBlock ∧ 4 * s.blk.toNat + 4 ≤ s.srcLen.toNat ∧
      s.plat.admits (s.src.toNat + 4 * s.blk.toNat) 4 .read = false) := by decide +kernel

/-- The source window ends one byte into the last lane's payload; the header word is 0: eight lanes of width 4. -/
theorem witness_DecodePayloadShort : let s := job opDECQ 8 33 32 []
    decodeVariant .decq = some false ∧ s.atBlock ∧ s.srcOk s.headerOffset 4 ∧
    (∀ j : Fin 8, j < 7 → s.srcOk (s.pcur.toNat + laneOffset s.sourceHeader j) (laneWidth s.sourceHeader j)) ∧
    laneWidth s.sourceHeader 7 ≠ 0 ∧
    s.srcLen.toNat < s.pcur.toNat + laneOffset s.sourceHeader 7 + laneWidth s.sourceHeader 7 := by decide +kernel

/-- The platform refuses accesses of a kind at one address. -/
def denyAt (a : Nat) (kind : AccessKind) : Platform := ⟨[⟨a, a + 1, 0, 4, kind⟩], []⟩

theorem witness_EncodeAccessRefused_value : let s := { fullState with plat := denyAt 0x1008 .read }
    encodeVariant .encq = some false ∧ s.atBlock ∧ (2 : Fin 8).val < s.realLanes ∧
    (∀ j : Fin 8, j < 2 → s.srcOk (s.valueOffset j) 4) ∧ s.valueOffset 2 + 4 ≤ s.srcLen.toNat ∧
    s.plat.admits (s.src.toNat + s.valueOffset 2) 4 .read = false := by decide +kernel

theorem witness_EncodeAccessRefused_header : let s := { fullState with plat := denyAt 0x2000 .write }
    s.atBlock ∧ (∀ j : Fin 8, j.val < s.realLanes → s.srcOk (s.valueOffset j) 4) ∧
    s.headerOffset + 4 ≤ s.dstLen.toNat ∧ s.plat.admits (s.dst.toNat + s.headerOffset) 4 .write = false := by
  decide +kernel

theorem witness_EncodeAccessRefused_payload :
    let h := (encb false fullState.pred fullState.sourceBlock).2.1
    let off := fullState.pcur.toNat + laneOffset h 2
    (∀ s ∈ [{ fullState with dstLen := 9 }, { fullState with plat := denyAt 0x2008 .write }],
      s.atBlock ∧ (∀ j : Fin 8, j.val < s.realLanes → s.srcOk (s.valueOffset j) 4) ∧ s.dstOk s.headerOffset 4 ∧
      (∀ j : Fin 8, j < 2 → s.dstOk (s.pcur.toNat + laneOffset h j) (laneWidth h j))) ∧ laneWidth h 2 ≠ 0 ∧
    ({ fullState with dstLen := 9 } : State).dstLen.toNat < off + laneWidth h 2 ∧
    off + laneWidth h 2 ≤ fullState.dstLen.toNat ∧
    (denyAt 0x2008 .write).admits (fullState.dst.toNat + off) (laneWidth h 2) .write = false := by decide +kernel

/-- Eight lanes of width 4, the last of them at the end of the source window. -/
theorem witness_DecodeAccessRefused_payload : let s := { job opDECQ 8 36 32 [] with plat := denyAt 0x1020 .read }
    let off := s.pcur.toNat + laneOffset s.sourceHeader 7
    decodeVariant .decq = some false ∧ s.atBlock ∧ s.srcOk s.headerOffset 4 ∧
    (∀ j : Fin 8, j < 7 → s.srcOk (s.pcur.toNat + laneOffset s.sourceHeader j) (laneWidth s.sourceHeader j)) ∧
    laneWidth s.sourceHeader 7 ≠ 0 ∧ off + laneWidth s.sourceHeader 7 ≤ s.srcLen.toNat ∧
    s.plat.admits (s.src.toNat + off) (laneWidth s.sourceHeader 7) .read = false := by decide +kernel

theorem witness_DecodeAccessRefused_value :
    (∀ s ∈ [job opDECQ 3 36 11 [], { job opDECQ 3 36 12 [] with plat := denyAt 0x2008 .write }],
      s.atBlock ∧ s.srcOk s.headerOffset 4 ∧
      (∀ j : Fin 8, s.srcOk (s.pcur.toNat + laneOffset s.sourceHeader j) (laneWidth s.sourceHeader j)) ∧
      (2 : Fin 8).val < s.realLanes ∧ ∀ j : Fin 8, j < 2 → s.dstOk (s.valueOffset j) 4) ∧
    (11#32).toNat < (job opDECQ 3 36 11 []).valueOffset 2 + 4 ∧ (job opDECQ 3 36 12 []).valueOffset 2 + 4 ≤ (12#32).toNat ∧
    (denyAt 0x2008 .write).admits (0x2000 + (job opDECQ 3 36 12 []).valueOffset 2) 4 .write = false := by decide +kernel

theorem witness_FaultEntryFrame : (job opDECQ 8 3 32 []).status = .busy ∧
    ∃ t, exec .decq (job opDECQ 8 3 32 []) = .next t ∧ (t.status == .err) = true :=
  ⟨rfl, next_of_onNext (by decide +kernel)⟩

theorem witness_HeaderRowEncodes : jobDirection (job opENC 8 32 4 []) = some .encode ∧
    (job opENC 8 32 4 []).dstOk (job opENC 8 32 4 []).headerOffset 4 := by decide

theorem witness_HeaderRowDecodes : jobDirection (job opDEC 8 36 32 []) = some .decode := by decide

theorem witness_LaneRowDecodes : let s := { job opDEC 8 8 32 [] with stage := .lane 7 }
    laneRow (.laneW4 3) = some (4, 3) ∧ jobDirection s = some .decode ∧ s.stage = .lane 7 ∧ s.srcOk s.pcur.toNat 4 ∧
    laneRow (.laneW0 3) = some (0, 3) ∧ s.srcOk s.pcur.toNat 0 := by decide

theorem witness_LaneRowEncodes : let s := { job opENC 8 32 7 [] with stage := .lane 0 }
    laneRow (.laneW3 1) = some (3, 1) ∧ jobDirection s = some .encode ∧ s.stage = .lane 0 ∧ s.dstOk s.pcur.toNat 3 ∧
    laneRow (.laneW2 1) = some (2, 1) ∧ s.dstOk s.pcur.toNat 2 := by decide

theorem witness_LaneRowOutOfBounds : laneRow (.laneW4 0) = some (4, 0) ∧ 4 ≠ 0 ∧
    (let s := { job opDEC 8 7 32 [] with stage := .lane 0 };
      jobDirection s = some .decode ∧ s.srcLen.toNat < s.pcur.toNat + 4) ∧
    (let s := { job opENC 8 32 7 [] with stage := .lane 0 };
      jobDirection s = some .encode ∧ s.dstLen.toNat < s.pcur.toNat + 4) := by decide

theorem witness_StepRunsDecoded_start : let s := pending opDEC 8 36 32 []
    s.turns = [] ∧ s.status ≠ .busy ∧ s.start = true ∧ decodeCmd s.cmd = .ok .dec := ⟨rfl, by decide, rfl, rfl⟩

theorem witness_StepRunsDecoded_block : let s := { job opENC 8 32 36 [] with stage := .close }
    s.turns = [] ∧ s.status = .busy ∧ (s.stage = .boundary ∨ s.stage = .close) ∧ decodeCmd s.cmd = .ok .enc :=
  ⟨rfl, rfl, .inr rfl, rfl⟩

theorem witness_StepRunsDecoded_header : (let s := { job opDEC 8 4 32 [] with stage := .header };
      jobDirection s = some .decode ∧ s.stage = .header ∧ s.srcOk s.headerOffset 4 ∧
      decodeHdr s.sourceHeader = .blkhdr (Lanes.same 0) (Lanes.same 0)) ∧
    (let s := { job opENC 8 32 36 [] with stage := .header };
      jobDirection s = some .encode ∧ s.stage = .header ∧ decodeHdr s.hdr = .blkhdr (Lanes.same 0) (Lanes.same 0)) := by
  decide +kernel

theorem witness_StepRunsDecoded_lane : let s := { job opENC 8 32 36 [] with stage := .lane 7 }
    jobDirection s ≠ none ∧ s.stage = .lane 7 ∧ laneOf (hdrTz s.hdr 7) (hdrLz s.hdr 7) = .laneW4 0 := by decide

theorem witness_IdleEngineDoesNothing :
    State.reset.turns = [] ∧ State.reset.status ≠ .busy ∧ State.reset.start = false := by decide

theorem witness_BusyIgnoresWrites : let s := { job opENC 8 32 36 [] with turns := [.regWrite 0 4 1] }
    s.status = .busy ∧ 0 % 4 = 0 ∧ s.turns = .regWrite 0 4 1 :: [] := by decide

theorem witness_RegisterMapWrites : ∀ offset ∈ [0x08, 0x0C, 0x10, 0x14, 0x18, 0x1C, 0x00, 0x04, 0x20, 0x28, 0x2C],
    let s := { State.reset with turns := [.regWrite offset 4 2] }
    s.status ≠ .busy ∧ s.start = false ∧ s.turns = .regWrite offset 4 2 :: [] ∧ (2#32).getLsbD 0 = false := by decide

theorem witness_RegisterMapReads : ∀ offset ∈ [0x00, 0x04, 0x28, 0x2C],
    let s := { State.reset with turns := [.regRead offset 4] }
    s.turns = .regRead offset 4 :: [] ∧ jobDirection s = none := by decide

/-- BLK reads that are exact while BUSY: a UBOUND job, and a streaming job at BLK = B(N). -/
theorem witness_RegisterMapReads_busy :
    (let s := { job opUBOUND 9 0 0 [] with turns := [.regRead 0x28 4] }; s.status = .busy ∧ jobDirection s = none) ∧
    (let s := { job opENC 9 36 72 [] with turns := [.regRead 0x28 4], blk := 2 };
      jobDirection s ≠ none ∧ s.blocks ≤ s.blk.toNat) := by decide

theorem witness_OddAccessRefused : (2 ≠ 4 ∨ 0 % 4 ≠ 0) ∧ (4 ≠ 4 ∨ 0x0E % 4 ≠ 0) := by decide

theorem witness_BlkReadWhileBusy : let s := { job opENC 9 36 72 [] with turns := [.regRead 0x28 4], blk := 1, blkSeen := 1 }
    s.turns = .regRead 0x28 4 :: [] ∧ jobDirection s ≠ none ∧ s.blk.toNat < s.blocks ∧ s.blkSeen.toNat < s.blocks := by
  decide

theorem witness_StartWriteStartsAtOnce : let s := { State.reset with turns := [.regWrite 0 4 3] }
    s.status ≠ .busy ∧ (3#32).getLsbD 0 = true ∧ s.turns = .regWrite 0x00 4 3 :: [] ∧ decodeCmd s.cmd = .ok .enc :=
  ⟨by decide, by decide, rfl, rfl⟩

theorem witness_StartWriteStartsAtOnce_illegal : let s := { State.reset with turns := [.regWrite 0 4 1], cmd := 5 }
    s.status ≠ .busy ∧ (1#32).getLsbD 0 = true ∧ s.turns = .regWrite 0x00 4 1 :: [] ∧
    4 < (s.cmd.extractLsb' 0 3).toNat := ⟨by decide, by decide, rfl, by decide⟩

/-- A finished job whose end no read of STATUS has reported. -/
def unreadState : State := { State.reset with status := .done, unread := [(job opENC 8 32 36 []).windows] }

theorem witness_WindowsExclusive :
    (∃ t, startStream (pending opENC 8 32 36 []) = .next t ∧ (t.status == .busy) = true) ∧
    (let w := (job opENC 8 32 36 []).windows;
      w ∈ engineWindows unreadState ∧ w.inSource (0x101F#32).toNat = true ∧ w.inDestination (0x2023#32).toNat = true) ∧
    (∀ w ∈ engineWindows unreadState, w.inSource (0x1020#32).toNat = false ∧ w.inDestination (0x1FFF#32).toNat = false ∧
      w.inSource (0x1FFF#32).toNat = false ∧ w.inDestination (0x1020#32).toNat = false) ∧
    (∀ w ∈ engineWindows (job opENC 8 32 36 []), w.inDestination (0x101F#32).toNat = false) :=
  ⟨next_of_onNext (by decide +kernel), by decide, by decide, by decide⟩

/-- A read of STATUS that returns DONE gives the windows back. -/
theorem test_status_read_frees : onNext (fun t => t.unread == [] && t.hostData == 2)
    (step { unreadState with turns := [.regRead 4 4] }) = true := by decide +kernel

theorem witness_ResetEvent : (let s := { State.reset with turns := [.reset] };
      s.turns = .reset :: [] ∧ jobDirection s = none ∧ s.inDestination 0 = false) ∧
    (let s := { job opENC 8 32 36 [] with turns := [.reset] };
      s.turns = .reset :: [] ∧ jobDirection s ≠ none ∧ s.inDestination 0x2023 = true ∧ s.inDestination 0x2024 = false) := by
  decide

theorem inv_encState : encState.Inv := ⟨by decide, by decide, by decide, fun _ => by decide⟩

theorem witness_StepKeepsInv : encState.Inv ∧ ∃ t, step encState = .next t ∧ (t.status == .busy) = true :=
  ⟨inv_encState, next_of_onNext (by decide +kernel)⟩

theorem witness_EngineWritesOnlyDestination : encState.inDestination 0x2048 = false ∧ encState.inDestination 0x1FFF = false ∧
    ∃ t, engineStep encState = .next t ∧ (t.status == .busy) = true :=
  ⟨by decide, by decide, next_of_onNext (by decide +kernel)⟩

/-- A START pending, and a write of 1 to CTRL.START: out of IDLE to BUSY and to ERR. -/
theorem witness_StateTransitions_start : ∀ s ∈ [pending opENC 8 32 36 [],
      { State.reset with turns := [.regWrite 0 4 1] }, { State.reset with turns := [.regWrite 0 4 1], cmd := 5 }],
    onNext (fun t => t.status != s.status && (t.status == .busy || t.status == .err)) (step s) = true := by decide +kernel

/-- The engine out of BUSY: the finish step and a fault; and a reset. -/
theorem witness_StateTransitions_engine :
    onNext (fun t => t.status == .done) (step { job opENC 8 32 36 [] with blk := 1, turns := [.engine] }) = true ∧
    onNext (fun t => t.status == .err) (step (job opDECQ 8 3 32 [])) = true ∧
    onNext (fun t => t.status == .idle) (step { job opENC 8 32 36 [] with turns := [.reset] }) = true := by decide +kernel

/-- A register write other than that of CTRL.START starts nothing, whatever is pending. -/
theorem test_write_starts_nothing : onNext (fun t => t.status == .idle && t.n == 7)
    (step { pending opENC 8 32 36 [] with turns := [.regWrite 0x0C 4 7] }) = true := by decide +kernel

theorem witness_JobEnds : encState.Inv ∧ jobDirection encState ≠ none ∧ encState.stage = .boundary ∧ encState.turns = [] :=
  ⟨inv_encState, by decide, rfl, rfl⟩

/-- The windows hold exactly the footprint: `ENC N=8` of zeros is 4 bytes. -/
theorem witness_EncodeJobLeavesStream : let s := pending opENC 8 32 4 []
    encodeVariant .enc = some true ∧ decodeCmd s.cmd = .ok .enc ∧ s.turns = [] ∧ s.status ≠ .busy ∧ s.start = true ∧
    s.mem.wf ∧ s.n.toNat ≤ Config.nmax ∧ s.windowOverflows = false ∧ s.windowsAlias = false ∧ s.plat = Platform.default ∧
    4 * s.n.toNat ≤ s.srcLen.toNat ∧ (encStream true (s.mem.words s.src.toNat s.n.toNat)).length ≤ s.dstLen.toNat :=
  ⟨rfl, rfl, rfl, by decide, rfl, by decide, by decide, by decide, by decide, rfl, by decide, by decide +kernel⟩

/-- `DEC N=1` of `FF FF FF FF`. -/
theorem witness_DecodeJobLeavesValues : let s := pending opDEC 1 4 4 [0xFF, 0xFF, 0xFF, 0xFF]
    decodeVariant .dec = some true ∧ decodeCmd s.cmd = .ok .dec ∧ s.turns = [] ∧ s.status ≠ .busy ∧ s.start = true ∧
    s.mem.wf ∧ s.n.toNat ≤ Config.nmax ∧ s.windowOverflows = false ∧ s.windowsAlias = false ∧ s.plat = Platform.default ∧
    4 * s.n.toNat ≤ s.dstLen.toNat ∧
    decConsumed (s.mem.readBytes s.src.toNat s.srcLen.toNat) s.n.toNat ≤ s.srcLen.toNat :=
  ⟨rfl, rfl, rfl, by decide, rfl, by decide, by decide, by decide, by decide, rfl, by decide, by decide +kernel⟩

end Sys2Proof.Tests
end

section
/-! The scope conventions (00_scope.md): the zero-bit counts of R7, and the little-endian bytes of R8 and R51. -/

namespace Sys2Proof.Machine

/-! ### The zero-bit counts (R7)

Each scan stops at a set bit or runs out of bits: below its result every bit is clear, and the bit it
stops at is set. -/

theorem zerosUp_le (x : Word) (i n : Nat) : zerosUp x i n ≤ n := by
  induction n generalizing i with
  | zero => exact Nat.le_refl 0
  | succ n ih =>
    rw [zerosUp]
    split
    · exact Nat.zero_le _
    · have := ih (i + 1)
      omega

theorem getLsbD_of_lt_zerosUp {x : Word} {i n j : Nat} (h : j < zerosUp x i n) : x.getLsbD (i + j) = false := by
  induction n generalizing i j with
  | zero => exact absurd h (Nat.not_lt_zero j)
  | succ n ih =>
    rw [zerosUp] at h
    split at h
    case isTrue => exact absurd h (Nat.not_lt_zero j)
    case isFalse hbit =>
      cases j with
      | zero => simpa using hbit
      | succ j =>
        have := ih (i := i + 1) (j := j) (by omega)
        rwa [show i + (j + 1) = i + 1 + j by omega]

theorem getLsbD_zerosUp {x : Word} {i n : Nat} (h : zerosUp x i n < n) : x.getLsbD (i + zerosUp x i n) = true := by
  induction n generalizing i with
  | zero => exact absurd h (Nat.not_lt_zero _)
  | succ n ih =>
    rw [zerosUp] at h ⊢
    split at h
    case isTrue hbit => simp [hbit]
    case isFalse hbit =>
      rw [if_neg hbit, ← Nat.add_assoc]
      exact ih (by omega)

theorem zerosDown_le (x : Word) (n : Nat) : zerosDown x n ≤ n := by
  induction n with
  | zero => exact Nat.le_refl 0
  | succ n ih =>
    rw [zerosDown]
    split <;> omega

theorem getLsbD_of_zerosDown_le {x : Word} {n i : Nat} (hlo : n - zerosDown x n ≤ i) (hi : i < n) :
    x.getLsbD i = false := by
  induction n with
  | zero => exact absurd hi (Nat.not_lt_zero i)
  | succ n ih =>
    rw [zerosDown] at hlo
    split at hlo
    case isTrue => omega
    case isFalse hbit =>
      rcases Nat.lt_succ_iff_lt_or_eq.mp hi with hlt | rfl
      · exact ih (by omega) hlt
      · simpa using hbit

theorem getLsbD_zerosDown {x : Word} {n : Nat} (h : zerosDown x n < n) : x.getLsbD (n - 1 - zerosDown x n) = true := by
  induction n with
  | zero => exact absurd h (Nat.not_lt_zero _)
  | succ n ih =>
    rw [zerosDown] at h ⊢
    split at h
    case isTrue hbit => simp [hbit]
    case isFalse hbit =>
      rw [if_neg hbit, show n + 1 - 1 - (1 + zerosDown x n) = n - 1 - zerosDown x n by omega]
      exact ih (by omega)

theorem ctz32_le (x : Word) : ctz32 x ≤ 32 := zerosUp_le x 0 32

theorem clz32_le (x : Word) : clz32 x ≤ 32 := zerosDown_le x 32

/-- The bits below the count are clear. -/
theorem getLsbD_of_lt_ctz32 {x : Word} {i : Nat} (h : i < ctz32 x) : x.getLsbD i = false := by
  simpa using getLsbD_of_lt_zerosUp h

/-- The bit a count short of the word stops at is set. -/
theorem getLsbD_ctz32 {x : Word} (h : ctz32 x < 32) : x.getLsbD (ctz32 x) = true := by
  simpa [ctz32] using getLsbD_zerosUp h

/-- The bits above the one the downward count stops at are clear; above the word there are none. -/
theorem getLsbD_of_clz32_le {x : Word} {i : Nat} (h : 32 - clz32 x ≤ i) : x.getLsbD i = false := by
  rcases Nat.lt_or_ge i 32 with hi | hi
  · exact getLsbD_of_zerosDown_le h hi
  · exact BitVec.getLsbD_of_ge x i hi

theorem getLsbD_clz32 {x : Word} (h : clz32 x < 32) : x.getLsbD (31 - clz32 x) = true :=
  getLsbD_zerosDown h

theorem ctz32_eq_32_iff {x : Word} : ctz32 x = 32 ↔ x = 0 := by
  constructor
  · intro h
    refine BitVec.eq_of_getLsbD_eq fun i hi => ?_
    rw [getLsbD_of_lt_ctz32 (h ▸ hi), BitVec.ofNat_eq_ofNat, BitVec.getLsbD_zero]
  · rintro rfl
    by_contra h
    have hbit := getLsbD_ctz32 (Nat.lt_of_le_of_ne (ctz32_le 0) h)
    simp at hbit

theorem clz32_eq_32_iff {x : Word} : clz32 x = 32 ↔ x = 0 := by
  constructor
  · intro h
    refine BitVec.eq_of_getLsbD_eq fun i _ => ?_
    rw [getLsbD_of_clz32_le (by omega), BitVec.ofNat_eq_ofNat, BitVec.getLsbD_zero]
  · rintro rfl
    by_contra h
    have hbit := getLsbD_clz32 (Nat.lt_of_le_of_ne (clz32_le 0) h)
    simp at hbit

/-- Of at most 32 bits there are at most 4 whole bytes, and 4 only where all 32 are counted. -/
theorem wholeBytes_of_le_32 {c : Nat} (h : c ≤ 32) : c >>> 3 ≤ 4 ∧ (c >>> 3 = 4 ↔ c = 32) := by
  rw [Nat.shiftRight_eq_div_pow]
  omega

/-- Settles O5: the scans' three facts at 32 bits, and the zero word as the one with nothing to stop at. -/
theorem zeroBitCounts : Obligations.ZeroBitCounts := by
  intro x
  obtain ⟨hctz, hctz4⟩ := wholeBytes_of_le_32 (ctz32_le x)
  obtain ⟨hclz, hclz4⟩ := wholeBytes_of_le_32 (clz32_le x)
  refine ⟨fun h => ⟨ctz32_eq_32_iff.mpr h, clz32_eq_32_iff.mpr h⟩, fun h => ?_, hctz, hclz,
    hctz4.trans ctz32_eq_32_iff, hclz4.trans clz32_eq_32_iff⟩
  have hup : ctz32 x < 32 := Nat.lt_of_le_of_ne (ctz32_le x) (mt ctz32_eq_32_iff.mp h)
  have hdown : clz32 x < 32 := Nat.lt_of_le_of_ne (clz32_le x) (mt clz32_eq_32_iff.mp h)
  exact ⟨hup, hdown, getLsbD_ctz32 hup, fun _ => getLsbD_of_lt_ctz32, getLsbD_clz32 hdown,
    fun _ hi => getLsbD_of_clz32_le (by omega)⟩

/-! ### Little-endian bytes (R8, R51) -/

theorem getElem_leBytes {n j : Nat} (v : Word) (h : j < (leBytes n v).length) :
    (leBytes n v)[j] = v.extractLsb' (8 * j) 8 := by
  induction n generalizing v j with
  | zero => exact absurd h (Nat.not_lt_zero j)
  | succ n ih =>
    cases j with
    | zero => exact BitVec.setWidth_eq_extractLsb' (x := v) (w := 8) (by decide)
    | succ j =>
      simp only [leBytes, List.getElem_cons_succ, ih]
      ext i hi
      simp only [BitVec.getElem_extractLsb', BitVec.getLsbD_ushiftRight]
      rw [show 8 + (8 * j + i) = 8 * (j + 1) + i by omega]

/-- What the low bytes of a word stand for: the shift back up cannot overflow, and the parts of the `|||` are apart. -/
theorem toNat_fromLE_leBytes (n : Nat) (v : Word) : (fromLE (leBytes n v)).toNat = v.toNat % 256 ^ n := by
  induction n generalizing v with
  | zero => simp [leBytes, fromLE, Nat.mod_one]
  | succ n ih =>
    have hrest : (fromLE (leBytes n (v >>> 8))).toNat = v.toNat / 256 % 256 ^ n := by
      rw [ih, BitVec.toNat_ushiftRight, Nat.shiftRight_eq_div_pow]
    have hle : v.toNat / 256 % 256 ^ n ≤ v.toNat / 256 := Nat.mod_le _ _
    have hbyte : v.toNat % 256 < 2 ^ 8 := Nat.mod_lt _ (by decide)
    calc (fromLE (leBytes (n + 1) v)).toNat
        = v.toNat % 256 ||| (v.toNat / 256 % 256 ^ n) <<< 8 := by
          have := v.isLt
          simp only [leBytes, fromLE, BitVec.toNat_or, BitVec.toNat_setWidth, BitVec.toNat_shiftLeft, hrest,
            Nat.shiftLeft_eq]
          rw [Nat.mod_eq_of_lt (a := v.toNat / 256 % 256 ^ n * 2 ^ 8) (by omega),
            Nat.mod_eq_of_lt (a := v.toNat % 2 ^ 8) (by omega)]
      _ = 256 * (v.toNat / 256 % 256 ^ n) + v.toNat % 256 := by
          rw [Nat.or_comm, ← Nat.shiftLeft_add_eq_or_of_lt hbyte, Nat.shiftLeft_eq, Nat.mul_comm]
      _ = v.toNat % 256 ^ (n + 1) := by
          rw [Nat.pow_succ', Nat.mod_mul, Nat.add_comm]

theorem Memory.getElem_readBytes {m : Memory} {a n j : Nat} (h : j < (m.readBytes a n).length) :
    (m.readBytes a n)[j] = m.readByte (a + j) := by
  induction n generalizing a j with
  | zero => exact absurd h (Nat.not_lt_zero j)
  | succ n ih =>
    cases j with
    | zero => rfl
    | succ j => simp only [Memory.readBytes, List.getElem_cons_succ, ih, Nat.add_assoc, Nat.add_comm 1 j]

/-- `MemWrite` (R8) within the address space leaves exactly the little-endian bytes of the value. -/
theorem Memory.readBytes_write {m : Memory} (hm : m.wf) {a n : Nat} (ha : a + n ≤ Config.addressSpace) (v : Word) :
    (m.write a n v).readBytes a n = leBytes n v := by
  have h := Memory.readBytes_writeBytes (bs := leBytes n v) hm (a := a) (by simpa using ha)
  rwa [length_leBytes] at h

/-- Settles O17: the bytes written are the bytes read, one at a time and joined again. -/
theorem littleEndianReadsBack : Obligations.LittleEndianReadsBack := by
  intro m a n v hm _ ha
  have hbytes : (m.write a n v).readBytes a n = leBytes n v := Memory.readBytes_write hm ha v
  constructor
  · intro j hj
    calc (m.write a n v).readByte (a + j)
        = ((m.write a n v).readBytes a n)[j]'(by simpa using hj) := (Memory.getElem_readBytes _).symm
      _ = (leBytes n v)[j]'(by simpa using hj) := by simp only [hbytes]
      _ = v.extractLsb' (8 * j) 8 := getElem_leBytes v _
  · rw [Memory.read, hbytes, toNat_fromLE_leBytes]

end Sys2Proof.Machine
end

section
/-! What the memory accesses of a block step keep, in any state (10_state.md R33, 20_memory.md R54, R56): every byte
outside the destination window, the canonical form of memory, and every register but the engine's own. -/

namespace Sys2Proof.Machine

/-! ### The destination window -/

theorem inDestination_eq_false_iff {s : State} {a : Nat} :
    s.inDestination a = false ↔ a < s.dst.toNat ∨ s.dst.toNat + s.dstLen.toNat ≤ a := by
  rw [← Bool.not_eq_true, State.inDestination, Bool.and_eq_true, decide_eq_true_iff, decide_eq_true_iff]
  omega

/-! ### What the engine's accesses keep -/

/-- What `t` keeps of `s` when only the engine's own registers and the destination window may have changed. -/
structure EngineFrame (s t : State) : Prop where
  registers : t = { s with
    blk := t.blk, pcur := t.pcur, pred := t.pred, stage := t.stage, hdr := t.hdr, resid := t.resid, mem := t.mem }
  outside : ∀ a, s.inDestination a = false → t.mem.readByte a = s.mem.readByte a
  wf : s.mem.wf → t.mem.wf
  tagsBelow : ∀ ctr, s.mem.tagsBelow ctr → t.mem.tagsBelow ctr

namespace EngineFrame

/-- Registers of the engine's own may change freely. -/
theorem of_mem_eq {s t : State} (hreg : t = { s with
    blk := t.blk, pcur := t.pcur, pred := t.pred, stage := t.stage, hdr := t.hdr, resid := t.resid, mem := t.mem })
    (hmem : t.mem = s.mem) : EngineFrame s t where
  registers := hreg
  outside a _ := by rw [hmem]
  wf h := hmem ▸ h
  tagsBelow _ h := hmem ▸ h

theorem refl (s : State) : EngineFrame s s := of_mem_eq rfl rfl

theorem start {s t : State} (h : EngineFrame s t) : t.start = s.start := by rw [h.registers]
theorem status {s t : State} (h : EngineFrame s t) : t.status = s.status := by rw [h.registers]
theorem cause {s t : State} (h : EngineFrame s t) : t.cause = s.cause := by rw [h.registers]
theorem n {s t : State} (h : EngineFrame s t) : t.n = s.n := by rw [h.registers]
theorem result {s t : State} (h : EngineFrame s t) : t.result = s.result := by rw [h.registers]
theorem faddr {s t : State} (h : EngineFrame s t) : t.faddr = s.faddr := by rw [h.registers]
theorem blkSeen {s t : State} (h : EngineFrame s t) : t.blkSeen = s.blkSeen := by rw [h.registers]
theorem freeCtr {s t : State} (h : EngineFrame s t) : t.freeCtr = s.freeCtr := by rw [h.registers]
theorem blocks {s t : State} (h : EngineFrame s t) : t.blocks = s.blocks := by rw [h.registers]; rfl
theorem jobDirection_eq {s t : State} (h : EngineFrame s t) : jobDirection t = jobDirection s := by
  rw [h.registers]; rfl
theorem inDestination {s t : State} (h : EngineFrame s t) : t.inDestination = s.inDestination := by
  rw [h.registers]; rfl
theorem windowOverflows {s t : State} (h : EngineFrame s t) : t.windowOverflows = s.windowOverflows := by
  rw [h.registers]; rfl
theorem windowsAlias {s t : State} (h : EngineFrame s t) : t.windowsAlias = s.windowsAlias := by
  rw [h.registers]; rfl

theorem trans {s t u : State} (h : EngineFrame s t) (h' : EngineFrame t u) : EngineFrame s u where
  registers := by rw [h'.registers, h.registers]
  outside a ha := (h'.outside a (by rwa [h.inDestination])).trans (h.outside a ha)
  wf hm := h'.wf (h.wf hm)
  tagsBelow ctr ht := h'.tagsBelow ctr (h.tagsBelow ctr ht)

/-- A write that is not refused lies in the destination window and in the address space (R54). -/
theorem write {s : State} {off n : Nat} {v : Word} (h : s.dstOk off n) :
    EngineFrame s { s with mem := s.mem.write (s.dst.toNat + off) n v } := by
  rcases h with rfl | ⟨hfit, -, hspace⟩
  · exact refl s
  · exact {
      registers := rfl
      outside := fun a ha => by
        rw [inDestination_eq_false_iff] at ha
        exact Memory.readByte_write_outside (by omega)
      wf := fun hm => Memory.wf_write hm hspace v
      tagsBelow := fun ctr ht => Memory.tagsBelow_write ht _ _ _ }

end EngineFrame

/-! ### How an access is stopped -/

/-- The causes that a refused access raises (R53, R54, R200). -/
def Cause.ofAccess (c : Cause) : Prop := c = .srcBounds ∨ c = .dstBounds ∨ c = .bus

/-- An access stops with one of its own causes. -/
def Stop.ofAccess : Stop → Prop
  | .raised c _ => c.ofAccess
  | .outside _ => True

theorem srcRead_stop {s : State} {off n : Nat} {e : Stop} (h : srcRead s off n = .error e) : e.ofAccess := by
  obtain ⟨-, ⟨-, rfl⟩ | ⟨-, -, rfl⟩ | ⟨-, -, -, rfl⟩⟩ := srcRead_error_iff.1 h
  · exact .inl rfl
  · exact .inr (.inr rfl)
  · trivial

theorem dstWrite_stop {s : State} {off n : Nat} {v : Word} {e : Stop} (h : dstWrite s off n v = .error e) :
    e.ofAccess := by
  obtain ⟨-, ⟨-, rfl⟩ | ⟨-, -, rfl⟩ | ⟨-, -, -, rfl⟩⟩ := dstWrite_error_iff.1 h
  · exact .inr (.inl rfl)
  · exact .inr (.inr rfl)
  · trivial

/-- A fold that stops, stops in one of its steps. -/
theorem foldlM_stop {α β : Type} {f : β → α → Except Stop β} (hf : ∀ b x e, f b x = .error e → e.ofAccess)
    {l : List α} {b : β} {e : Stop} (h : l.foldlM f b = .error e) : e.ofAccess := by
  induction l generalizing b with
  | nil => cases h
  | cons x l ih =>
    rw [List.foldlM_cons] at h
    cases hx : f b x with
    | ok b' => exact ih (b := b') (by rwa [hx] at h)
    | error e' =>
      rw [hx] at h
      cases h
      exact hf b x e hx

theorem readValue_stop {s : State} {v : Lanes Word} {k : Fin 8} {e : Stop} (h : readValue s v k = .error e) :
    e.ofAccess := by
  unfold readValue at h
  split at h
  · split at h
    · cases h
    · rename_i e' he
      cases h
      exact srcRead_stop he
  · cases h

theorem openEncode_stop {full : Bool} {s : State} {e : Stop} (h : openEncode full s = .error e) : e.ofAccess := by
  unfold openEncode at h
  split at h
  · cases h
  · rename_i e' he
    cases h
    exact foldlM_stop (fun _ _ _ => readValue_stop) he

theorem openEncode_frame {full : Bool} {s t : State} {v : Lanes Word} (h : openEncode full s = .ok (v, t)) :
    EngineFrame s t := by
  obtain ⟨-, rfl⟩ := openEncode_ok h
  exact .of_mem_eq rfl rfl

/-! ### The accesses of a block step, one after the other -/

/-- A part of an engine step, begun in `s`: it keeps the frame where it completes, and stops as an access does. -/
structure KeepsFrame (s : State) (r : Except Stop State) : Prop where
  frame : ∀ t, r = .ok t → EngineFrame s t
  stop : ∀ e, r = .error e → e.ofAccess

theorem keepsFrame_ok {s t : State} (h : EngineFrame s t) : KeepsFrame s (.ok t) :=
  ⟨fun _ ht => Except.ok.inj ht ▸ h, fun _ he => by cases he⟩

theorem KeepsFrame.trans {s t : State} {r : Except Stop State} (h : EngineFrame s t) (hr : KeepsFrame t r) :
    KeepsFrame s r :=
  ⟨fun u hu => h.trans (hr.frame u hu), hr.stop⟩

theorem keepsFrame_bind {α : Type} {s : State} {x : Except Stop α} {f : α → Except Stop State}
    (hx : ∀ e, x = .error e → e.ofAccess) (hf : ∀ a, x = .ok a → KeepsFrame s (f a)) : KeepsFrame s (x >>= f) := by
  cases x with
  | ok a => exact hf a rfl
  | error e => exact ⟨fun _ h => (nomatch h), fun _ h => by cases h; exact hx e rfl⟩

/-- One part after another. -/
theorem KeepsFrame.andThen {s : State} {r : Except Stop State} {f : State → Except Stop State} (hr : KeepsFrame s r)
    (hf : ∀ t, KeepsFrame t (f t)) : KeepsFrame s (r >>= f) :=
  keepsFrame_bind hr.stop fun t ht => (hf t).trans (hr.frame t ht)

theorem keepsFrame_foldlM {α : Type} {f : State → α → Except Stop State} (hf : ∀ t x, KeepsFrame t (f t x))
    (l : List α) (s : State) : KeepsFrame s (l.foldlM f s) := by
  induction l generalizing s with
  | nil => exact keepsFrame_ok (.refl s)
  | cons x l ih =>
    rw [List.foldlM_cons]
    exact (hf s x).andThen ih

theorem dstWrite_keepsFrame (s : State) (off n : Nat) (v : Word) : KeepsFrame s (dstWrite s off n v) where
  frame t h := by
    obtain ⟨hok, rfl⟩ := dstWrite_ok_iff.1 h
    exact .write hok
  stop _ h := dstWrite_stop h

theorem putHeader_keepsFrame (h : Word) (s : State) : KeepsFrame s (putHeader h s) where
  frame t ht := by
    obtain ⟨hok, rfl⟩ := putHeader_ok_iff.1 ht
    exact (EngineFrame.write hok).trans (.of_mem_eq rfl rfl)
  stop _ he := dstWrite_stop (putHeader_error_iff.1 he)

theorem marshalLane_keepsFrame (w : Nat) (sig : Word) (s : State) : KeepsFrame s (marshalLane w sig s) where
  frame t ht := by
    obtain ⟨hok, rfl⟩ := marshalLane_ok_iff.1 ht
    exact (EngineFrame.write hok).trans (.of_mem_eq rfl rfl)
  stop _ he := dstWrite_stop (marshalLane_error_iff.1 he)

theorem unmarshalLane_keepsFrame (k : Fin 8) (w : Nat) (tz : BitVec 2) (s : State) :
    KeepsFrame s (unmarshalLane k w tz s) where
  frame t ht := by
    obtain ⟨-, rfl⟩ := unmarshalLane_ok_iff.1 ht
    exact .of_mem_eq rfl rfl
  stop _ he := srcRead_stop (unmarshalLane_error_iff.1 he)

theorem writeValue_keepsFrame (s : State) (v : Lanes Word) (t : State) (k : Fin 8) :
    KeepsFrame t (writeValue s v t k) := by
  unfold writeValue
  split
  · exact dstWrite_keepsFrame t _ _ _
  · exact keepsFrame_ok (.refl t)

theorem thenStage_keepsFrame {s : State} {r : Except Stop State} (h : KeepsFrame s r) (g : Stage) :
    KeepsFrame s (thenStage g r) where
  frame t ht := by
    obtain ⟨u, hu, rfl⟩ := thenStage_ok ht
    exact (h.frame u hu).trans (.of_mem_eq rfl rfl)
  stop _ he := h.stop _ (thenStage_error he)

theorem closeBlock_frame (full : Bool) (v d : Lanes Word) (s : State) : EngineFrame s (closeBlock full v d s) :=
  .of_mem_eq rfl rfl

/-- The encode block step (R164): values, header, payload, end. -/
theorem encodeBlock_keepsFrame (full : Bool) (s : State) : KeepsFrame s (encodeBlock full s) := by
  refine keepsFrame_bind (fun _ => openEncode_stop) fun ⟨v, t⟩ hopen => ?_
  refine KeepsFrame.trans (openEncode_frame hopen) ((putHeader_keepsFrame _ t).andThen fun t => ?_)
  exact (keepsFrame_foldlM (fun t k => marshalLane_keepsFrame _ _ t) _ _).andThen
    fun t => keepsFrame_ok (closeBlock_frame _ _ _ t)

/-- The end of a decode block step (R165): values, end. -/
theorem finishDecode_keepsFrame (full : Bool) (s : State) : KeepsFrame s (finishDecode full s) :=
  (keepsFrame_foldlM (writeValue_keepsFrame s _) _ _).andThen fun t => keepsFrame_ok (closeBlock_frame _ _ _ t)

/-- The decode block step (R165): header, payload, values, end. -/
theorem decodeBlock_keepsFrame (full : Bool) (s : State) : KeepsFrame s (decodeBlock full s) := by
  refine keepsFrame_bind (fun _ => srcRead_stop) fun h _ => KeepsFrame.trans (t := { s with hdr := h })
    (.of_mem_eq rfl rfl) ?_
  exact (keepsFrame_foldlM (fun t k => unmarshalLane_keepsFrame _ _ _ t) _ _).andThen (finishDecode_keepsFrame full)

end Sys2Proof.Machine
end

section
/-! Everything one step of the engine can do (10_state.md R23, 43_jobs.md R161 to R168), in any state: said once, for
the statements about every step. -/

namespace Sys2Proof.Machine

/-! ### The command register and the direction of the job (R70) -/

/-- A command word is one of the four streaming operations, or UBOUND, which is 4 (R70). -/
theorem decodeCmd_ok {w : Word} {i : Instr} (h : decodeCmd w = .ok i) :
    (∃ full, encodeVariant i = some full) ∨ (∃ full, decodeVariant i = some full) ∨ (i = .ubound ∧ w = cmdWord 4) := by
  unfold decodeCmd at h
  split at h
  · cases h
  · rename_i hhigh
    split at h <;> cases h
    · exact .inl ⟨true, rfl⟩
    · exact .inr (.inl ⟨true, rfl⟩)
    · exact .inl ⟨false, rfl⟩
    · exact .inr (.inl ⟨false, rfl⟩)
    · rename_i hlow
      refine .inr (.inr ⟨rfl, BitVec.eq_of_toNat_eq ?_⟩)
      simp only [ne_eq, Decidable.not_not, ← BitVec.toNat_inj, BitVec.extractLsb'_toNat, Nat.shiftRight_eq_div_pow,
        BitVec.ofNat_eq_ofNat, BitVec.toNat_ofNat] at hhigh hlow
      simp only [cmdWord, BitVec.toNat_setWidth, BitVec.ofNat_eq_ofNat, BitVec.toNat_ofNat]
      have := w.isLt
      omega

theorem jobDirection_of_encode {s : State} {i : Instr} {full : Bool} (hb : s.status = .busy)
    (hi : decodeCmd s.cmd = .ok i) (hv : encodeVariant i = some full) : jobDirection s = some .encode := by
  cases i <;> cases hv <;> simp [jobDirection, hb, hi]

theorem jobDirection_of_decode {s : State} {i : Instr} {full : Bool} (hb : s.status = .busy)
    (hi : decodeCmd s.cmd = .ok i) (hv : decodeVariant i = some full) : jobDirection s = some .decode := by
  cases i <;> cases hv <;> simp [jobDirection, hb, hi]

theorem jobDirection_of_ubound {s : State} (hcmd : s.cmd = cmdWord 4) : jobDirection s = none := by
  have hdec : decodeCmd s.cmd = .ok .ubound := by rw [hcmd]; decide
  simp [jobDirection, hdec]

theorem busy_of_jobDirection {s : State} (h : jobDirection s ≠ none) : s.status = .busy := by
  by_contra hb
  exact h (by simp [jobDirection, hb])

theorem exec_of_encode {i : Instr} {full : Bool} (hv : encodeVariant i = some full) (s : State) :
    exec i s = stepEncode full s := by
  cases i <;> cases hv <;> rfl

theorem exec_of_decode {i : Instr} {full : Bool} (hv : decodeVariant i = some full) (s : State) :
    exec i s = stepDecode full s := by
  cases i <;> cases hv <;> rfl

/-- A descriptor's row is a lane of the descriptor's width (R76). -/
theorem exec_laneOf (tz lz : BitVec 2) (s : State) : exec (laneOf tz lz) s = stepLane (width lz) tz s := by
  have hlz : lz = 0 ∨ lz = 1 ∨ lz = 2 ∨ lz = 3 := by revert lz; decide
  rcases hlz with rfl | rfl | rfl | rfl <;> rfl

/-! ### How far a lane and a block move the cursor (R76, R144) -/

theorem width_le (lz : BitVec 2) : width lz ≤ 4 := Nat.sub_le _ _

theorem sum_laneOrder_le {f : Fin 8 → Nat} (hf : ∀ k, f k ≤ 4) : (laneOrder.map f).sum ≤ 32 :=
  List.sum_le_card_nsmul (laneOrder.map f) 4 (by simpa using fun k _ => hf k)

theorem length_payloadOf_le (r : Lanes Word) : (payloadOf r).length ≤ 32 := by
  rw [payloadOf, List.length_flatMap]
  refine sum_laneOrder_le fun k => ?_
  rw [Stripped.payload, length_leBytes]
  exact Nat.sub_le _ _

theorem blockAdvance_le (h : Word) : blockAdvance h ≤ 32 := sum_laneOrder_le fun _ => width_le _

/-! ### One step of the engine -/

/-- What one step of the engine can leave. -/
inductive EngineMove (s t : State) : Prop
  /-- There is nothing to run (R224). -/
  | idle (hb : s.status ≠ .busy) (ht : t = s)
  /-- A pending START that a check rejects (R161). -/
  | rejected (c : Cause) (hb : s.status ≠ .busy) (hs : s.start = true) (hc : c ≠ .noFault ∧ ¬ c.ofAccess)
      (ht : t = takeFault c 0 (clearForStart s))
  /-- The accepted start of a streaming job (R161, R162). -/
  | begun (hb : s.status ≠ .busy) (hs : s.start = true) (hd : jobDirection t ≠ none) (hn : s.n.toNat ≤ Config.nmax)
      (hfit : s.windowOverflows = false) (hapart : s.windowsAlias = false) (ht : t = beginStream s)
  /-- The accepted start of UBOUND (R161, R174). -/
  | begunUbound (hb : s.status ≠ .busy) (hs : s.start = true) (hcmd : s.cmd = cmdWord 4)
      (hn : s.n.toNat ≤ Config.nmax) (ht : t = { clearForStart s with status := .busy })
  /-- A refused access of a streaming job (R206). -/
  | faulted (c : Cause) (a : Nat) (hd : jobDirection s ≠ none) (hc : c.ofAccess) (ht : t = raiseInBlock c a s)
  /-- A whole block step (R164, R165), or the end of one whose lanes are done: it moves the cursor by `w`. -/
  | block (w : Nat) (hd : jobDirection s ≠ none)
      (hw : (s.stage = .boundary ∧ s.blk.toNat < s.blocks ∧ w ≤ 32) ∨ (s.stage = .close ∧ w = 0))
      (hf : EngineFrame s t) (hpcur : t.pcur = s.pcur + BitVec.ofNat 32 w) (hblk : t.blk = s.blk + 1)
      (hstage : t.stage = .boundary)
  /-- The header word of a block, taken by itself (R145). -/
  | header (hd : jobDirection s ≠ none) (hs : s.stage = .header) (hf : EngineFrame s t) (hpcur : t.pcur = s.pcur)
      (hblk : t.blk = s.blk) (hstage : t.stage = .lane 0)
  /-- One lane of a block, taken by itself (R142, R143). -/
  | lane (k : Fin 8) (w : Nat) (hd : jobDirection s ≠ none) (hs : s.stage = .lane k) (hw : w ≤ 4)
      (hf : EngineFrame s t) (hpcur : t.pcur = s.pcur + BitVec.ofNat 32 w) (hblk : t.blk = s.blk)
      (hstage : t.stage = afterLane k)
  /-- The finish step of a streaming job (R168). -/
  | finished (hd : jobDirection s ≠ none) (hs : s.stage = .boundary) (ht : t = finishStream s)
  /-- The finish step of UBOUND (R168, R174). -/
  | finishedUbound (hb : s.status = .busy) (ht : t = finishUbound s)

/-! ### The start step -/

theorem startStream_move {s t : State} (hb : s.status ≠ .busy) (hs : s.start = true)
    (hd : jobDirection (beginStream s) ≠ none) (h : startStream s = .next t) : EngineMove s t := by
  rcases startStream_next h with ⟨c, hc, rfl⟩ | ⟨rfl, hn, hfit, hapart, -⟩
  · refine .rejected c hb hs ?_ rfl
    simp only [List.mem_cons, List.not_mem_nil, or_false] at hc
    rcases hc with rfl | rfl | rfl <;> simp [Cause.ofAccess]
  · exact .begun hb hs hd hn hfit hapart rfl

theorem startUbound_move {s t : State} (hb : s.status ≠ .busy) (hs : s.start = true) (hcmd : s.cmd = cmdWord 4)
    (h : startUbound s = .next t) : EngineMove s t := by
  rcases startUbound_next h with rfl | ⟨rfl, hn⟩
  · exact .rejected .badN hb hs (by simp [Cause.ofAccess]) rfl
  · exact .begunUbound hb hs hcmd hn rfl

/-- The step of an engine that is not BUSY: nothing, or the start step of a pending START (R160, R224). -/
theorem engineStep_move_of_not_busy {s t : State} (hb : s.status ≠ .busy) (h : engineStep s = .next t) :
    EngineMove s t := by
  cases hs : s.start with
  | false =>
    simp only [engineStep, fetch, hb, hs, if_false, Bool.false_eq_true] at h
    cases h
    exact .idle hb rfl
  | true =>
    simp only [engineStep, fetch, hb, hs, if_false, if_true, fetchCommand] at h
    cases hi : decodeCmd s.cmd with
    | error e =>
      simp only [hi] at h
      cases h
      exact .rejected .illegalCmd hb hs (by simp [Cause.ofAccess]) rfl
    | ok i =>
      simp only [hi] at h
      rcases decodeCmd_ok hi with ⟨full, hv⟩ | ⟨full, hv⟩ | ⟨rfl, hcmd⟩
      · rw [exec_of_encode hv, stepEncode, if_neg hb] at h
        exact startStream_move hb hs (by simp [jobDirection_of_encode (s := beginStream s) rfl hi hv]) h
      · rw [exec_of_decode hv, stepDecode, if_neg hb] at h
        exact startStream_move hb hs (by simp [jobDirection_of_decode (s := beginStream s) rfl hi hv]) h
      · simp only [exec, execUbound, hb, if_false] at h
        exact startUbound_move hb hs hcmd h

/-! ### A running streaming job -/

/-- A part of a streaming job's step that is settled: where it completes it is the move `hok` names, and otherwise the
fault of an access (R205, R206). -/
theorem KeepsFrame.move {s t : State} {r : Except Stop State} (hr : KeepsFrame s r) (hd : jobDirection s ≠ none)
    (hok : r = .ok t → EngineFrame s t → EngineMove s t)
    (hstep : r = .ok t ∨ ∃ c a, r = .error (.raised c a) ∧ t = raiseInBlock c a s) : EngineMove s t := by
  rcases hstep with h | ⟨c, a, he, rfl⟩
  · exact hok h (hr.frame t h)
  · exact .faulted c a hd (hr.stop _ he) rfl

/-- The command of an encode job, met where the engine fetches it (R163, R164). -/
theorem stepEncode_move {full : Bool} {s t : State} (hd : jobDirection s ≠ none)
    (hstage : s.stage = .boundary ∨ s.stage = .close) (h : stepEncode full s = .next t) : EngineMove s t := by
  rcases stepEncode_next h with ⟨hb, -⟩ | ⟨-, hclose, rfl⟩ | ⟨-, hclose, hblk, hstep⟩ | ⟨-, hclose, -, rfl⟩
  · exact absurd (busy_of_jobDirection hd) hb
  · exact .block 0 hd (.inr ⟨hclose, rfl⟩) (closeBlock_frame _ _ _ s) (BitVec.add_zero _).symm rfl rfl
  · refine (encodeBlock_keepsFrame full s).move hd (fun hok hf => ?_) hstep
    have ht := encodeBlock_ok hok
    exact .block _ hd (.inl ⟨hstage.resolve_right hclose, hblk, length_payloadOf_le _⟩) hf (by rw [ht]; rfl)
      (by rw [ht]) (by rw [ht])
  · exact .finished hd (hstage.resolve_right hclose) rfl

/-- The command of a decode job, met where the engine fetches it (R163, R165). -/
theorem stepDecode_move {full : Bool} {s t : State} (hd : jobDirection s ≠ none)
    (hstage : s.stage = .boundary ∨ s.stage = .close) (h : stepDecode full s = .next t) : EngineMove s t := by
  rcases stepDecode_next h with ⟨hb, -⟩ | ⟨-, hclose, hstep⟩ | ⟨-, hclose, hblk, hstep⟩ | ⟨-, hclose, -, rfl⟩
  · exact absurd (busy_of_jobDirection hd) hb
  · refine (finishDecode_keepsFrame full s).move hd (fun hok hf => ?_) hstep
    have ht := finishDecode_ok hok
    exact .block 0 hd (.inr ⟨hclose, rfl⟩) hf (by simp [ht]) (by rw [ht]) (by rw [ht])
  · refine (decodeBlock_keepsFrame full s).move hd (fun hok hf => ?_) hstep
    have ht := decodeBlock_ok hok
    exact .block _ hd (.inl ⟨hstage.resolve_right hclose, hblk, blockAdvance_le _⟩) hf (by rw [ht]) (by rw [ht])
      (by rw [ht])
  · exact .finished hd (hstage.resolve_right hclose) rfl

/-- The command in CMD, run for a streaming job (R70). -/
theorem fetchCommand_move {s t : State} {i : Instr} (hd : jobDirection s ≠ none)
    (hstage : s.stage = .boundary ∨ s.stage = .close) (hi : decodeCmd s.cmd = .ok i) (h : exec i s = .next t) :
    EngineMove s t := by
  rcases decodeCmd_ok hi with ⟨full, hv⟩ | ⟨full, hv⟩ | ⟨-, hcmd⟩
  · exact stepEncode_move hd hstage (exec_of_encode hv s ▸ h)
  · exact stepDecode_move hd hstage (exec_of_decode hv s ▸ h)
  · exact absurd (jobDirection_of_ubound hcmd) hd

/-- A header word, run where a header is next (R145). -/
theorem execBlkhdr_move {lz tz : Lanes (BitVec 2)} {s t : State} (hd : jobDirection s ≠ none)
    (hstage : s.stage = .header) (h : execBlkhdr lz tz s = .next t) : EngineMove s t := by
  unfold execBlkhdr at h
  split at h
  · refine (thenStage_keepsFrame (putHeader_keepsFrame _ s) _).move hd (fun hok hf => ?_) (settle_next h)
    obtain ⟨u, hu, rfl⟩ := thenStage_ok hok
    obtain ⟨-, rfl⟩ := putHeader_ok_iff.1 hu
    exact .header hd hstage hf rfl rfl rfl
  · cases h
    exact .header hd hstage (.of_mem_eq rfl rfl) rfl rfl rfl
  · exact absurd ‹_› hd

/-- A lane descriptor, run where a lane is next (R142, R143). -/
theorem stepLane_move {w : Nat} {tz : BitVec 2} {s t : State} {k : Fin 8} (hw : w ≤ 4) (hd : jobDirection s ≠ none)
    (hstage : s.stage = .lane k) (h : stepLane w tz s = .next t) : EngineMove s t := by
  cases hdir : jobDirection s with
  | none => exact absurd hdir hd
  | some d =>
    cases d with
    | encode =>
      simp only [stepLane, hdir, hstage] at h
      refine (thenStage_keepsFrame (marshalLane_keepsFrame _ _ s) _).move hd (fun hok hf => ?_) (settle_next h)
      obtain ⟨u, hu, rfl⟩ := thenStage_ok hok
      obtain ⟨-, rfl⟩ := marshalLane_ok_iff.1 hu
      exact .lane k w hd hstage hw hf rfl rfl rfl
    | decode =>
      simp only [stepLane, hdir, hstage] at h
      refine (thenStage_keepsFrame (unmarshalLane_keepsFrame _ _ _ s) _).move hd (fun hok hf => ?_) (settle_next h)
      obtain ⟨u, hu, rfl⟩ := thenStage_ok hok
      obtain ⟨-, rfl⟩ := unmarshalLane_ok_iff.1 hu
      exact .lane k w hd hstage hw hf rfl rfl rfl

/-- What the fetch of a streaming job finds: the command at a block boundary and at the end of a block, a header word or
a lane descriptor in between, or the refused read of a header word (R163, R145). -/
theorem fetch_of_streaming {s : State} (hd : jobDirection s ≠ none) :
    (fetch s = fetchCommand s .lost ∧ (s.stage = .boundary ∨ s.stage = .close)) ∨
    (∃ h, fetch s = .run (decodeHdr h) ∧ s.stage = .header) ∨
    (∃ e, fetch s = .stopped e ∧ e.ofAccess) ∨
    ∃ k lz tz, fetch s = .run (laneOf tz lz) ∧ s.stage = .lane k := by
  have hb := busy_of_jobDirection hd
  cases hstage : s.stage with
  | boundary => exact .inl ⟨by simp [fetch, hb, hstage], .inl rfl⟩
  | close => exact .inl ⟨by simp [fetch, hb, hstage], .inr rfl⟩
  | lane k =>
    cases hdir : jobDirection s with
    | none => exact absurd hdir hd
    | some d => exact .inr (.inr (.inr ⟨k, hdrLz s.hdr k, hdrTz s.hdr k,
      by simp only [fetch, hb, hstage, fetchLane, hdir, if_true], rfl⟩))
  | header =>
    cases hdir : jobDirection s with
    | none => exact absurd hdir hd
    | some d =>
      cases d with
      | encode => exact .inr (.inl ⟨s.hdr, by simp only [fetch, hb, hstage, fetchHeader, hdir, if_true], rfl⟩)
      | decode =>
        cases hread : readHeader s with
        | ok h => exact .inr (.inl ⟨h, by simp only [fetch, hb, hstage, fetchHeader, hdir, hread, if_true], rfl⟩)
        | error e =>
          exact .inr (.inr (.inl ⟨e, by simp only [fetch, hb, hstage, fetchHeader, hdir, hread, if_true],
            srcRead_stop hread⟩))

theorem engineStep_move_of_streaming {s t : State} (hd : jobDirection s ≠ none) (h : engineStep s = .next t) :
    EngineMove s t := by
  rcases fetch_of_streaming hd with ⟨hf, hstage⟩ | ⟨w, hf, hstage⟩ | ⟨e, hf, he⟩ | ⟨k, lz, tz, hf, hstage⟩
  · cases hi : decodeCmd s.cmd with
    | error e =>
      simp only [engineStep, hf, fetchCommand, hi] at h
      cases h
    | ok i =>
      simp only [engineStep, hf, fetchCommand, hi] at h
      exact fetchCommand_move hd hstage hi h
  · simp only [engineStep, hf] at h
    exact execBlkhdr_move hd hstage h
  · simp only [engineStep, hf] at h
    have hstop : KeepsFrame s (.error e) := ⟨fun _ h => (nomatch h), fun _ h => Except.error.inj h ▸ he⟩
    exact hstop.move hd (fun h => (nomatch h)) (settle_next h)
  · simp only [engineStep, hf, exec_laneOf] at h
    exact stepLane_move (width_le lz) hd hstage h

/-! ### A running UBOUND -/

/-- A BUSY engine without a streaming job runs CMD wherever it stands. -/
theorem fetch_of_no_streaming {s : State} (hb : s.status = .busy) (hd : jobDirection s = none) :
    fetch s = fetchCommand s .lost := by
  cases hstage : s.stage <;> simp [fetch, hb, hstage, fetchHeader, fetchLane, hd]

theorem engineStep_move_of_no_streaming {s t : State} (hb : s.status = .busy) (hd : jobDirection s = none)
    (h : engineStep s = .next t) : EngineMove s t := by
  cases hi : decodeCmd s.cmd with
  | error e =>
    simp only [engineStep, fetch_of_no_streaming hb hd, fetchCommand, hi] at h
    cases h
  | ok i =>
    simp only [engineStep, fetch_of_no_streaming hb hd, fetchCommand, hi] at h
    rcases decodeCmd_ok hi with ⟨full, hv⟩ | ⟨full, hv⟩ | ⟨rfl, -⟩
    · simp [jobDirection_of_encode hb hi hv] at hd
    · simp [jobDirection_of_decode hb hi hv] at hd
    · simp only [exec, execUbound, hb, if_true] at h
      cases h
      exact .finishedUbound hb rfl

/-- Every step of the engine is one of its moves, in any state. -/
theorem engineStep_move {s t : State} (h : engineStep s = .next t) : EngineMove s t := by
  by_cases hb : s.status = .busy
  · by_cases hd : jobDirection s = none
    · exact engineStep_move_of_no_streaming hb hd h
    · exact engineStep_move_of_streaming hd h
  · exact engineStep_move_of_not_busy hb h

end Sys2Proof.Machine
end

section
/-! The statements about every step (10_state.md R22 to R40): the engine's writes, the moves of STATE, the register
space, the values after reset, and the invariant. -/

namespace Sys2Proof.Machine

/-! ### The engine's writes (R33) -/

/-- Settles O56: a start and a finish step leave memory, a fault loses the destination window alone, and the other moves
keep the frame. -/
theorem engineWritesOnlyDestination : Obligations.EngineWritesOnlyDestination := by
  intro s t a h ha
  cases engineStep_move h with
  | idle _ ht => rw [ht]
  | rejected _ _ _ _ ht => rw [ht, takeFault_mem, clearForStart_mem]
  | begun _ _ _ _ _ _ ht => rw [ht, beginStream_mem]
  | begunUbound _ _ _ _ ht => rw [ht, clearForStart_mem]
  | faulted _ _ _ _ ht =>
    rw [ht, raiseInBlock_mem]
    exact Memory.readByte_lose_outside (inDestination_eq_false_iff.1 ha)
  | block _ _ _ hf => exact hf.outside a ha
  | header _ _ hf => exact hf.outside a ha
  | lane _ _ _ _ _ hf => exact hf.outside a ha
  | finished _ _ ht => rw [ht, finishStream_mem]
  | finishedUbound _ ht => rw [ht, finishUbound_mem]

/-! ### The host's turns (R22, R36) -/

theorem accessDefined_iff {offset size : Nat} : accessDefined offset size = true ↔ size = 4 ∧ offset % 4 = 0 := by
  simp [accessDefined]

theorem startAsked_iff {offset : Nat} {v : Word} : startAsked offset v = true ↔ offset = 0 ∧ v.getLsbD 0 = true := by
  simp [startAsked]

theorem step_of_turns_nil {s : State} (h : s.turns = []) : step s = engineStep s := by
  simp only [step, h]

theorem step_of_turns_cons {s : State} {turn : Turn} {rest : List Turn} (h : s.turns = turn :: rest) :
    step s = takeTurn turn { s with turns := rest } := by
  simp only [step, h]

@[simp] theorem putRegister_status (offset : Nat) (v : Word) (s : State) :
    (putRegister offset v s).status = s.status := by
  rw [putRegister_frame]

/-- RESULT, FADDR, BLK and everything from 0x2C up ignore a write (R22). -/
theorem putRegister_of_ge {offset : Nat} (h : 0x20 ≤ offset) (v : Word) (s : State) : putRegister offset v s = s := by
  unfold putRegister
  split
  iterate 7 omega
  rfl

/-- Everything from 0x2C up reads as 0 (R22). -/
theorem getRegister_of_ge {offset : Nat} (h : 0x2C ≤ offset) (s : State) : getRegister offset s = 0 := by
  unfold getRegister
  split
  iterate 10 omega
  rfl

/-- What a register write does: a start step at once where it asks for a start, and otherwise the write alone. -/
theorem regWrite_next {offset size : Nat} {v : Word} {s t : State}
    (h : takeTurn (.regWrite offset size v) s = .next t) : accessDefined offset size = true ∧
      ((s.status = .busy ∧ t = s) ∨
       (s.status ≠ .busy ∧ startAsked offset v = true ∧ engineStep (putRegister offset v s) = .next t) ∨
       (s.status ≠ .busy ∧ startAsked offset v = false ∧ t = putRegister offset v s)) := by
  cases hw : hostWrite offset size v s with
  | fault r => simp only [takeTurn, hw] at h; cases h
  | refused r => simp only [takeTurn, hw] at h; cases h
  | next u =>
    simp only [takeTurn, hw] at h
    obtain ⟨hdef, ⟨hb, rfl⟩ | ⟨hb, rfl⟩⟩ := hostWrite_next hw
    · rw [if_neg fun hc => hc.1 hb] at h
      cases h
      exact ⟨hdef, .inl ⟨hb, rfl⟩⟩
    · cases hs : startAsked offset v with
      | true =>
        rw [if_pos ⟨by rwa [putRegister_status], hs⟩] at h
        exact ⟨hdef, .inr (.inl ⟨hb, rfl, h⟩)⟩
      | false =>
        rw [if_neg fun hc => by simp [hs] at hc] at h
        cases h
        exact ⟨hdef, .inr (.inr ⟨hb, rfl, rfl⟩)⟩

/-- A defined register write that asks for no start, of an engine that is not BUSY, is the register map's (R22). -/
theorem takeTurn_regWrite {offset : Nat} {v : Word} {s : State} (hb : s.status ≠ .busy) (ha : offset % 4 = 0)
    (hs : startAsked offset v = false) : takeTurn (.regWrite offset 4 v) s = .next (putRegister offset v s) := by
  simp [takeTurn, hostWrite, accessDefined_iff.2 ⟨rfl, ha⟩, hb, hs]

/-- A defined register read other than of STATUS and BLK changes only what the read returned (R22). -/
theorem takeTurn_regRead {offset : Nat} {s : State} (ha : offset % 4 = 0) (hstatus : offset ≠ 0x04)
    (hblk : offset ≠ 0x28) : takeTurn (.regRead offset 4) s = .next { s with hostData := getRegister offset s } := by
  simp [takeTurn, hostRead, accessDefined_iff.2 ⟨rfl, ha⟩, hstatus, hblk]

/-- A read of STATUS also frees the windows where it returns DONE or ERR (R22, R240). -/
theorem takeTurn_regRead_status (s : State) : takeTurn (.regRead 0x04 4) s = .next { s with
    hostData := statusWord s.status s.cause
    unread := if s.status = .done ∨ s.status = .err then [] else s.unread } := by
  simp [takeTurn, hostRead, accessDefined_iff.2, getRegister]

/-- A read of BLK is remembered (R246). -/
theorem takeTurn_regRead_blk (s : State) : takeTurn (.regRead 0x28 4) s =
    .next { s with hostData := readBlk s, blkSeen := readBlk s, freeCtr := s.freeCtr + 1 } := rfl

/-- A read of BLK is exact unless a streaming job has blocks still to do (R246, U25). -/
theorem readBlk_eq_blk {s : State} (h : jobDirection s = none ∨ s.blocks ≤ s.blk.toNat) : readBlk s = s.blk := by
  have hjob : jobBlocks s ≤ s.blk.toNat := by
    unfold jobBlocks
    split
    · exact Nat.zero_le _
    · exact h.resolve_left ‹_›
  simp only [readBlk]
  rw [if_neg (by omega)]

/-- STATUS packs STATE and CAUSE without overlap (R22). -/
theorem toNat_statusWord (st : JobState) (c : Cause) :
    (statusWord st c).toNat = st.code.toNat + 16 * c.code.toNat := by
  have hpack : ∀ (x : BitVec 2) (y : BitVec 4),
      (x.setWidth 32 ||| (y.setWidth 32 <<< 4) : Word).toNat = x.toNat + 16 * y.toNat := by decide
  exact hpack st.code c.code

/-- Settles O44: the write is defined and changes nothing, and a BUSY engine is not started. -/
theorem busyIgnoresWrites : Obligations.BusyIgnoresWrites := by
  intro s offset v rest hb ha hturns
  rw [step_of_turns_cons hturns]
  simp [takeTurn, hostWrite, accessDefined_iff.2 ⟨rfl, ha⟩, hb]

/-- Settles O45: one entry of the register map after the other. -/
theorem registerMapWrites : Obligations.RegisterMapWrites := by
  intro s offset v rest hb _ hturns
  have hwrite (ha : offset % 4 = 0) (hs : startAsked offset v = false) :
      step s = .next (putRegister offset v { s with turns := rest }) :=
    (step_of_turns_cons hturns).trans (takeTurn_regWrite (s := { s with turns := rest }) hb ha hs)
  have hquiet (h : offset ≠ 0) : startAsked offset v = false := by simp [startAsked, h]
  refine ⟨?_, ?_, ?_, ?_, ?_, ?_, ?_⟩
  iterate 6
    rintro rfl
    exact hwrite rfl (hquiet (by decide))
  rintro (⟨rfl, hv⟩ | rfl | ⟨hlo, ha⟩)
  · rw [hwrite rfl (by simp only [startAsked, hv, Bool.and_false])]
    simp only [putRegister, hv, Bool.false_eq_true, if_false]
  · exact hwrite rfl (hquiet (by decide))
  · rw [hwrite ha (hquiet (by omega)), putRegister_of_ge hlo]

/-- Settles O46: one entry of the register map after the other, STATUS and BLK with what else their reads change. -/
theorem registerMapReads : Obligations.RegisterMapReads := by
  intro s offset rest hturns
  have hstep := step_of_turns_cons hturns
  have hread (ha : offset % 4 = 0) (hstatus : offset ≠ 0x04) (hblk : offset ≠ 0x28) :
      step s = .next { s with turns := rest, hostData := getRegister offset { s with turns := rest } } :=
    hstep.trans (takeTurn_regRead ha hstatus hblk)
  refine ⟨?_, ?status, ?_, ?_, ?_, ?_, ?_, ?_, ?_, ?_, ?blk, ?above⟩
  case status =>
    rintro rfl
    exact ⟨_, hstep.trans (takeTurn_regRead_status _), toNat_statusWord s.status s.cause⟩
  case blk =>
    rintro rfl hexact
    exact ⟨_, hstep.trans (takeTurn_regRead_blk _), readBlk_eq_blk (s := { s with turns := rest }) hexact, rfl⟩
  case above =>
    rintro ⟨hlo, ha⟩
    rw [hread ha (by omega) (by omega), getRegister_of_ge hlo]
  all_goals
    rintro rfl
    exact hread rfl (by decide) (by decide)

/-- Settles O47: neither access is defined. -/
theorem oddAccessRefused : Obligations.OddAccessRefused := by
  intro s offset size v rest hodd
  have hdef : accessDefined offset size = false := by
    rw [← Bool.not_eq_true, accessDefined_iff]
    omega
  rw [step_of_turns_cons rfl, step_of_turns_cons rfl]
  simp [takeTurn, hostWrite, hostRead, hdef]

/-! ### The moves of STATE (R23) -/

/-- How a step of the engine moves STATE: by a pending START to BUSY or ERR, and from BUSY to DONE or ERR. -/
theorem EngineMove.status_moves {s t : State} (h : EngineMove s t) (hne : t.status ≠ s.status) :
    (s.status ≠ .busy ∧ s.start = true ∧ (t.status = .busy ∨ t.status = .err)) ∨
    (s.status = .busy ∧ (t.status = .done ∨ t.status = .err)) := by
  cases h with
  | idle _ ht => exact absurd (congrArg State.status ht) hne
  | rejected _ hb hs _ ht => exact .inl ⟨hb, hs, .inr (by rw [ht, takeFault_status])⟩
  | begun hb hs _ _ _ _ ht => exact .inl ⟨hb, hs, .inl (by rw [ht, beginStream_status])⟩
  | begunUbound hb hs _ _ ht => exact .inl ⟨hb, hs, .inl (by rw [ht])⟩
  | faulted _ _ hd _ ht => exact .inr ⟨busy_of_jobDirection hd, .inr (by rw [ht, raiseInBlock_status])⟩
  | block _ _ _ hf => exact absurd hf.status hne
  | header _ _ hf => exact absurd hf.status hne
  | lane _ _ _ _ _ hf => exact absurd hf.status hne
  | finished hd _ ht => exact .inr ⟨busy_of_jobDirection hd, .inl (by rw [ht, finishStream_status])⟩
  | finishedUbound hb ht => exact .inr ⟨hb, .inl (by rw [ht, finishUbound_status])⟩

@[simp] theorem resetEvent_status (s : State) : (resetEvent s).status = .idle := by
  unfold resetEvent
  split <;> rfl

/-- Settles O57: an engine turn moves STATE as the engine does, a register write only by the start step it asks for, the
other host turns not at all, and reset to IDLE. -/
theorem stateTransitions : Obligations.StateTransitions := by
  intro s t h hne
  cases hturns : s.turns with
  | nil =>
    rw [step_of_turns_nil hturns] at h
    rcases (engineStep_move h).status_moves hne with ⟨hb, hs, ht⟩ | ⟨hb, ht⟩
    · exact .inl ⟨hb, ht, .inl ⟨hs, .inl rfl⟩⟩
    · exact .inr (.inl ⟨hb, ht, .inl rfl⟩)
  | cons turn rest =>
    rw [step_of_turns_cons hturns] at h
    cases turn with
    | engine =>
      rcases (engineStep_move h).status_moves hne with ⟨hb, hs, ht⟩ | ⟨hb, ht⟩
      · exact .inl ⟨hb, ht, .inl ⟨hs, .inr ⟨rest, rfl⟩⟩⟩
      · exact .inr (.inl ⟨hb, ht, .inr ⟨rest, rfl⟩⟩)
    | regWrite offset size v =>
      obtain ⟨hdef, ⟨-, rfl⟩ | ⟨hb, hs, he⟩ | ⟨-, -, rfl⟩⟩ := regWrite_next h
      · exact absurd rfl hne
      · obtain ⟨rfl, hv⟩ := startAsked_iff.1 hs
        obtain ⟨rfl, -⟩ := accessDefined_iff.1 hdef
        rcases (engineStep_move he).status_moves (by rwa [putRegister_status]) with ⟨-, -, ht⟩ | ⟨hb', -⟩
        · exact .inl ⟨hb, ht, .inr ⟨v, rest, rfl, hv⟩⟩
        · exact absurd (by rwa [putRegister_status] at hb') hb
      · exact absurd (putRegister_status _ _ _) hne
    | regRead offset size =>
      obtain ⟨-, ht, -⟩ := hostRead_next h
      exact absurd (congrArg State.status ht) hne
    | memWrite a b => exact absurd (congrArg State.status (otherWrite_next h).2) hne
    | memRead a => exact absurd (congrArg State.status (otherRead_next h)) hne
    | reset =>
      cases h
      exact .inr (.inr ⟨resetEvent_status _, rest, rfl⟩)

/-! ### The values after reset (R40) -/

/-- Settles O51. -/
theorem resetValues : Obligations.ResetValues :=
  ⟨rfl, rfl, rfl, rfl, rfl, rfl, rfl, rfl, rfl, rfl, rfl⟩

/-- Settles O53: no job runs, and the one span of memory is of an occasion already past. -/
theorem resetMeetsInv : Obligations.ResetMeetsInv := by
  have htags : State.reset.mem.tagsBelow State.reset.freeCtr := by decide
  have hstatus : State.reset.statusInv := by decide
  exact ⟨Memory.wf_untouched, htags, hstatus, fun h => (nomatch h)⟩

end Sys2Proof.Machine
end

section
/-! Every step keeps the invariant (10_state.md R22 to R35, 43_jobs.md R161, 70_reset_and_hazards.md R246). -/

namespace Sys2Proof.Machine

/-! ### The arithmetic of a running job -/

/-- A legal count has at most 2^25 blocks, so that no cursor of a running job wraps (R5, R31). -/
theorem blockCount_le {n : Nat} (h : n ≤ Config.nmax) : blockCount n ≤ 2 ^ 25 := by
  unfold Config.nmax at h
  unfold blockCount
  omega

theorem lanesDone_afterLane (k : Fin 8) : (afterLane k).lanesDone = k.val + 1 := by
  unfold afterLane
  split
  · rfl
  · rw [Stage.lanesDone]
    omega

/-! ### The start and the end of a job -/

theorem inv_rejected {s : State} {c : Cause} (hi : s.Inv) (hc : c ≠ .noFault) :
    (takeFault c 0 (clearForStart s)).Inv := by
  obtain ⟨hwf, htags, -, -⟩ := hi
  exact ⟨hwf, htags, ⟨by simp [hc], fun _ => rfl, fun _ _ _ => rfl, fun _ => rfl⟩, fun h => (nomatch h)⟩

theorem inv_beginStream {s : State} (hi : s.Inv) (hd : jobDirection (beginStream s) ≠ none)
    (hn : s.n.toNat ≤ Config.nmax) (hfit : s.windowOverflows = false) (hapart : s.windowsAlias = false) :
    (beginStream s).Inv := by
  obtain ⟨hwf, htags, -, -⟩ := hi
  have hpcur : (beginStream s).pcur.toNat = headerBytes s.n.toNat := by
    have := blockCount_le hn
    rw [beginStream_pcur, BitVec.toNat_ofNat, Nat.mod_eq_of_lt]
    unfold headerBytes
    omega
  refine ⟨hwf, htags, ⟨by simp, fun _ => rfl, fun _ _ _ => rfl, fun _ => rfl⟩, fun _ =>
    ⟨rfl, hn, fun h => absurd h hd, fun _ => ⟨hfit, hapart, Nat.zero_le _, fun h => absurd rfl h, fun h => h, ?_, ?_⟩⟩⟩
  · exact hpcur.ge
  · exact hpcur.le

theorem inv_beginUbound {s : State} (hi : s.Inv) (hcmd : s.cmd = cmdWord 4) (hn : s.n.toNat ≤ Config.nmax) :
    State.Inv { clearForStart s with status := .busy } := by
  obtain ⟨hwf, htags, -, -⟩ := hi
  exact ⟨hwf, htags, ⟨by simp, fun _ => rfl, fun _ _ _ => rfl, fun _ => rfl⟩, fun _ =>
    ⟨rfl, hn, fun _ => ⟨hcmd, rfl, rfl⟩, fun h => (h (jobDirection_of_ubound hcmd)).elim⟩⟩

/-- A job that runs has seen no fault. -/
theorem noFault_of_busy {s : State} (hi : s.Inv) (hb : s.status = .busy) : s.cause = .noFault ∧ s.faddr = 0 := by
  obtain ⟨-, -, ⟨hcause, -, hfaddr, -⟩, -⟩ := hi
  have hnone : s.cause = .noFault := hcause.2 (by simp [hb])
  exact ⟨hnone, hfaddr (by simp [hnone]) (by simp [hnone]) (by simp [hnone])⟩

theorem inv_finishStream {s : State} (hi : s.Inv) (hb : s.status = .busy) (hs : s.stage = .boundary) :
    (finishStream s).Inv := by
  obtain ⟨hcause, hfaddr⟩ := noFault_of_busy hi hb
  obtain ⟨hwf, htags, -, -⟩ := hi
  exact ⟨hwf, htags, ⟨by simp [hcause], fun h => absurd rfl h, fun _ _ _ => hfaddr, fun _ => hs⟩,
    fun h => (nomatch h)⟩

theorem inv_finishUbound {s : State} (hi : s.Inv) (hb : s.status = .busy) : (finishUbound s).Inv := by
  obtain ⟨hcause, hfaddr⟩ := noFault_of_busy hi hb
  obtain ⟨hwf, htags, -, -⟩ := hi
  exact ⟨hwf, htags, ⟨by simp [hcause], fun h => absurd rfl h, fun _ _ _ => hfaddr, fun _ => rfl⟩,
    fun h => (nomatch h)⟩

/-! ### The loss of a window -/

/-- The windows of a running streaming job lie in the address space (R161). -/
theorem destination_fits {s : State} (hi : s.Inv) (hd : jobDirection s ≠ none) :
    s.dst.toNat + s.dstLen.toNat ≤ Config.addressSpace := by
  obtain ⟨-, -, -, hrun⟩ := hi
  obtain ⟨-, -, -, hstream⟩ := hrun (busy_of_jobDirection hd)
  obtain ⟨hfit, -⟩ := hstream hd
  simp only [State.windowOverflows, Bool.or_eq_false_iff, decide_eq_false_iff_not, Nat.not_lt] at hfit
  exact hfit.2

theorem wf_loseDestination {s : State} (hi : s.Inv) (hd : jobDirection s ≠ none) : (loseDestination s).mem.wf :=
  Memory.wf_lose hi.1 hi.2.1 (destination_fits hi hd)

theorem tagsBelow_loseDestination {s : State} (hi : s.Inv) :
    (loseDestination s).mem.tagsBelow (loseDestination s).freeCtr :=
  Memory.tagsBelow_lose hi.2.1

theorem inv_raiseInBlock {s : State} {c : Cause} (a : Nat) (hi : s.Inv) (hd : jobDirection s ≠ none)
    (hc : c.ofAccess) : (raiseInBlock c a s).Inv := by
  have hresult : s.result = 0 := by
    obtain ⟨-, -, ⟨-, hresult, -⟩, -⟩ := hi
    exact hresult (by simp [busy_of_jobDirection hd])
  refine ⟨wf_loseDestination hi hd, tagsBelow_loseDestination hi, ⟨?_, fun _ => hresult, ?_, fun _ => rfl⟩,
    fun h => (nomatch h)⟩
  · rcases hc with rfl | rfl | rfl <;> simp
  · intro hsrc hdst hbus
    rcases hc with rfl | rfl | rfl
    · exact absurd rfl hsrc
    · exact absurd rfl hdst
    · exact absurd rfl hbus

theorem inv_resetEvent {s : State} (hi : s.Inv) : (resetEvent s).Inv := by
  obtain ⟨-, -, hreset, -⟩ := resetMeetsInv
  unfold resetEvent
  split
  · obtain ⟨hwf, htags, -, -⟩ := hi
    exact ⟨hwf, htags, hreset, fun h => (nomatch h)⟩
  · exact ⟨wf_loseDestination hi ‹_›, tagsBelow_loseDestination hi, hreset, fun h => (nomatch h)⟩

/-! ### A running streaming job goes on -/

/-- A move of a running streaming job that keeps the frame keeps the invariant, when BLK and PCUR go on within the
bounds: BLK to B(N), PCUR to the longest stream so far (R24, R29). -/
theorem EngineFrame.inv {s t : State} (hf : EngineFrame s t) (hi : s.Inv) (hd : jobDirection s ≠ none)
    (hblk : s.blk.toNat ≤ t.blk.toNat) (hend : t.blk.toNat ≤ s.blocks)
    (hinside : t.stage ≠ .boundary → t.blk.toNat < s.blocks) (hlow : s.pcur.toNat ≤ t.pcur.toNat)
    (hhigh : t.pcur.toNat ≤ headerBytes s.n.toNat + 32 * t.blk.toNat + 4 * t.stage.lanesDone) : t.Inv := by
  have hb := busy_of_jobDirection hd
  obtain ⟨hwf, htags, ⟨hcause, hresult, hfaddr, -⟩, hrun⟩ := hi
  obtain ⟨hstart, hn, -, hstream⟩ := hrun hb
  obtain ⟨hfit, hapart, -, -, hseen, hpcur, -⟩ := hstream hd
  simp only [State.Inv, State.statusInv, State.runningInv, hf.freeCtr, hf.status, hf.cause, hf.result, hf.faddr,
    hf.start, hf.n, hf.jobDirection_eq, hf.windowOverflows, hf.windowsAlias, hf.blocks, hf.blkSeen]
  exact ⟨hf.wf hwf, hf.tagsBelow _ htags, ⟨hcause, hresult, hfaddr, fun h => absurd hb h⟩, fun _ =>
    ⟨hstart, hn, fun h => absurd h hd, fun _ => ⟨hfit, hapart, hend, hinside,
      fun h => hseen (Nat.lt_of_le_of_lt hblk h), Nat.le_trans hpcur hlow, hhigh⟩⟩⟩

/-- The bounds of a running streaming job, as numbers. -/
theorem streaming_bounds {s : State} (hi : s.Inv) (hd : jobDirection s ≠ none) :
    s.blocks ≤ 2 ^ 25 ∧ headerBytes s.n.toNat = 4 * s.blocks ∧ s.blk.toNat ≤ s.blocks ∧
      (s.stage ≠ .boundary → s.blk.toNat < s.blocks) ∧
      s.pcur.toNat ≤ headerBytes s.n.toNat + 32 * s.blk.toNat + 4 * s.stage.lanesDone := by
  obtain ⟨-, -, -, hrun⟩ := hi
  obtain ⟨-, hn, -, hstream⟩ := hrun (busy_of_jobDirection hd)
  obtain ⟨-, -, hblk, hinside, -, -, hhigh⟩ := hstream hd
  exact ⟨blockCount_le hn, rfl, hblk, hinside, hhigh⟩

/-- The end of a block step: BLK one more, and PCUR moved by at most the longest payload (R144, R164, R165). -/
theorem inv_block {s t : State} {w : Nat} (hi : s.Inv) (hd : jobDirection s ≠ none)
    (hw : (s.stage = .boundary ∧ s.blk.toNat < s.blocks ∧ w ≤ 32) ∨ (s.stage = .close ∧ w = 0))
    (hf : EngineFrame s t) (hpcur : t.pcur = s.pcur + BitVec.ofNat 32 w) (hblk : t.blk = s.blk + 1)
    (hstage : t.stage = .boundary) : t.Inv := by
  obtain ⟨hB, hH, -, hinside, hhigh⟩ := streaming_bounds hi hd
  have hroom : s.blk.toNat < s.blocks ∧ 4 * s.stage.lanesDone + w ≤ 32 := by
    rcases hw with ⟨hs, hlt, hw⟩ | ⟨hs, rfl⟩
    · exact ⟨hlt, by simpa [hs, Stage.lanesDone] using hw⟩
    · exact ⟨hinside (by simp [hs]), by simp [hs, Stage.lanesDone]⟩
  have hblk' : t.blk.toNat = s.blk.toNat + 1 := by
    rw [hblk]
    exact cursor_past (w := 1) (b := 2 ^ 25) (by omega) (by decide)
  have hpcur' : t.pcur.toNat = s.pcur.toNat + w := by
    rw [hpcur]
    exact cursor_past (b := 2 ^ 31) (by omega) (by decide)
  refine hf.inv hi hd (by omega) (by omega) (fun h => absurd hstage h) (by omega) ?_
  rw [hstage, Stage.lanesDone]
  omega

/-- A header row: BLK and PCUR stay. -/
theorem inv_header {s t : State} (hi : s.Inv) (hd : jobDirection s ≠ none) (hs : s.stage = .header)
    (hf : EngineFrame s t) (hpcur : t.pcur = s.pcur) (hblk : t.blk = s.blk) (hstage : t.stage = .lane 0) : t.Inv := by
  obtain ⟨-, -, hle, hinside, hhigh⟩ := streaming_bounds hi hd
  have hlt := hinside (by simp [hs])
  refine hf.inv hi hd (by rw [hblk]) (by rwa [hblk]) (fun _ => by rwa [hblk]) (by rw [hpcur]) ?_
  simpa [hpcur, hblk, hstage, hs, Stage.lanesDone] using hhigh

/-- A lane row: PCUR moves by at most a word (R76). -/
theorem inv_lane {s t : State} {k : Fin 8} {w : Nat} (hi : s.Inv) (hd : jobDirection s ≠ none)
    (hs : s.stage = .lane k) (hw : w ≤ 4) (hf : EngineFrame s t) (hpcur : t.pcur = s.pcur + BitVec.ofNat 32 w)
    (hblk : t.blk = s.blk) (hstage : t.stage = afterLane k) : t.Inv := by
  obtain ⟨hB, hH, hle, hinside, hhigh⟩ := streaming_bounds hi hd
  have hlt := hinside (by simp [hs])
  rw [hs, Stage.lanesDone] at hhigh
  have hk := k.isLt
  have hpcur' : t.pcur.toNat = s.pcur.toNat + w := by
    rw [hpcur]
    exact cursor_past (b := 2 ^ 31) (by omega) (by decide)
  refine hf.inv hi hd (by rw [hblk]) (by rwa [hblk]) (fun _ => by rwa [hblk]) (by omega) ?_
  rw [hstage, lanesDone_afterLane, hblk]
  omega

/-- Every move of the engine keeps the invariant. -/
theorem EngineMove.inv {s t : State} (h : EngineMove s t) (hi : s.Inv) : t.Inv := by
  cases h with
  | idle _ ht => exact ht ▸ hi
  | rejected _ _ _ hc ht => exact ht ▸ inv_rejected hi hc.1
  | begun _ _ hd hn hfit hapart ht =>
    subst ht
    exact inv_beginStream hi hd hn hfit hapart
  | begunUbound _ _ hcmd hn ht => exact ht ▸ inv_beginUbound hi hcmd hn
  | faulted c a hd hc ht => exact ht ▸ inv_raiseInBlock a hi hd hc
  | block w hd hw hf hpcur hblk hstage => exact inv_block hi hd hw hf hpcur hblk hstage
  | header hd hs hf hpcur hblk hstage => exact inv_header hi hd hs hf hpcur hblk hstage
  | lane k w hd hs hw hf hpcur hblk hstage => exact inv_lane hi hd hs hw hf hpcur hblk hstage
  | finished hd hs ht => exact ht ▸ inv_finishStream hi (busy_of_jobDirection hd) hs
  | finishedUbound hb ht => exact ht ▸ inv_finishUbound hi hb

/-! ### The host's turns -/

/-- A register write between jobs touches nothing the invariant speaks of there. -/
theorem inv_putRegister {s : State} (offset : Nat) (v : Word) (hi : s.Inv) (hb : s.status ≠ .busy) :
    (putRegister offset v s).Inv := by
  obtain ⟨hwf, htags, hstatus, -⟩ := hi
  rw [putRegister_frame]
  exact ⟨hwf, htags, hstatus, fun h => absurd h hb⟩

/-- A read of BLK while blocks are still to be completed returns the index of one of them (R246). -/
theorem readBlk_lt {s : State} (hd : jobDirection s ≠ none) (hblk : s.blk.toNat < s.blocks)
    (hseen : s.blkSeen.toNat < s.blocks) : (readBlk s).toNat < s.blocks := by
  have hleast : max s.blk.toNat s.blkSeen.toNat < s.blocks := Nat.max_lt.2 ⟨hblk, hseen⟩
  simp only [readBlk, jobBlocks, if_neg hd]
  rw [if_pos hleast, BitVec.toNat_ofNat]
  refine Nat.lt_of_le_of_lt (Nat.mod_le _ _) ?_
  have := Nat.mod_lt (Config.freeChoice s.freeCtr) (Nat.sub_pos_of_lt hleast)
  omega

theorem inv_hostRead {offset size : Nat} {s t : State} (hi : s.Inv) (h : hostRead offset size s = .next t) : t.Inv := by
  obtain ⟨hwf, htags, hstatus, hrun⟩ := hi
  unfold hostRead at h
  split at h
  · cases h
  · split at h
    · cases h
      refine ⟨hwf, fun sp hsp => Nat.lt_succ_of_lt (htags sp hsp), hstatus, fun hb => ?_⟩
      obtain ⟨hstart, hn, hubound, hstream⟩ := hrun hb
      refine ⟨hstart, hn, hubound, fun hd => ?_⟩
      obtain ⟨hfit, hapart, hblk, hinside, hseen, hpcur⟩ := hstream hd
      exact ⟨hfit, hapart, hblk, hinside, fun hlt => readBlk_lt hd hlt (hseen hlt), hpcur⟩
    · cases h
      exact ⟨hwf, htags, hstatus, hrun⟩

theorem inv_otherWrite {a : Word} {b : Byte} {s t : State} (hi : s.Inv) (h : otherWrite a b s = .next t) : t.Inv := by
  obtain ⟨hwf, htags, hstatus, hrun⟩ := hi
  obtain ⟨-, rfl⟩ := otherWrite_next h
  exact ⟨Memory.wf_writeByte hwf a.isLt b, Memory.tagsBelow_writeByte htags _ b, hstatus, hrun⟩

theorem inv_otherRead {a : Word} {s t : State} (hi : s.Inv) (h : otherRead a s = .next t) : t.Inv := by
  rw [otherRead_next h]
  exact hi

/-- Settles O54: the engine's moves keep the invariant, and so does each turn of the host. -/
theorem stepKeepsInv : Obligations.StepKeepsInv := by
  intro s t hi h
  cases hturns : s.turns with
  | nil =>
    rw [step_of_turns_nil hturns] at h
    exact (engineStep_move h).inv hi
  | cons turn rest =>
    rw [step_of_turns_cons hturns] at h
    have hi' : State.Inv { s with turns := rest } := hi
    cases turn with
    | engine => exact (engineStep_move h).inv hi'
    | regWrite offset size v =>
      obtain ⟨-, ⟨-, rfl⟩ | ⟨hb, -, he⟩ | ⟨hb, -, rfl⟩⟩ := regWrite_next h
      · exact hi'
      · exact (engineStep_move he).inv (inv_putRegister offset v hi' hb)
      · exact inv_putRegister offset v hi' hb
    | regRead offset size => exact inv_hostRead hi' h
    | memWrite a b => exact inv_otherWrite hi' h
    | memRead a => exact inv_otherRead hi' h
    | reset =>
      cases h
      exact inv_resetEvent hi'

end Sys2Proof.Machine
end

section
/-! How a block step goes through its accesses (20_memory.md R53, R54, R59): lane after lane, to the first one that is
refused. The widths and offsets of an encode block's lanes are those of its header word (42_header_payload.md R141,
R143). -/

namespace Sys2Proof.Machine

/-! ### The widths that a header word gives (R76, R141) -/

theorem getLsbD_foldl_or {α : Type} (f g : α → Word) (l : List α) (h : Word) (i : Nat) :
    (l.foldl (fun h k => h ||| f k ||| g k) h).getLsbD i =
      (h.getLsbD i || l.any fun k => (f k).getLsbD i || (g k).getLsbD i) := by
  induction l generalizing h with
  | nil => simp
  | cons x l ih => simp [ih, Bool.or_assoc]

/-- The lz fields lie apart from each other and below the tz fields, so that each is read where it was put (R74). -/
theorem hdrLz_packHdr (lz tz : Lanes (BitVec 2)) (k : Fin 8) : hdrLz (packHdr lz tz) k = lz[k] := by
  refine BitVec.eq_of_getLsbD_eq fun i hi => ?_
  have hk := k.isLt
  rw [hdrLz, BitVec.getLsbD_extractLsb', packHdr, getLsbD_foldl_or, Bool.eq_iff_iff]
  simp only [hi, decide_true, Bool.true_and, BitVec.ofNat_eq_ofNat, BitVec.getLsbD_zero, Bool.false_or,
    List.any_eq_true, Bool.or_eq_true, BitVec.getLsbD_shiftLeft, BitVec.getLsbD_setWidth, Bool.and_eq_true,
    decide_eq_true_eq, Bool.not_eq_true', decide_eq_false_iff_not, Nat.not_lt]
  constructor
  · rintro ⟨j, -, ⟨⟨-, hlo⟩, -, hbit⟩ | ⟨⟨-, hlo⟩, -⟩⟩
    · have hj := BitVec.lt_of_getLsbD hbit
      obtain rfl : j = k := Fin.ext (by omega)
      rwa [Nat.add_sub_cancel_left] at hbit
    · omega
  · intro hbit
    refine ⟨k, mem_laneOrder k, .inl ⟨⟨by omega, by omega⟩, by omega, ?_⟩⟩
    rwa [Nat.add_sub_cancel_left]

/-- The encoder's and the decoder's form of the payload width agree (R76, R124). -/
theorem width_lz_strip (r : Word) : width (strip r).lz = (strip r).width := by
  have hle : lzBytes r ≤ 4 := (wholeBytes_of_le_32 (clz32_le _)).1
  simp only [strip, stripWidth, lzField]
  generalize lzBytes r = c at hle
  interval_cases c <;> rfl

theorem laneWidth_headerOf (r : Lanes Word) (k : Fin 8) : laneWidth (headerOf r) k = (strip r[k]).width := by
  rw [laneWidth, headerOf, hdrLz_packHdr, ← width_lz_strip]
  exact congrArg (fun p => width p) (Vector.getElem_ofFn k.isLt)

/-! ### Eight lanes, one after the other (R59) -/

theorem take_succ_laneOrder (k : Fin 8) : laneOrder.take (k.val + 1) = laneOrder.take k.val ++ [k] := by
  revert k
  decide

theorem laneOrder_eq_append (k : Fin 8) :
    laneOrder = laneOrder.take k.val ++ k :: laneOrder.drop (k.val + 1) := by
  revert k
  decide

theorem bind_of_ok {α β : Type} {x : Except Stop α} {a : α} (h : x = .ok a) (f : α → Except Stop β) :
    (x >>= f) = f a := by
  rw [h]
  rfl

theorem bind_of_error {α β : Type} {x : Except Stop α} {e : Stop} (h : x = .error e) (f : α → Except Stop β) :
    (x >>= f) = .error e := by
  rw [h]
  rfl

section LaneFold

variable {β : Type} {f : β → Fin 8 → Except Stop β} {P : Nat → β → Prop} {b : β}

/-- Lanes that each complete, where those before them have, complete one after the other. -/
theorem firstLanes_ok {n : Nat} (hn : n ≤ 8) (h0 : P 0 b)
    (hstep : ∀ j : Fin 8, j.val < n → ∀ c, P j c → ∃ c', f c j = .ok c' ∧ P (j + 1) c') :
    ∃ c, (laneOrder.take n).foldlM f b = .ok c ∧ P n c := by
  induction n with
  | zero => exact ⟨b, rfl, h0⟩
  | succ n ih =>
    obtain ⟨c, hc, hP⟩ := ih (by omega) fun j hj => hstep j (by omega)
    obtain ⟨c', hc', hP'⟩ := hstep ⟨n, hn⟩ (Nat.lt_succ_self n) c hP
    refine ⟨c', ?_, hP'⟩
    rw [take_succ_laneOrder ⟨n, hn⟩, List.foldlM_append, bind_of_ok hc, foldlM_cons_ok]
    exact ⟨c', hc', rfl⟩

theorem laneFold_ok (h0 : P 0 b) (hstep : ∀ (j : Fin 8) c, P j c → ∃ c', f c j = .ok c' ∧ P (j + 1) c') :
    ∃ c, laneOrder.foldlM f b = .ok c ∧ P 8 c :=
  firstLanes_ok (Nat.le_refl 8) h0 fun j _ => hstep j

/-- The first lane that is refused, those before it completing, stops the eight (R59, R204). -/
theorem laneFold_error {k : Fin 8} {e : Stop} (h0 : P 0 b)
    (hstep : ∀ j : Fin 8, j < k → ∀ c, P j c → ∃ c', f c j = .ok c' ∧ P (j + 1) c')
    (herr : ∀ c, P k c → f c k = .error e) : laneOrder.foldlM f b = .error e := by
  obtain ⟨c, hc, hP⟩ := firstLanes_ok (n := k) (Nat.le_of_lt k.isLt) h0 fun j hj => hstep j hj
  rw [laneOrder_eq_append k, List.foldlM_append, bind_of_ok hc, List.foldlM_cons]
  exact bind_of_error (herr c hP) _

end LaneFold

/-! ### Which accesses are refused, and from where (R53, R54) -/

namespace EngineFrame

/-- Whether an access is refused depends on the windows and the platform alone. -/
theorem srcOk_iff {s t : State} (h : EngineFrame s t) {off n : Nat} : t.srcOk off n ↔ s.srcOk off n := by
  rw [h.registers]

theorem dstOk_iff {s t : State} (h : EngineFrame s t) {off n : Nat} : t.dstOk off n ↔ s.dstOk off n := by
  rw [h.registers]

theorem srcRead_error {s t : State} (h : EngineFrame s t) {off n : Nat} {e : Stop}
    (he : srcRead s off n = .error e) : srcRead t off n = .error e := by
  rw [srcRead_error_iff] at he ⊢
  rw [h.registers]
  exact he

theorem dstWrite_error {s t : State} (h : EngineFrame s t) {off n : Nat} {v w : Word} {e : Stop}
    (he : dstWrite s off n v = .error e) : dstWrite t off n w = .error e := by
  rw [dstWrite_error_iff] at he ⊢
  rw [h.registers]
  exact he

end EngineFrame

section Refused

variable {s : State} {off n : Nat} {v : Word}

theorem srcRead_bounds (hn : n ≠ 0) (h : s.srcLen.toNat < off + n) :
    srcRead s off n = .error (.raised .srcBounds (s.src.toNat + off)) :=
  srcRead_error_iff.2 ⟨hn, .inl ⟨h, rfl⟩⟩

theorem srcRead_bus (hn : n ≠ 0) (h : off + n ≤ s.srcLen.toNat)
    (hadm : s.plat.admits (s.src.toNat + off) n .read = false) :
    srcRead s off n = .error (.raised .bus (s.src.toNat + off)) :=
  srcRead_error_iff.2 ⟨hn, .inr (.inl ⟨h, hadm, rfl⟩)⟩

theorem dstWrite_bounds (hn : n ≠ 0) (h : s.dstLen.toNat < off + n) :
    dstWrite s off n v = .error (.raised .dstBounds (s.dst.toNat + off)) :=
  dstWrite_error_iff.2 ⟨hn, .inl ⟨h, rfl⟩⟩

theorem dstWrite_bus (hn : n ≠ 0) (h : off + n ≤ s.dstLen.toNat)
    (hadm : s.plat.admits (s.dst.toNat + off) n .write = false) :
    dstWrite s off n v = .error (.raised .bus (s.dst.toNat + off)) :=
  dstWrite_error_iff.2 ⟨hn, .inr (.inl ⟨h, hadm, rfl⟩)⟩

end Refused

/-! ### The cursor of a block's payload (R142, R143) -/

/-- In `t` the engine has done the first `n` lanes of the block that it met in `s`, at the widths of the header word. -/
structure LanesDone (s : State) (h : Word) (n : Nat) (t : State) : Prop where
  frame : EngineFrame s t
  pcur : t.pcur.toNat = s.pcur.toNat + ((laneOrder.take n).map (laneWidth h)).sum

theorem LanesDone.zero {s t : State} {h : Word} (hf : EngineFrame s t) (hp : t.pcur = s.pcur) : LanesDone s h 0 t :=
  ⟨hf, congrArg BitVec.toNat hp⟩

/-- Lane `k`'s payload stands after those of the lanes before it (R72, R143). -/
theorem LanesDone.pcur_eq {s t : State} {h : Word} {k : Fin 8} (hd : LanesDone s h k t) :
    t.pcur.toNat = s.pcur.toNat + laneOffset h k :=
  hd.pcur

/-- Lane `k` done, within a window. -/
theorem LanesDone.next {s t u : State} {h : Word} {k : Fin 8} {len : Word} (hd : LanesDone s h k t)
    (hf : EngineFrame t u) (hp : u.pcur = t.pcur + BitVec.ofNat 32 (laneWidth h k))
    (hfit : laneWidth h k = 0 ∨ s.pcur.toNat + laneOffset h k + laneWidth h k ≤ len.toNat) :
    LanesDone s h (k + 1) u where
  frame := hd.frame.trans hf
  pcur := by
    have hpast : u.pcur.toNat = t.pcur.toNat + laneWidth h k := by
      rw [hp]
      rcases hfit with h0 | hfit
      · rw [h0]
        exact congrArg BitVec.toNat (BitVec.add_zero _)
      · exact cursor_past (hd.pcur_eq ▸ hfit) len.isLt
    rw [hpast, hd.pcur_eq, take_succ_laneOrder, List.map_append, List.sum_append, laneOffset]
    simp [Nat.add_assoc]

/-! ### Marshalling (R142) -/

section Marshal

variable {s : State} {r : Lanes Word}

theorem marshalResidual_next {t : State} {j : Fin 8} (hd : LanesDone s (headerOf r) j t)
    (hok : s.dstOk (s.pcur.toNat + laneOffset (headerOf r) j) (laneWidth (headerOf r) j)) :
    ∃ u, marshalResidual r t j = .ok u ∧ LanesDone s (headerOf r) (j + 1) u := by
  have hok' : t.dstOk t.pcur.toNat (strip r[j]).width := by
    rw [hd.frame.dstOk_iff, hd.pcur_eq, ← laneWidth_headerOf]
    exact hok
  have hu := (marshalLane_ok_iff (sig := (strip r[j]).sig)).2 ⟨hok', rfl⟩
  refine ⟨_, hu, hd.next ((marshalLane_keepsFrame _ _ t).frame _ hu) (len := s.dstLen) ?_ (hok.imp_right And.left)⟩
  rw [laneWidth_headerOf]

/-- Marshalling completes where none of its writes is refused. -/
theorem marshalBlock_complete
    (hok : ∀ k : Fin 8, s.dstOk (s.pcur.toNat + laneOffset (headerOf r) k) (laneWidth (headerOf r) k)) :
    ∃ t, marshalBlock r s = .ok t := by
  obtain ⟨t, ht, -⟩ := laneFold_ok (f := marshalResidual r) (P := LanesDone s (headerOf r)) (.zero (.refl s) rfl)
    fun j _ hd => marshalResidual_next hd (hok j)
  exact ⟨t, ht⟩

/-- Marshalling stops at its first write that is refused. -/
theorem marshalBlock_error {k : Fin 8} {v : Word} {e : Stop}
    (hok : ∀ j : Fin 8, j < k → s.dstOk (s.pcur.toNat + laneOffset (headerOf r) j) (laneWidth (headerOf r) j))
    (he : dstWrite s (s.pcur.toNat + laneOffset (headerOf r) k) (laneWidth (headerOf r) k) v = .error e) :
    marshalBlock r s = .error e := by
  refine laneFold_error (P := LanesDone s (headerOf r)) (.zero (.refl s) rfl)
    (fun j hj _ hd => marshalResidual_next hd (hok j hj)) fun t hd => marshalLane_error_iff.2 ?_
  rw [hd.pcur_eq, ← laneWidth_headerOf]
  exact hd.frame.dstWrite_error he

end Marshal

/-! ### Unmarshalling (R143) -/

section Unmarshal

variable {s t : State} {h : Word}

theorem unmarshalField_next {c : State} {j : Fin 8} (hd : LanesDone s h j c)
    (hok : s.srcOk (s.pcur.toNat + laneOffset h j) (laneWidth h j)) :
    ∃ u, unmarshalField h c j = .ok u ∧ LanesDone s h (j + 1) u := by
  have hok' : c.srcOk c.pcur.toNat (laneWidth h j) := by
    rw [hd.frame.srcOk_iff, hd.pcur_eq]
    exact hok
  have hu := (unmarshalLane_ok_iff (k := j) (tz := hdrTz h j)).2 ⟨hok', rfl⟩
  exact ⟨_, hu, hd.next ((unmarshalLane_keepsFrame _ _ _ c).frame _ hu) (len := s.srcLen) rfl
    (hok.imp_right And.left)⟩

/-- Unmarshalling completes where none of its reads is refused. -/
theorem unmarshalBlock_complete (h0 : LanesDone s h 0 t)
    (hok : ∀ k : Fin 8, s.srcOk (s.pcur.toNat + laneOffset h k) (laneWidth h k)) :
    ∃ u, unmarshalBlock h t = .ok u ∧ EngineFrame s u := by
  obtain ⟨u, hu, hd⟩ := laneFold_ok (f := unmarshalField h) (P := LanesDone s h) h0
    fun j _ hd => unmarshalField_next hd (hok j)
  exact ⟨u, hu, hd.frame⟩

/-- Unmarshalling stops at its first read that is refused. -/
theorem unmarshalBlock_error {k : Fin 8} {e : Stop} (h0 : LanesDone s h 0 t)
    (hok : ∀ j : Fin 8, j < k → s.srcOk (s.pcur.toNat + laneOffset h j) (laneWidth h j))
    (he : srcRead s (s.pcur.toNat + laneOffset h k) (laneWidth h k) = .error e) :
    unmarshalBlock h t = .error e := by
  refine laneFold_error (P := LanesDone s h) h0 (fun j hj _ hd => unmarshalField_next hd (hok j hj))
    fun u hd => unmarshalLane_error_iff.2 ?_
  rw [hd.pcur_eq]
  exact hd.frame.srcRead_error he

end Unmarshal

/-! ### The values of a block (R164, R165) -/

section Values

variable {s : State}

/-- Fetching completes where no real lane's read is refused. -/
theorem readValues_complete (hok : ∀ k : Fin 8, k.val < s.realLanes → s.srcOk (s.valueOffset k) 4) :
    readValues s = .ok s.sourceBlock := by
  obtain ⟨v, hv⟩ := readValueList_complete (l := laneOrder) (u := Lanes.same 0) fun k _ => hok k
  exact (readValues_ok hv).1 ▸ hv

/-- Fetching stops at the first real lane whose read is refused. -/
theorem readValues_error {k : Fin 8} {e : Stop} (hk : k.val < s.realLanes)
    (hok : ∀ j : Fin 8, j < k → s.srcOk (s.valueOffset j) 4) (he : srcRead s (s.valueOffset k) 4 = .error e) :
    readValues s = .error e := by
  refine laneFold_error (k := k) (P := fun _ _ => True) trivial (fun j hj v _ => ?_) fun v _ => ?_
  · rw [readValue, if_pos (Nat.lt_trans hj hk), srcRead_ok_iff.2 ⟨hok j hj, rfl⟩]
    exact ⟨_, rfl, trivial⟩
  · rw [readValue, if_pos hk, he]

/-- Writing the values stops at the first real lane whose write is refused, wherever in the block it begins. -/
theorem writeValues_error {t : State} {v : Lanes Word} {k : Fin 8} {e : Stop} {x : Word} (hf : EngineFrame s t)
    (hblk : t.blk = s.blk) (hk : k.val < s.realLanes) (hok : ∀ j : Fin 8, j < k → s.dstOk (s.valueOffset j) 4)
    (he : dstWrite s (s.valueOffset k) 4 x = .error e) : writeValues v t = .error e := by
  have hreal : t.realLanes = s.realLanes := by simp only [State.realLanes, hf.n, hblk]
  have hoff : ∀ j, t.valueOffset j = s.valueOffset j := fun j => by simp only [State.valueOffset, hblk]
  refine laneFold_error (k := k) (P := fun _ => EngineFrame s) hf (fun j hj c hc => ?_) fun c hc => ?_
  · have hu := dstWrite_ok_iff (v := v[j]).2 ⟨hc.dstOk_iff.2 (hok j hj), rfl⟩
    refine ⟨_, ?_, hc.trans ((dstWrite_keepsFrame c _ _ _).frame _ hu)⟩
    rw [writeValue, hreal, if_pos (Nat.lt_trans hj hk), hoff, hu]
  · rw [writeValue, hreal, if_pos hk, hoff]
    exact hc.dstWrite_error he

end Values

/-! ### The encode block step (R164) -/

section EncodeBlock

variable {full : Bool} {s : State}

/-- An encode block step that has its values, at its header move. -/
def openedBlock (full : Bool) (s : State) : State :=
  { s with
    resid := Predictor.residuals full s.pred (s.pred.deltas s.sourceBlock)
    hdr := (encb full s.pred s.sourceBlock).2.1 }

theorem openedBlock_frame (full : Bool) (s : State) : EngineFrame s (openedBlock full s) := .of_mem_eq rfl rfl

theorem openEncode_complete (hok : ∀ k : Fin 8, k.val < s.realLanes → s.srcOk (s.valueOffset k) 4) :
    openEncode full s = .ok (s.sourceBlock, openedBlock full s) := by
  rw [openEncode, readValues_complete hok]
  rfl

theorem encodeBlock_error_of_values {e : Stop} (he : readValues s = .error e) : encodeBlock full s = .error e := by
  have hopen : openEncode full s = .error e := by rw [openEncode, he]
  exact bind_of_error hopen _

theorem encodeBlock_error_of_header {e : Stop} {v : Word}
    (hok : ∀ k : Fin 8, k.val < s.realLanes → s.srcOk (s.valueOffset k) 4)
    (he : dstWrite s s.headerOffset 4 v = .error e) : encodeBlock full s = .error e := by
  have hput : putHeader (openedBlock full s).hdr (openedBlock full s) = .error e :=
    putHeader_error_iff.2 ((openedBlock_frame full s).dstWrite_error he)
  exact (bind_of_ok (openEncode_complete hok) _).trans (bind_of_error hput _)

/-- With its header written, what is left of an encode block step is to marshal its residuals and to end. -/
theorem encodeBlock_of_header (hok : ∀ k : Fin 8, k.val < s.realLanes → s.srcOk (s.valueOffset k) 4)
    (hhdr : s.dstOk s.headerOffset 4) :
    ∃ t, EngineFrame s t ∧ t.pcur = s.pcur ∧ encodeBlock full s =
      (marshalBlock (Predictor.residuals full s.pred (s.pred.deltas s.sourceBlock)) t).bind fun u =>
        .ok (closeBlock full s.sourceBlock (s.pred.deltas s.sourceBlock) u) := by
  have hput := (putHeader_ok_iff (h := (openedBlock full s).hdr)).2
    ⟨(openedBlock_frame full s).dstOk_iff.2 hhdr, rfl⟩
  exact ⟨_, (openedBlock_frame full s).trans ((putHeader_keepsFrame _ _).frame _ hput), rfl,
    (bind_of_ok (openEncode_complete hok) _).trans (bind_of_ok hput _)⟩

theorem encodeBlock_error_of_payload {k : Fin 8} {e : Stop} {v : Word}
    (hok : ∀ k : Fin 8, k.val < s.realLanes → s.srcOk (s.valueOffset k) 4) (hhdr : s.dstOk s.headerOffset 4)
    (hprev : ∀ j : Fin 8, j < k → s.dstOk (s.pcur.toNat + laneOffset (encb full s.pred s.sourceBlock).2.1 j)
      (laneWidth (encb full s.pred s.sourceBlock).2.1 j))
    (he : dstWrite s (s.pcur.toNat + laneOffset (encb full s.pred s.sourceBlock).2.1 k)
      (laneWidth (encb full s.pred s.sourceBlock).2.1 k) v = .error e) : encodeBlock full s = .error e := by
  obtain ⟨t, hf, hp, heq⟩ := encodeBlock_of_header (full := full) hok hhdr
  rw [heq]
  refine bind_of_error (marshalBlock_error (k := k) (v := v) (fun j hj => ?_) ?_) _
  · rw [hf.dstOk_iff, hp]
    exact hprev j hj
  · rw [hp]
    exact hf.dstWrite_error he

/-- An encode block step completes where none of its own accesses is refused. -/
theorem encodeBlock_complete (hok : ∀ k : Fin 8, k.val < s.realLanes → s.srcOk (s.valueOffset k) 4)
    (hhdr : s.dstOk s.headerOffset 4)
    (hpay : ∀ k : Fin 8, s.dstOk (s.pcur.toNat + laneOffset (encb full s.pred s.sourceBlock).2.1 k)
      (laneWidth (encb full s.pred s.sourceBlock).2.1 k)) : ∃ t, encodeBlock full s = .ok t := by
  obtain ⟨t, hf, hp, heq⟩ := encodeBlock_of_header (full := full) hok hhdr
  obtain ⟨u, hu⟩ := marshalBlock_complete (s := t)
    (r := Predictor.residuals full s.pred (s.pred.deltas s.sourceBlock)) fun k => by
      rw [hf.dstOk_iff, hp]
      exact hpay k
  exact ⟨_, heq.trans (bind_of_ok hu _)⟩

end EncodeBlock

/-! ### The decode block step (R165) -/

section DecodeBlock

variable {full : Bool} {s : State}

theorem decodeBlock_error_of_header {e : Stop} (he : srcRead s s.headerOffset 4 = .error e) :
    decodeBlock full s = .error e :=
  bind_of_error he _

/-- With its header word read, what is left of a decode block step is to unmarshal it and to end. -/
theorem decodeBlock_of_header (full : Bool) (hhdr : s.srcOk s.headerOffset 4) : decodeBlock full s =
    (unmarshalBlock s.sourceHeader { s with hdr := s.sourceHeader }).bind (finishDecode full) :=
  bind_of_ok (srcRead_ok_iff.2 ⟨hhdr, rfl⟩) _

theorem lanesDone_header (s : State) (h : Word) : LanesDone s h 0 { s with hdr := h } :=
  .zero (.of_mem_eq rfl rfl) rfl

theorem decodeBlock_error_of_payload {k : Fin 8} {e : Stop} (hhdr : s.srcOk s.headerOffset 4)
    (hprev : ∀ j : Fin 8, j < k → s.srcOk (s.pcur.toNat + laneOffset s.sourceHeader j) (laneWidth s.sourceHeader j))
    (he : srcRead s (s.pcur.toNat + laneOffset s.sourceHeader k) (laneWidth s.sourceHeader k) = .error e) :
    decodeBlock full s = .error e := by
  rw [decodeBlock_of_header full hhdr]
  exact bind_of_error (unmarshalBlock_error (lanesDone_header s _) hprev he) _

/-- With its payload read, what is left of a decode block step is to write its values and to end. -/
theorem decodeBlock_of_payload (full : Bool) (hhdr : s.srcOk s.headerOffset 4)
    (hpay : ∀ k : Fin 8, s.srcOk (s.pcur.toNat + laneOffset s.sourceHeader k) (laneWidth s.sourceHeader k)) :
    ∃ t, EngineFrame s t ∧ t.blk = s.blk ∧ decodeBlock full s = finishDecode full t := by
  obtain ⟨t, ht, hf⟩ := unmarshalBlock_complete (lanesDone_header s _) hpay
  refine ⟨t, hf, by rw [unmarshalBlock_frame ht], ?_⟩
  rw [decodeBlock_of_header full hhdr]
  exact bind_of_ok ht _

theorem decodeBlock_error_of_values {k : Fin 8} {e : Stop} {v : Word} (hhdr : s.srcOk s.headerOffset 4)
    (hpay : ∀ k : Fin 8, s.srcOk (s.pcur.toNat + laneOffset s.sourceHeader k) (laneWidth s.sourceHeader k))
    (hk : k.val < s.realLanes) (hprev : ∀ j : Fin 8, j < k → s.dstOk (s.valueOffset j) 4)
    (he : dstWrite s (s.valueOffset k) 4 v = .error e) : decodeBlock full s = .error e := by
  obtain ⟨t, hf, hblk, heq⟩ := decodeBlock_of_payload full hhdr hpay
  rw [heq]
  exact bind_of_error (writeValues_error hf hblk hk hprev he) _

/-- A decode block step completes where none of its own accesses is refused. -/
theorem decodeBlock_complete (hhdr : s.srcOk s.headerOffset 4)
    (hpay : ∀ k : Fin 8, s.srcOk (s.pcur.toNat + laneOffset s.sourceHeader k) (laneWidth s.sourceHeader k))
    (hval : ∀ k : Fin 8, k.val < s.realLanes → s.dstOk (s.valueOffset k) 4) :
    ∃ t, decodeBlock full s = .ok t := by
  obtain ⟨t, hf, hblk, heq⟩ := decodeBlock_of_payload full hhdr hpay
  have hval' : ∀ k ∈ laneOrder, k.val < t.realLanes → t.dstOk (t.valueOffset k) 4 := fun k _ hk => by
    simp only [State.realLanes, State.valueOffset, hf.n, hblk] at hk ⊢
    exact hf.dstOk_iff.2 (hval k hk)
  obtain ⟨u, hu⟩ := writeValueList_complete (s := t) (t := t)
    (v := t.pred.values (Predictor.unresiduals full t.pred t.resid)) ⟨rfl, rfl, rfl⟩ hval'
  exact ⟨_, heq.trans (bind_of_ok hu _)⟩

end DecodeBlock

end Sys2Proof.Machine
end

section
/-! The refused accesses (20_memory.md R53, R54, R59, 60_exceptions.md R200 to R206): each access of a block step and of
a lane row, the accesses before it being admitted. -/

namespace Sys2Proof.Machine

/-! ### Fault entry (R206) -/

theorem raiseInBlock_faulted (c : Cause) (addr : Nat) (s : State) : s.faulted c addr (raiseInBlock c addr s) := by
  refine ⟨rfl, rfl, fun h => ?_, rfl, rfl, rfl, rfl, rfl, rfl, rfl, rfl, rfl, rfl, rfl, fun a ha => ?_,
    fun a ha => ?_⟩
  · rw [raiseInBlock_faddr, faddrOf, if_pos h]
  · rw [raiseInBlock_mem]
    exact Memory.readByte_lose_outside (inDestination_eq_false_iff.1 ha)
  · rw [raiseInBlock_mem]
    simp only [State.inDestination, Bool.and_eq_true, decide_eq_true_eq] at ha
    exact Memory.readByte_lose_inside ha.1 ha.2

/-- A part of a step that an access stopped takes its fault from the state before the step (R164, R205). -/
theorem faulted_of_error {s : State} {o : Host.Outcome State Fault Refusal} {r : Except Stop State} {c : Cause}
    {addr : Nat} (ho : o = settle s r) (h : r = .error (.raised c addr)) :
    ∃ t, o = .next t ∧ s.faulted c addr t := by
  subst ho h
  exact ⟨_, rfl, raiseInBlock_faulted c addr s⟩

theorem exec_encode_atBlock {i : Instr} {full : Bool} {s : State} (hv : encodeVariant i = some full)
    (hs : s.atBlock) : exec i s = settle s (encodeBlock full s) := by
  obtain ⟨hb, hstage, hblk⟩ := hs
  rw [exec_of_encode hv, stepEncode, if_pos hb, if_neg (by simp [hstage]), if_pos hblk]

theorem exec_decode_atBlock {i : Instr} {full : Bool} {s : State} (hv : decodeVariant i = some full)
    (hs : s.atBlock) : exec i s = settle s (decodeBlock full s) := by
  obtain ⟨hb, hstage, hblk⟩ := hs
  rw [exec_of_decode hv, stepDecode, if_pos hb, if_neg (by simp [hstage]), if_pos hblk]

/-! ### Encode jobs -/

/-- Settles O28: the fetch of the values stops at the first that the source window does not hold. -/
theorem encodeSourceShort : Obligations.EncodeSourceShort := by
  intro i full s k hv hs hk hprev hshort
  exact faulted_of_error (exec_encode_atBlock hv hs)
    (encodeBlock_error_of_values (readValues_error hk hprev (srcRead_bounds (by decide) hshort)))

/-- Settles O29: the values are fetched, and the header move stops. -/
theorem encodeHeaderShort : Obligations.EncodeHeaderShort := by
  intro i full s hv hs hok hshort
  exact faulted_of_error (exec_encode_atBlock hv hs)
    (encodeBlock_error_of_header (v := 0) hok (dstWrite_bounds (by decide) hshort))

/-- Settles O32: a value read, the header move, or a lane's payload write is the first to stop. -/
theorem encodeAccessRefused : Obligations.EncodeAccessRefused := by
  intro i full s k hv hs h off
  have hexec := exec_encode_atBlock hv hs
  refine ⟨fun hk hprev hin hadm => ?value, fun hok hin hadm => ?header, fun hok hhdr hprev hw => ?payload⟩
  case value =>
    exact faulted_of_error hexec
      (encodeBlock_error_of_values (readValues_error hk hprev (srcRead_bus (by decide) hin hadm)))
  case header =>
    exact faulted_of_error hexec (encodeBlock_error_of_header (v := 0) hok (dstWrite_bus (by decide) hin hadm))
  case payload =>
    have herr {e : Stop} (he : dstWrite s off (laneWidth h k) 0 = .error e) : encodeBlock full s = .error e :=
      encodeBlock_error_of_payload hok hhdr hprev he
    exact ⟨fun hout => faulted_of_error hexec (herr (dstWrite_bounds hw hout)),
      fun hin hadm => faulted_of_error hexec (herr (dstWrite_bus hw hin hadm))⟩

/-! ### Decode jobs -/

/-- Settles O30: the header move is the first access of the step, and the window is checked before the platform. -/
theorem decodeHeaderRefused : Obligations.DecodeHeaderRefused := by
  intro i full s hv hs
  have hexec := exec_decode_atBlock hv hs
  exact ⟨fun hshort => faulted_of_error hexec (decodeBlock_error_of_header (srcRead_bounds (by decide) hshort)),
    fun hin hadm => faulted_of_error hexec (decodeBlock_error_of_header (srcRead_bus (by decide) hin hadm))⟩

/-- Settles O31: the lanes are read up to the first whose payload the source window does not hold. -/
theorem decodePayloadShort : Obligations.DecodePayloadShort := by
  intro i full s k hv hs hhdr hprev hw hshort
  exact faulted_of_error (exec_decode_atBlock hv hs)
    (decodeBlock_error_of_payload hhdr hprev (srcRead_bounds hw hshort))

/-- Settles O33: after the header, a lane's payload read or a value write is the first to stop. -/
theorem decodeAccessRefused : Obligations.DecodeAccessRefused := by
  intro i full s k hv hs hhdr h off
  have hexec := exec_decode_atBlock hv hs
  refine ⟨fun hprev hw hin hadm => ?payload, fun hpay hk hprev => ?value⟩
  case payload =>
    exact faulted_of_error hexec (decodeBlock_error_of_payload hhdr hprev (srcRead_bus hw hin hadm))
  case value =>
    have herr {e : Stop} (he : dstWrite s (s.valueOffset k) 4 0 = .error e) : decodeBlock full s = .error e :=
      decodeBlock_error_of_values hhdr hpay hk hprev he
    exact ⟨fun hout => faulted_of_error hexec (herr (dstWrite_bounds (by decide) hout)),
      fun hin hadm => faulted_of_error hexec (herr (dstWrite_bus (by decide) hin hadm))⟩

/-! ### Lane rows -/

theorem exec_of_laneRow {i : Instr} {w : Nat} {tz : BitVec 2} (hi : laneRow i = some (w, tz)) (s : State) :
    exec i s = stepLane w tz s := by
  cases i <;> cases hi <;> rfl

theorem stepLane_decode {w : Nat} {tz : BitVec 2} {s : State} {k : Fin 8} (hd : jobDirection s = some .decode)
    (hs : s.stage = .lane k) : stepLane w tz s = settle s (thenStage (afterLane k) (unmarshalLane k w tz s)) := by
  simp only [stepLane, hd, hs]

theorem stepLane_encode {w : Nat} {tz : BitVec 2} {s : State} {k : Fin 8} (hd : jobDirection s = some .encode)
    (hs : s.stage = .lane k) : stepLane w tz s =
      settle s (thenStage (afterLane k) (marshalLane w (s.resid[k] >>> (8 * tz.toNat)) s)) := by
  simp only [stepLane, hd, hs]

theorem thenStage_of_error {g : Stage} {r : Except Stop State} {e : Stop} (h : r = .error e) :
    thenStage g r = .error e := by
  subst h
  rfl

/-- Settles O39: a decode job's lane reads its payload and an encode job's writes it, each at the cursor. -/
theorem laneRowOutOfBounds : Obligations.LaneRowOutOfBounds := by
  intro i w tz k s hi hw hs
  have hexec := exec_of_laneRow hi s
  exact ⟨fun hd hshort => faulted_of_error (hexec.trans (stepLane_decode hd hs))
      (thenStage_of_error (unmarshalLane_error_iff.2 (srcRead_bounds hw hshort))),
    fun hd hshort => faulted_of_error (hexec.trans (stepLane_encode hd hs))
      (thenStage_of_error (marshalLane_error_iff.2 (dstWrite_bounds hw hshort)))⟩

end Sys2Proof.Machine
end

section
/-! Arrays in data memory (30_encoding.md R80): the words of an array, one after the other. -/

namespace Sys2Proof.Machine

/-- Four little-endian bytes are the whole word (R51). -/
theorem fromLE_leBytes (v : Word) : fromLE (leBytes 4 v) = v :=
  BitVec.eq_of_toNat_eq ((toNat_fromLE_leBytes 4 v).trans (Nat.mod_eq_of_lt v.isLt))

theorem length_flatMap_leBytes (l : List Word) : (l.flatMap (leBytes 4)).length = 4 * l.length := by
  induction l with
  | nil => rfl
  | cons x l ih =>
    rw [List.flatMap_cons, List.length_append, ih, length_leBytes, List.length_cons]
    omega

namespace Memory

@[simp] theorem length_words (m : Memory) (a n : Nat) : (m.words a n).length = n := by
  induction n generalizing a with
  | zero => rfl
  | succ n ih => simp [words, ih]

theorem getElem_words {m : Memory} {a n j : Nat} (h : j < (m.words a n).length) :
    (m.words a n)[j] = m.read (a + 4 * j) 4 := by
  induction n generalizing a j with
  | zero => exact absurd h (Nat.not_lt_zero j)
  | succ n ih =>
    cases j with
    | zero => rfl
    | succ j =>
      simp only [words, List.getElem_cons_succ, ih]
      rw [show a + 4 + 4 * j = a + 4 * (j + 1) by omega]

theorem drop_words (m : Memory) (a n k : Nat) : (m.words a n).drop k = m.words (a + 4 * k) (n - k) := by
  induction n generalizing a k with
  | zero => simp [words]
  | succ n ih =>
    cases k with
    | zero => rfl
    | succ k =>
      rw [words, List.drop_succ_cons, ih, Nat.add_sub_add_right, show a + 4 + 4 * k = a + 4 * (k + 1) by omega]

theorem words_append (m : Memory) (a j k : Nat) : m.words a j ++ m.words (a + 4 * j) k = m.words a (j + k) := by
  induction j generalizing a with
  | zero => simp [words]
  | succ j ih =>
    rw [show j + 1 + k = (j + k) + 1 by omega, words, words, List.cons_append, ← ih,
      show a + 4 * (j + 1) = a + 4 + 4 * j by omega]

theorem words_congr {m m' : Memory} {a n : Nat}
    (h : ∀ x, a ≤ x → x < a + 4 * n → m.readByte x = m'.readByte x) :
    m.words a n = m'.words a n := by
  induction n generalizing a with
  | zero => rfl
  | succ n ih =>
    have hhead : m.readBytes a 4 = m'.readBytes a 4 := readBytes_congr fun x h₁ h₂ => h x h₁ (by omega)
    rw [words, words, Memory.read, Memory.read, hhead, ih fun x h₁ h₂ => h x (by omega) (by omega)]

/-- An array read where its bytes were written is the array written. -/
theorem words_writeBytes {l : List Word} {m : Memory} (hm : m.wf) {a : Nat}
    (ha : a + 4 * l.length ≤ Config.addressSpace) :
    (m.writeBytes a (l.flatMap (leBytes 4))).words a l.length = l := by
  induction l generalizing m a with
  | nil => rfl
  | cons x l ih =>
    rw [List.length_cons] at ha
    have hsplit : m.writeBytes a ((x :: l).flatMap (leBytes 4)) =
        (m.write a 4 x).writeBytes (a + 4) (l.flatMap (leBytes 4)) := by
      rw [List.flatMap_cons, ← writeBytes_append, length_leBytes]
      rfl
    have hhead : ((m.write a 4 x).writeBytes (a + 4) (l.flatMap (leBytes 4))).readBytes a 4 = leBytes 4 x :=
      (readBytes_congr fun y _ h₂ => readByte_writeBytes_outside (.inl h₂)).trans (readBytes_write hm (by omega) x)
    rw [hsplit, List.length_cons, words, Memory.read, hhead, fromLE_leBytes,
      ih (wf_write hm (by omega) x) (by omega)]

end Memory

end Sys2Proof.Machine
end

section
/-! A job on the default platform with nothing else pending (43_jobs.md R161 to R168, R250): its start step, what its
block steps keep, and its finish step. -/

namespace Sys2Proof.Machine

namespace EngineFrame

theorem turns {s t : State} (h : EngineFrame s t) : t.turns = s.turns := by rw [h.registers]
theorem cmd {s t : State} (h : EngineFrame s t) : t.cmd = s.cmd := by rw [h.registers]
theorem src {s t : State} (h : EngineFrame s t) : t.src = s.src := by rw [h.registers]
theorem srcLen {s t : State} (h : EngineFrame s t) : t.srcLen = s.srcLen := by rw [h.registers]
theorem dst {s t : State} (h : EngineFrame s t) : t.dst = s.dst := by rw [h.registers]
theorem dstLen {s t : State} (h : EngineFrame s t) : t.dstLen = s.dstLen := by rw [h.registers]
theorem plat {s t : State} (h : EngineFrame s t) : t.plat = s.plat := by rw [h.registers]

end EngineFrame

/-- What a job needs in order to run unhindered: CMD holds it, no other turn is pending, the platform is the default
one, and N and the windows pass the checks of the start step (R161). -/
structure JobSet (i : Instr) (s : State) : Prop where
  cmd : decodeCmd s.cmd = .ok i
  turns : s.turns = []
  plat : s.plat = Platform.default
  n_le : s.n.toNat ≤ Config.nmax
  fits : s.windowOverflows = false
  apart : s.windowsAlias = false
  wf : s.mem.wf

/-- Such a job, running and between two block steps. -/
structure JobRuns (i : Instr) (s : State) : Prop extends JobSet i s where
  busy : s.status = .busy
  stage : s.stage = .boundary

theorem JobRuns.next {i : Instr} {s t : State} (h : JobRuns i s) (hf : EngineFrame s t) (hstage : t.stage = .boundary) :
    JobRuns i t where
  cmd := hf.cmd ▸ h.cmd
  turns := hf.turns ▸ h.turns
  plat := hf.plat ▸ h.plat
  n_le := hf.n ▸ h.n_le
  fits := hf.windowOverflows ▸ h.fits
  apart := hf.windowsAlias ▸ h.apart
  wf := hf.wf h.wf
  busy := hf.status ▸ h.busy
  stage := hstage

/-! ### The windows of the job (R161) -/

namespace JobSet

variable {i : Instr} {s : State}

theorem source_fits (h : JobSet i s) : s.src.toNat + s.srcLen.toNat ≤ Config.addressSpace := by
  have hfits := h.fits
  simp only [State.windowOverflows, Bool.or_eq_false_iff, decide_eq_false_iff_not, Nat.not_lt] at hfits
  exact hfits.1

theorem destination_fits (h : JobSet i s) : s.dst.toNat + s.dstLen.toNat ≤ Config.addressSpace := by
  have hfits := h.fits
  simp only [State.windowOverflows, Bool.or_eq_false_iff, decide_eq_false_iff_not, Nat.not_lt] at hfits
  exact hfits.2

theorem srcOk (h : JobSet i s) {off n : Nat} (hin : off + n ≤ s.srcLen.toNat) : s.srcOk off n := by
  have := h.source_fits
  exact .inr ⟨hin, by rw [h.plat]; rfl, by omega⟩

theorem dstOk (h : JobSet i s) {off n : Nat} (hin : off + n ≤ s.dstLen.toNat) : s.dstOk off n := by
  have := h.destination_fits
  exact .inr ⟨hin, by rw [h.plat]; rfl, by omega⟩

/-- The windows lie apart, so that the engine's writes leave the source window as it is (R57, R62). -/
theorem source_kept (h : JobSet i s) {t : State} (hf : EngineFrame s t) {a : Nat} (hlo : s.src.toNat ≤ a)
    (hhi : a < s.src.toNat + s.srcLen.toNat) : t.mem.readByte a = s.mem.readByte a := by
  refine hf.outside a (inDestination_eq_false_iff.2 ?_)
  have hapart := h.apart
  simp only [State.windowsAlias, Bool.and_eq_false_iff, decide_eq_false_iff_not] at hapart
  omega

end JobSet

/-! ### The run -/

section Run

variable {M : Host.Core}

theorem run_succ {s t : M.State} (h : M.step s = .next t) (k : Nat) : M.run (k + 1) s = M.run k t := by
  simp only [Host.Core.run, h]

theorem run_add {j : Nat} {s t : M.State} (h : M.run j s = .next t) (k : Nat) : M.run (j + k) s = M.run k t := by
  induction j generalizing s with
  | zero =>
    cases h
    rw [Nat.zero_add]
  | succ j ih =>
    cases hstep : M.step s with
    | next u =>
      rw [run_succ hstep] at h
      rw [Nat.succ_add, run_succ hstep, ih h]
    | fault r => simp only [Host.Core.run, hstep] at h; cases h
    | refused r => simp only [Host.Core.run, hstep] at h; cases h

end Run

theorem JobRuns.step_eq {i : Instr} {s : State} (h : JobRuns i s) : step s = exec i s := by
  rw [step_of_turns_nil h.turns]
  simp only [engineStep, fetch, h.busy, h.stage, if_true, fetchCommand, h.cmd]

/-! ### The start step and the finish step (R161, R162, R168) -/

/-- One of the four streaming operations. -/
abbrev Streams (i : Instr) : Prop := ∃ full, encodeVariant i = some full ∨ decodeVariant i = some full

theorem exec_of_not_busy {i : Instr} {s : State} (hi : Streams i) (hb : s.status ≠ .busy) :
    exec i s = startStream s := by
  obtain ⟨full, hv | hv⟩ := hi
  · rw [exec_of_encode hv, stepEncode, if_neg hb]
  · rw [exec_of_decode hv, stepDecode, if_neg hb]

theorem exec_of_no_block_left {i : Instr} {s : State} (hi : Streams i) (hb : s.status = .busy)
    (hstage : s.stage = .boundary) (hblk : s.blocks ≤ s.blk.toNat) : exec i s = .next (finishStream s) := by
  obtain ⟨full, hv | hv⟩ := hi
  · rw [exec_of_encode hv, stepEncode, if_pos hb, if_neg (by simp [hstage]), if_neg (by omega)]
  · rw [exec_of_decode hv, stepDecode, if_pos hb, if_neg (by simp [hstage]), if_neg (by omega)]

theorem startStream_accepts {i : Instr} {s : State} (h : JobSet i s) : startStream s = .next (beginStream s) := by
  have hdev : s.windowOverDevice = false := by
    rw [State.windowOverDevice, h.plat]
    rfl
  rw [startStream, if_neg (Nat.not_lt.2 h.n_le), if_neg (by simp [h.fits]), if_neg (by simp [h.apart]),
    if_neg (by simp [hdev])]

theorem JobSet.beginStream_runs {i : Instr} {s : State} (h : JobSet i s) : JobRuns i (beginStream s) :=
  { h with busy := rfl, stage := rfl }

theorem JobSet.beginStream_pcur {i : Instr} {s : State} (h : JobSet i s) :
    (beginStream s).pcur.toNat = 4 * s.blocks := by
  have := blockCount_le h.n_le
  rw [Machine.beginStream_pcur, BitVec.toNat_ofNat, headerBytes]
  exact Nat.mod_eq_of_lt (by omega)

/-- A job whose block steps complete runs from its START to DONE in B(N) + 2 steps (R163, R250). -/
theorem run_whole_job {i : Instr} {s t : State} (hi : Streams i) (h : JobSet i s) (hb : s.status ≠ .busy)
    (hs : s.start = true) (hblocks : core.run s.blocks (beginStream s) = .next t)
    (hf : EngineFrame (beginStream s) t) (hstage : t.stage = .boundary) (hblk : t.blk.toNat = s.blocks) :
    core.run (s.blocks + 2) s = .next (finishStream t) := by
  have hstart : step s = .next (beginStream s) := by
    rw [step_of_turns_nil h.turns]
    simp only [engineStep, fetch, hb, hs, if_false, if_true, fetchCommand, h.cmd]
    rw [exec_of_not_busy hi hb, startStream_accepts h]
  have hruns : JobRuns i t := h.beginStream_runs.next hf hstage
  have hleft : t.blocks ≤ t.blk.toNat := by rw [hf.blocks, hblk]; exact Nat.le_refl _
  have hend : step t = .next (finishStream t) :=
    hruns.step_eq.trans (exec_of_no_block_left hi hruns.busy hstage hleft)
  calc core.run (s.blocks + 2) s
      = core.run (s.blocks + 1) (beginStream s) := run_succ (M := core) hstart _
    _ = core.run 1 t := run_add (M := core) hblocks 1
    _ = .next (finishStream t) := run_succ (M := core) hend 0

/-- BLK does not wrap (R24, R31). -/
theorem JobSet.blk_next {i : Instr} {s : State} (h : JobSet i s) (hblk : s.blk.toNat < s.blocks) :
    (s.blk + 1).toNat = s.blk.toNat + 1 := by
  have hB : s.blocks ≤ 2 ^ 25 := blockCount_le h.n_le
  exact cursor_past (w := 1) (b := 2 ^ 25) (by omega) (by decide)

end Sys2Proof.Machine
end

section
/-! A whole encode job on the default platform (43_jobs.md R170, R172, R176): its block steps leave the header words
one after the other at DST, and the payloads one after the other at DST + PCUR. -/

namespace Sys2Proof.Machine

/-! ### `encBlocks` (R176) -/

theorem encBlocks_succ (full : Bool) (m : Nat) (p : Predictor) (a : List Word) :
    encBlocks full (m + 1) p a =
      ((encb full p (blockWords a)).2.1 :: (encBlocks full m (encb full p (blockWords a)).1 (a.drop 8)).1,
        (encb full p (blockWords a)).2.2 ++ (encBlocks full m (encb full p (blockWords a)).1 (a.drop 8)).2) := rfl

theorem length_encBlocks_headers (full : Bool) (m : Nat) (p : Predictor) (a : List Word) :
    (encBlocks full m p a).1.length = m := by
  induction m generalizing p a with
  | zero => rfl
  | succ m ih => rw [encBlocks_succ, List.length_cons, ih]

/-- The payload of a block is as long as its header word says (R144). -/
theorem length_payloadOf (r : Lanes Word) : (payloadOf r).length = blockAdvance (headerOf r) := by
  have hlane : ∀ k : Fin 8, (strip r[k]).payload.length = laneWidth (headerOf r) k := fun k => by
    rw [Stripped.payload, length_leBytes, laneWidth_headerOf]
  rw [payloadOf, List.length_flatMap, blockAdvance, funext hlane]

/-! ### The values still to be encoded (R164, R166) -/

/-- The values of block BLK and of the blocks after it, as the source window holds them. -/
def State.wordsLeft (s : State) : List Word :=
  s.mem.words (s.src.toNat + 32 * s.blk.toNat) (s.n.toNat - 8 * s.blk.toNat)

theorem sourceBlock_eq (s : State) : s.sourceBlock = blockWords s.wordsLeft := by
  ext k hk : 1
  rw [State.sourceBlock, blockWords, Vector.getElem_ofFn, Vector.getElem_ofFn]
  by_cases hreal : k < s.realLanes
  · have hlt : k < s.wordsLeft.length := by
      rw [State.wordsLeft, Memory.length_words]
      exact Nat.lt_of_lt_of_le hreal (Nat.min_le_right _ _)
    rw [if_pos hreal, List.getD_eq_getElem _ _ hlt]
    simp only [State.wordsLeft, Memory.getElem_words, State.valueOffset]
    rw [show s.src.toNat + 4 * (8 * s.blk.toNat + k) = s.src.toNat + 32 * s.blk.toNat + 4 * k by omega]
  · have hge : s.wordsLeft.length ≤ k := by
      rw [State.wordsLeft, Memory.length_words]
      simp only [State.realLanes] at hreal
      omega
    rw [if_neg hreal, List.getD_eq_default _ _ hge]

/-- A block step takes eight values, since it does not write the source window. -/
theorem JobSet.wordsLeft_next {i : Instr} {s t : State} (h : JobSet i s) (hsrc : 4 * s.n.toNat ≤ s.srcLen.toNat)
    (hf : EngineFrame s t) (hblk : t.blk.toNat = s.blk.toNat + 1) : t.wordsLeft = s.wordsLeft.drop 8 := by
  have hkept : t.mem.words (s.src.toNat + 32 * (s.blk.toNat + 1)) (s.n.toNat - 8 * (s.blk.toNat + 1)) =
      s.mem.words (s.src.toNat + 32 * (s.blk.toNat + 1)) (s.n.toNat - 8 * (s.blk.toNat + 1)) :=
    Memory.words_congr fun x h₁ h₂ => h.source_kept hf (by omega) (by omega)
  rw [State.wordsLeft, hf.src, hf.n, hblk, hkept, State.wordsLeft, Memory.drop_words,
    show s.src.toNat + 32 * s.blk.toNat + 4 * 8 = s.src.toNat + 32 * (s.blk.toNat + 1) by omega,
    show s.n.toNat - 8 * s.blk.toNat - 8 = s.n.toNat - 8 * (s.blk.toNat + 1) by omega]

/-! ### What block steps leave -/

/-- `m` encode block steps lead from `s` to `t`: they write the header words `hs` from block BLK's on and the payload
bytes `ys` from PCUR on, and nothing else. -/
structure Encoded (m : Nat) (hs : List Word) (ys : List Byte) (s t : State) : Prop where
  frame : EngineFrame s t
  stage : t.stage = .boundary
  blk : t.blk.toNat = s.blk.toNat + m
  pcur : t.pcur.toNat = s.pcur.toNat + ys.length
  headers : t.mem.readBytes (s.dst.toNat + 4 * s.blk.toNat) (4 * m) = hs.flatMap (leBytes 4)
  payloads : t.mem.readBytes (s.dst.toNat + s.pcur.toNat) ys.length = ys
  outside : ∀ a, (a < s.dst.toNat + 4 * s.blk.toNat ∨ s.dst.toNat + 4 * (s.blk.toNat + m) ≤ a) →
    (a < s.dst.toNat + s.pcur.toNat ∨ s.dst.toNat + s.pcur.toNat + ys.length ≤ a) →
    t.mem.readByte a = s.mem.readByte a

theorem Encoded.refl {s : State} (hstage : s.stage = .boundary) : Encoded 0 [] [] s s where
  frame := .refl s
  stage := hstage
  blk := rfl
  pcur := rfl
  headers := rfl
  payloads := rfl
  outside _ _ _ := rfl

/-- One block and then others, where the header area ends before the payloads. -/
theorem Encoded.cons {m : Nat} {h : Word} {hs : List Word} {y ys : List Byte} {s u t : State}
    (hu : Encoded 1 [h] y s u) (ht : Encoded m hs ys u t) (harea : 4 * (s.blk.toNat + (m + 1)) ≤ s.pcur.toNat) :
    Encoded (m + 1) (h :: hs) (y ++ ys) s t := by
  have hout := ht.outside
  have hheaders := ht.headers
  have hpayloads := ht.payloads
  rw [hu.frame.dst, hu.blk, hu.pcur] at hout
  rw [hu.frame.dst, hu.blk] at hheaders
  rw [hu.frame.dst, hu.pcur] at hpayloads
  exact {
    frame := hu.frame.trans ht.frame
    stage := ht.stage
    blk := by rw [ht.blk, hu.blk]; omega
    pcur := by rw [ht.pcur, hu.pcur, List.length_append]; omega
    headers := by
      have hfirst : t.mem.readBytes (s.dst.toNat + 4 * s.blk.toNat) 4 = leBytes 4 h :=
        (Memory.readBytes_congr fun x h₁ h₂ => hout x (by omega) (by omega)).trans
          (hu.headers.trans (List.append_nil _))
      rw [show 4 * (m + 1) = 4 + 4 * m by omega, ← Memory.readBytes_append, hfirst,
        show s.dst.toNat + 4 * s.blk.toNat + 4 = s.dst.toNat + 4 * (s.blk.toNat + 1) by omega, hheaders,
        List.flatMap_cons]
    payloads := by
      have hfirst : t.mem.readBytes (s.dst.toNat + s.pcur.toNat) y.length = y :=
        (Memory.readBytes_congr fun x h₁ h₂ => hout x (by omega) (by omega)).trans hu.payloads
      rw [List.length_append, ← Memory.readBytes_append, hfirst, Nat.add_assoc, hpayloads]
    outside := fun a h₁ h₂ => by
      rw [List.length_append] at h₂
      rw [hout a (by omega) (by omega), hu.outside a (by omega) (by omega)] }

/-- One encode block step of a job whose windows hold the block (R164). -/
theorem JobRuns.encodes_block {i : Instr} {full : Bool} {s : State} (hv : encodeVariant i = some full)
    (h : JobRuns i s) (hblk : s.blk.toNat < s.blocks) (hsrc : 4 * s.n.toNat ≤ s.srcLen.toNat)
    (harea : 4 * s.blocks ≤ s.pcur.toNat)
    (hfit : s.pcur.toNat + (encb full s.pred s.sourceBlock).2.2.length ≤ s.dstLen.toNat) :
    ∃ t, step s = .next t ∧ t.pred = (encb full s.pred s.sourceBlock).1 ∧
      Encoded 1 [(encb full s.pred s.sourceBlock).2.1] (encb full s.pred s.sourceBlock).2.2 s t := by
  have hspace := h.destination_fits
  have hvals : ∀ k : Fin 8, k.val < s.realLanes → s.srcOk (s.valueOffset k) 4 := fun k hk =>
    h.srcOk (by simp only [State.valueOffset, State.realLanes] at hk ⊢; omega)
  have hhdr : s.dstOk s.headerOffset 4 := h.dstOk (by simp only [State.headerOffset]; omega)
  obtain ⟨t, ht⟩ := encodeBlock_complete (full := full) hvals hhdr fun k => by
    have hk := laneOffset_add_width_le (encb full s.pred s.sourceBlock).2.1 k
    have hlen : (encb full s.pred s.sourceBlock).2.2.length = blockAdvance (encb full s.pred s.sourceBlock).2.1 :=
      length_payloadOf _
    exact h.dstOk (by omega)
  have hstep : step s = .next t := by
    rw [h.step_eq, exec_encode_atBlock hv ⟨h.busy, h.stage, hblk⟩, ht]
    rfl
  have hf := (encodeBlock_keepsFrame full s).frame t ht
  have heq := encodeBlock_ok ht
  have hmem := congrArg State.mem heq
  simp only [State.headerOffset] at hmem
  refine ⟨t, hstep, congrArg State.pred heq, hf, congrArg State.stage heq, ?_, ?_, ?_, ?_, fun a h₁ h₂ => ?_⟩
  · exact (congrArg (fun u => u.blk.toNat) heq).trans (h.blk_next hblk)
  · exact (congrArg (fun u => u.pcur.toNat) heq).trans (cursor_past hfit s.dstLen.isLt)
  · rw [hmem]
    have hhdr := Memory.readBytes_write h.wf (a := s.dst.toNat + 4 * s.blk.toNat) (n := 4) (by omega)
      (encb full s.pred s.sourceBlock).2.1
    exact (Memory.readBytes_congr fun x _ h₂ => Memory.readByte_writeBytes_outside (.inl (by omega))).trans
      (hhdr.trans (List.append_nil _).symm)
  · rw [hmem]
    exact Memory.readBytes_writeBytes (Memory.wf_write h.wf (by omega) _) (by omega)
  · rw [hmem, Memory.readByte_writeBytes_outside h₂, Memory.readByte_write_outside (by omega)]

/-- The block steps left of an encode job whose windows hold its footprint: `Enc`'s blocks, from the predictor state and
the values that the job stands at (R176). -/
theorem JobRuns.encodes_blocks {i : Instr} {full : Bool} (hv : encodeVariant i = some full) (m : Nat) {s : State}
    (h : JobRuns i s) (hm : s.blk.toNat + m = s.blocks) (hsrc : 4 * s.n.toNat ≤ s.srcLen.toNat)
    (harea : 4 * s.blocks ≤ s.pcur.toNat)
    (hfit : s.pcur.toNat + (encBlocks full m s.pred s.wordsLeft).2.length ≤ s.dstLen.toNat) :
    ∃ t : State, core.run m s = .next t ∧
      Encoded m (encBlocks full m s.pred s.wordsLeft).1 (encBlocks full m s.pred s.wordsLeft).2 s t := by
  induction m generalizing s with
  | zero => exact ⟨s, rfl, .refl h.stage⟩
  | succ m ih =>
    rw [encBlocks_succ, ← sourceBlock_eq] at hfit ⊢
    simp only [List.length_append] at hfit
    obtain ⟨u, hstep, hpred, hu⟩ := h.encodes_block hv (by omega) hsrc harea (by omega)
    rw [← hpred, ← h.wordsLeft_next hsrc hu.frame hu.blk] at hfit ⊢
    obtain ⟨t, hrun, ht⟩ := ih (h.next hu.frame hu.stage) (by rw [hu.blk, hu.frame.blocks]; omega)
      (by rwa [hu.frame.n, hu.frame.srcLen]) (by rw [hu.frame.blocks, hu.pcur]; omega)
      (by rw [hu.pcur, hu.frame.dstLen]; omega)
    exact ⟨t, (run_succ (M := core) hstep m).trans hrun, hu.cons ht (by omega)⟩

theorem encStream_eq (full : Bool) (a : List Word) : encStream full a =
    (encBlocks full (blockCount a.length) Predictor.zero a).1.flatMap (leBytes 4) ++
      (encBlocks full (blockCount a.length) Predictor.zero a).2 := rfl

/-- Settles O59: the block steps from the start's state leave the header words at DST and the payloads right behind
them, which is the stream. -/
theorem encodeJobLeavesStream : Obligations.EncodeJobLeavesStream := by
  intro i full s hv hcmd hturns hb hstart hwf hn hfits hapart hplat hsrc z hz
  have hset : JobSet i s := ⟨hcmd, hturns, hplat, hn, hfits, hapart, hwf⟩
  have hpcur := hset.beginStream_pcur
  have hwords : (beginStream s).wordsLeft = s.mem.words s.src.toNat s.n.toNat := rfl
  obtain ⟨hs, ys, hblocks, hz'⟩ : ∃ hs ys,
      encBlocks full s.blocks Predictor.zero (beginStream s).wordsLeft = (hs, ys) ∧ z = hs.flatMap (leBytes 4) ++ ys := by
    refine ⟨_, _, rfl, ?_⟩
    simp only [z, encStream_eq, Memory.length_words, hwords]
    rfl
  have hlen : z.length = 4 * s.blocks + ys.length := by
    have := length_encBlocks_headers full s.blocks Predictor.zero (beginStream s).wordsLeft
    rw [hblocks] at this
    rw [hz', List.length_append, length_flatMap_leBytes, this]
  obtain ⟨t, hrun, ht⟩ := hset.beginStream_runs.encodes_blocks hv s.blocks (Nat.zero_add _) hsrc hpcur.ge (by
    rw [hpcur, beginStream_pred, hblocks, beginStream_dstLen, ← hlen]
    exact hz)
  simp only [beginStream_pred, hblocks] at ht
  have hblk : t.blk.toNat = s.blocks := ht.blk.trans (Nat.zero_add _)
  refine ⟨finishStream t, run_whole_job ⟨full, .inl hv⟩ hset hb hstart hrun ht.frame ht.stage hblk, rfl,
    ht.frame.cause, ?_, hblk, ?_, fun a ha => ?_⟩
  · rw [finishStream_result, ht.pcur, hpcur, hlen]
  · have hheaders := ht.headers
    have hpayloads := ht.payloads
    rw [hpcur] at hpayloads
    rw [hlen, ← Memory.readBytes_append, hz']
    exact congrArg₂ (· ++ ·) hheaders hpayloads
  · refine ht.outside a ?_ ?_
    · rw [beginStream_blk, beginStream_dst]
      simp
      omega
    · rw [hpcur, beginStream_dst]
      omega

end Sys2Proof.Machine
end

section
/-! A whole decode job on the default platform (43_jobs.md R171, R173, R176): its block steps leave the values one after
the other at DST, and PCUR past the payloads they have read. -/

namespace Sys2Proof.Machine

/-! ### `decBlocks` (R144, R176) -/

theorem decBlocks_succ (full : Bool) (m : Nat) (p : Predictor) (hs ys : List Byte) {h : Word} {y : List Byte}
    (hh : fromLE (hs.take 4) = h) (hy : ys.take (blockAdvance h) = y) :
    decBlocks full (m + 1) p hs ys = (decb full p h y).2.toList ++
      decBlocks full m (decb full p h y).1 (hs.drop 4) (ys.drop (blockAdvance h)) := by
  subst hh hy
  rfl

theorem payloadConsumed_succ (m : Nat) {hs : List Byte} {h : Word} (hh : fromLE (hs.take 4) = h) :
    payloadConsumed (m + 1) hs = blockAdvance h + payloadConsumed m (hs.drop 4) := by
  subst hh
  rfl

theorem length_decBlocks (full : Bool) (m : Nat) (p : Predictor) (hs ys : List Byte) :
    (decBlocks full m p hs ys).length = 8 * m := by
  induction m generalizing p hs ys with
  | zero => rfl
  | succ m ih =>
    rw [decBlocks_succ full m p hs ys rfl rfl, List.length_append, ih, Vector.length_toList]
    omega

/-! ### The stream still to be decoded (R143, R145) -/

/-- The source window's bytes. -/
def State.stream (s : State) : List Byte := s.mem.readBytes s.src.toNat s.srcLen.toNat

/-- The header words from block BLK's on, and what follows them. -/
def State.headersLeft (s : State) : List Byte := s.stream.drop (4 * s.blk.toNat)

/-- The payloads from PCUR on. -/
def State.payloadsLeft (s : State) : List Byte := s.stream.drop s.pcur.toNat

theorem JobSet.stream_kept {i : Instr} {s t : State} (h : JobSet i s) (hf : EngineFrame s t) : t.stream = s.stream := by
  rw [State.stream, hf.src, hf.srcLen]
  exact Memory.readBytes_congr fun x h₁ h₂ => h.source_kept hf h₁ h₂

theorem fromLE_headersLeft {s : State} (h : 4 * s.blk.toNat + 4 ≤ s.srcLen.toNat) :
    fromLE (s.headersLeft.take 4) = s.sourceHeader :=
  congrArg fromLE (Memory.readBytes_drop_take s.mem h)

theorem take_payloadsLeft {s : State} (h : s.pcur.toNat + blockAdvance s.sourceHeader ≤ s.srcLen.toNat) :
    s.payloadsLeft.take (blockAdvance s.sourceHeader) = s.sourcePayload :=
  Memory.readBytes_drop_take s.mem h

/-! ### What block steps leave -/

/-- `m` decode block steps lead from `s` to `t`: they write the values `vs` from block BLK's on and nothing else, and
move PCUR past the `c` payload bytes that they read. -/
structure Decoded (m c : Nat) (vs : List Word) (s t : State) : Prop where
  frame : EngineFrame s t
  stage : t.stage = .boundary
  blk : t.blk.toNat = s.blk.toNat + m
  pcur : t.pcur.toNat = s.pcur.toNat + c
  values : t.mem.words (s.dst.toNat + 32 * s.blk.toNat) vs.length = vs
  outside : ∀ a, (a < s.dst.toNat + 32 * s.blk.toNat ∨ s.dst.toNat + 32 * s.blk.toNat + 4 * vs.length ≤ a) →
    t.mem.readByte a = s.mem.readByte a

theorem Decoded.refl {s : State} (hstage : s.stage = .boundary) : Decoded 0 0 [] s s where
  frame := .refl s
  stage := hstage
  blk := rfl
  pcur := rfl
  values := rfl
  outside _ _ := rfl

/-- One block and then others, where only the last block may be short. -/
theorem Decoded.cons {m c c' : Nat} {v vs : List Word} {s u t : State} (hu : Decoded 1 c v s u)
    (ht : Decoded m c' vs u t) (hfull : v.length = 8 ∨ vs = []) : Decoded (m + 1) (c + c') (v ++ vs) s t := by
  have hout := ht.outside
  have hvalues := ht.values
  rw [hu.frame.dst, hu.blk] at hout hvalues
  have hempty : vs.length = 0 ∨ v.length = 8 := hfull.symm.imp_left (congrArg List.length)
  have hfirst : t.mem.words (s.dst.toNat + 32 * s.blk.toNat) v.length = v :=
    (Memory.words_congr fun x h₁ h₂ => hout x (by omega)).trans hu.values
  have hrest : t.mem.words (s.dst.toNat + 32 * s.blk.toNat + 4 * v.length) vs.length = vs := by
    rcases hfull with hv | rfl
    · rwa [hv, show s.dst.toNat + 32 * s.blk.toNat + 4 * 8 = s.dst.toNat + 32 * (s.blk.toNat + 1) by omega]
    · rfl
  exact {
    frame := hu.frame.trans ht.frame
    stage := ht.stage
    blk := by rw [ht.blk, hu.blk]; omega
    pcur := by rw [ht.pcur, hu.pcur]; omega
    values := by rw [List.length_append, ← Memory.words_append, hfirst, hrest]
    outside := fun a ha => by
      rw [List.length_append] at ha
      rw [hout a (by omega), hu.outside a (by omega)] }

/-- One decode block step of a job whose windows hold the block (R165, R167). -/
theorem JobRuns.decodes_block {i : Instr} {full : Bool} {s : State} (hv : decodeVariant i = some full)
    (h : JobRuns i s) (hblk : s.blk.toNat < s.blocks) (hdst : 4 * s.n.toNat ≤ s.dstLen.toNat)
    (hhdr : 4 * s.blk.toNat + 4 ≤ s.srcLen.toNat)
    (hfit : s.pcur.toNat + blockAdvance s.sourceHeader ≤ s.srcLen.toNat) :
    ∃ t, step s = .next t ∧ t.pred = (decb full s.pred s.sourceHeader s.sourcePayload).1 ∧
      Decoded 1 (blockAdvance s.sourceHeader)
        ((decb full s.pred s.sourceHeader s.sourcePayload).2.toList.take s.realLanes) s t := by
  have hspace := h.destination_fits
  have hreal : 8 * s.blk.toNat + s.realLanes ≤ s.n.toNat := by
    have hn : 8 * s.blk.toNat < s.n.toNat := by
      simp only [State.blocks, blockCount] at hblk
      omega
    simp only [State.realLanes]
    omega
  obtain ⟨t, ht⟩ := decodeBlock_complete (full := full) (h.srcOk hhdr)
    (fun k => h.srcOk (by
      have hk := laneOffset_add_width_le s.sourceHeader k
      omega))
    fun k hk => h.dstOk (by
      simp only [State.valueOffset]
      omega)
  have hstep : step s = .next t := by
    rw [h.step_eq, exec_decode_atBlock hv ⟨h.busy, h.stage, hblk⟩, ht]
    rfl
  have heq := decodeBlock_ok ht
  have hmem := congrArg State.mem heq
  have hlen : ((decb full s.pred s.sourceHeader s.sourcePayload).2.toList.take s.realLanes).length = s.realLanes := by
    rw [List.length_take, Vector.length_toList]
    exact Nat.min_eq_left (realLanes_le s)
  refine ⟨t, hstep, congrArg State.pred heq, (decodeBlock_keepsFrame full s).frame t ht, congrArg State.stage heq, ?_,
    ?_, ?_, fun a ha => ?_⟩
  · exact (congrArg (fun u => u.blk.toNat) heq).trans (h.blk_next hblk)
  · exact (congrArg (fun u => u.pcur.toNat) heq).trans (cursor_past hfit s.srcLen.isLt)
  · rw [hmem]
    exact Memory.words_writeBytes h.wf (by omega)
  · rw [hmem]
    exact Memory.readByte_writeBytes_outside (by rwa [State.valueBytes, length_flatMap_leBytes])

/-- The real values of a block and of the blocks after it (R167). -/
theorem take_values_append {s : State} (v : Lanes Word) (vs : List Word) :
    (v.toList ++ vs).take (s.n.toNat - 8 * s.blk.toNat) =
      v.toList.take s.realLanes ++ vs.take (s.n.toNat - 8 * (s.blk.toNat + 1)) := by
  have hreal : v.toList.take (s.n.toNat - 8 * s.blk.toNat) = v.toList.take s.realLanes := by
    rw [List.take_eq_take_iff, Vector.length_toList, State.realLanes]
    omega
  rw [List.take_append, hreal, Vector.length_toList,
    show s.n.toNat - 8 * s.blk.toNat - 8 = s.n.toNat - 8 * (s.blk.toNat + 1) by omega]

/-- The block steps left of a decode job whose windows hold its footprint: `Dec`'s blocks, from the predictor state and
the stream that the job stands at (R176). -/
theorem JobRuns.decodes_blocks {i : Instr} {full : Bool} (hv : decodeVariant i = some full) (m : Nat) {s : State}
    (h : JobRuns i s) (hm : s.blk.toNat + m = s.blocks) (hdst : 4 * s.n.toNat ≤ s.dstLen.toNat)
    (harea : 4 * s.blocks ≤ s.pcur.toNat)
    (hfit : s.pcur.toNat + payloadConsumed m s.headersLeft ≤ s.srcLen.toNat) :
    ∃ t : State, core.run m s = .next t ∧ Decoded m (payloadConsumed m s.headersLeft)
      ((decBlocks full m s.pred s.headersLeft s.payloadsLeft).take (s.n.toNat - 8 * s.blk.toNat)) s t := by
  induction m generalizing s with
  | zero =>
    rw [decBlocks, List.take_nil]
    exact ⟨s, rfl, .refl h.stage⟩
  | succ m ih =>
    have hhdr := fromLE_headersLeft (s := s) (by omega)
    rw [payloadConsumed_succ m hhdr] at hfit ⊢
    have hpay := take_payloadsLeft (s := s) (by omega)
    rw [decBlocks_succ full m s.pred _ _ hhdr hpay, take_values_append]
    obtain ⟨u, hstep, hpred, hu⟩ := h.decodes_block hv (by omega) hdst (by omega) (by omega)
    have hheaders : u.headersLeft = s.headersLeft.drop 4 := by
      rw [State.headersLeft, h.stream_kept hu.frame, hu.blk, State.headersLeft, List.drop_drop, Nat.mul_add]
    have hpayloads : u.payloadsLeft = s.payloadsLeft.drop (blockAdvance s.sourceHeader) := by
      rw [State.payloadsLeft, h.stream_kept hu.frame, hu.pcur, State.payloadsLeft, List.drop_drop]
    rw [← hheaders] at hfit ⊢
    rw [← hpayloads, ← hpred]
    obtain ⟨t, hrun, ht⟩ := ih (h.next hu.frame hu.stage) (by rw [hu.blk, hu.frame.blocks]; omega)
      (by rwa [hu.frame.n, hu.frame.dstLen]) (by rw [hu.frame.blocks, hu.pcur]; omega)
      (by rw [hu.pcur, hu.frame.srcLen]; omega)
    rw [hu.frame.n, hu.blk] at ht
    refine ⟨t, (run_succ (M := core) hstep m).trans hrun, hu.cons ht ?_⟩
    by_cases hlast : 8 * (s.blk.toNat + 1) ≤ s.n.toNat
    · left
      rw [List.length_take, Vector.length_toList, State.realLanes]
      omega
    · right
      rw [Nat.sub_eq_zero_of_le (by omega), List.take_zero]

/-- Settles O60: the block steps from the start's state read the stream from its first header and its first payload on,
and leave its values at DST. -/
theorem decodeJobLeavesValues : Obligations.DecodeJobLeavesValues := by
  intro i full s hv hcmd hturns hb hstart hwf hn hfits hapart hplat hdst z hz
  have hset : JobSet i s := ⟨hcmd, hturns, hplat, hn, hfits, hapart, hwf⟩
  have hpcur := hset.beginStream_pcur
  have hheaders : (beginStream s).headersLeft = z := rfl
  have hpayloads : (beginStream s).payloadsLeft = z.drop (headerBytes s.n.toNat) := by
    rw [State.payloadsLeft, hpcur]
    rfl
  obtain ⟨t, hrun, ht⟩ := hset.beginStream_runs.decodes_blocks hv s.blocks (Nat.zero_add _) hdst hpcur.ge (by
    rw [hpcur, hheaders]
    exact hz)
  rw [hheaders, hpayloads] at ht
  have hvalues : (decStream full z s.n.toNat).length = s.n.toNat := by
    rw [decStream, List.length_take, length_decBlocks, blockCount]
    omega
  replace ht : Decoded s.blocks (payloadConsumed s.blocks z) (decStream full z s.n.toNat) (beginStream s) t := ht
  have hblk : t.blk.toNat = s.blocks := ht.blk.trans (Nat.zero_add _)
  refine ⟨finishStream t, run_whole_job ⟨full, .inr hv⟩ hset hb hstart hrun ht.frame ht.stage hblk, rfl,
    ht.frame.cause, ?_, hblk, ?_, fun a ha => ?_⟩
  · rw [finishStream_result, ht.pcur, hpcur]
    rfl
  · have hwords := ht.values
    rw [hvalues] at hwords
    exact hwords
  · refine ht.outside a ?_
    rw [hvalues]
    exact ha

end Sys2Proof.Machine
end

section
/-! The encodings (30_encoding.md R70, R74, R75): the decoder of each format reads back what the encoder wrote, the
command words are five, and each field is where its format puts it. -/

namespace Sys2Proof.Machine

/-! ### Block header words (R74, R141) -/

/-- The tz fields lie apart from each other and above the lz fields, so that each is read where it was put (R74). -/
theorem hdrTz_packHdr (lz tz : Lanes (BitVec 2)) (k : Fin 8) : hdrTz (packHdr lz tz) k = tz[k] := by
  refine BitVec.eq_of_getLsbD_eq fun i hi => ?_
  have hk := k.isLt
  rw [hdrTz, BitVec.getLsbD_extractLsb', packHdr, getLsbD_foldl_or, Bool.eq_iff_iff]
  simp only [hi, decide_true, Bool.true_and, BitVec.ofNat_eq_ofNat, BitVec.getLsbD_zero, Bool.false_or,
    List.any_eq_true, Bool.or_eq_true, BitVec.getLsbD_shiftLeft, BitVec.getLsbD_setWidth, Bool.and_eq_true,
    decide_eq_true_eq, Bool.not_eq_true', decide_eq_false_iff_not, Nat.not_lt]
  constructor
  · rintro ⟨j, -, ⟨-, -, hbit⟩ | ⟨⟨-, hlo⟩, -, hbit⟩⟩
    · have hj := BitVec.lt_of_getLsbD hbit
      omega
    · have hj := BitVec.lt_of_getLsbD hbit
      obtain rfl : j = k := Fin.ext (by omega)
      rwa [Nat.add_sub_cancel_left] at hbit
  · intro hbit
    refine ⟨k, mem_laneOrder k, .inr ⟨⟨by omega, by omega⟩, by omega, ?_⟩⟩
    rwa [Nat.add_sub_cancel_left]

/-- `unpack_hdr` undoes `pack_hdr` (R140, R141). -/
theorem decodeHdr_packHdr (lz tz : Lanes (BitVec 2)) : decodeHdr (packHdr lz tz) = .blkhdr lz tz := by
  simp only [decodeHdr, hdrLz_packHdr, hdrTz_packHdr]
  exact congrArg₂ Instr.blkhdr Vector.ofFn_getElem Vector.ofFn_getElem

/-! ### Lane descriptors (R75, R76) -/

/-- A descriptor byte has a zero high nibble, and `decodeDesc` finds its two fields in the low one (R75). -/
theorem decodeDesc_descByte (tz lz : BitVec 2) :
    (descByte tz lz).extractLsb' 4 4 = 0 ∧ decodeDesc ((descByte tz lz).setWidth 4) = laneOf tz lz := by
  revert tz lz
  decide

/-! ### The bytes of one encoding -/

section Bytes
variable (w : Word) (rest : List Byte)

theorem decode_cmd_leBytes {i : Instr} (h : decodeCmd w = .ok i) :
    decode .cmd (leBytes 4 w ++ rest) = .ok (i, rest) := by
  rw [← fromLE_leBytes w] at h
  simp only [leBytes] at h
  simp only [leBytes, List.cons_append, List.nil_append, decode, h]

theorem decode_hdr_leBytes : decode .hdr (leBytes 4 w ++ rest) = .ok (decodeHdr w, rest) :=
  congrArg (fun v => Except.ok (decodeHdr v, rest)) (fromLE_leBytes w)

theorem decode_desc_descByte (tz lz : BitVec 2) :
    decode .desc (descByte tz lz :: rest) = .ok (laneOf tz lz, rest) := by
  obtain ⟨hnibble, hfields⟩ := decodeDesc_descByte tz lz
  rw [decode, if_neg (not_not_intro hnibble), hfields]

end Bytes

/-- Settles O1: the three formats one by one; for a header word, each of the sixteen fields is read where it was put. -/
theorem decodeEncodeAgree : Obligations.DecodeEncodeAgree := by
  intro i rest _
  cases i with
  | enc => exact decode_cmd_leBytes (cmdWord 0) rest rfl
  | dec => exact decode_cmd_leBytes (cmdWord 1) rest rfl
  | encq => exact decode_cmd_leBytes (cmdWord 2) rest rfl
  | decq => exact decode_cmd_leBytes (cmdWord 3) rest rfl
  | ubound => exact decode_cmd_leBytes (cmdWord 4) rest rfl
  | blkhdr lz tz =>
    calc decode .hdr (leBytes 4 (packHdr lz tz) ++ rest)
      _ = .ok (decodeHdr (packHdr lz tz), rest) := decode_hdr_leBytes (packHdr lz tz) rest
      _ = .ok (.blkhdr lz tz, rest) := by rw [decodeHdr_packHdr]
  | laneW4 tz => exact decode_desc_descByte rest tz 0
  | laneW3 tz => exact decode_desc_descByte rest tz 1
  | laneW2 tz => exact decode_desc_descByte rest tz 2
  | laneW0 tz => exact decode_desc_descByte rest tz 3

/-! ### Command words (R70) -/

/-- A word above 4 has one of bits 31:3 set, or OPC 5, 6 or 7 (R70, R79). -/
theorem decodeCmd_error_of_gt {w : Word} (h : 4 < w.toNat) : ∃ e, decodeCmd w = .error e := by
  unfold decodeCmd
  split
  case isTrue => exact ⟨_, rfl⟩
  case isFalse hbits =>
    have hopc : (w.extractLsb' 0 3).toNat = w.toNat := by
      have hzero := congrArg BitVec.toNat (not_not.1 hbits)
      have hw := w.isLt
      simp only [BitVec.extractLsb'_toNat, BitVec.ofNat_eq_ofNat, BitVec.toNat_ofNat, Nat.shiftRight_eq_div_pow]
        at hzero ⊢
      omega
    rw [hopc]
    split
    case h_6 => exact ⟨_, rfl⟩
    all_goals omega

/-- Settles O3: the words up to 4 are decoded one by one, and no other is a command word. -/
theorem commandWordsAreFive : Obligations.CommandWordsAreFive := by
  have word_eq {w : Word} (v : Word) (h : w.toNat = v.toNat) : w = v := BitVec.eq_of_toNat_eq h
  refine ⟨fun w h => decodeCmd_error_of_gt h, fun w h => word_eq 0 h ▸ rfl, fun w h => word_eq 1 h ▸ rfl,
    fun w h => word_eq 2 h ▸ rfl, fun w h => word_eq 3 h ▸ rfl, fun w h => word_eq 4 h ▸ rfl, fun w i hw hi => ?_⟩
  have hcases : w = 0 ∨ w = 1 ∨ w = 2 ∨ w = 3 := by bv_omega
  rcases hcases with rfl | rfl | rfl | rfl <;> cases hi <;> decide

/-! ### Rows standing alone (log entries 5, 20) -/

theorem decodeTableWord_cmd {w : Word} {i : Instr} (h : decodeCmd w = .ok i) :
    decodeTableWord 32 w.toNat = some i := by
  have hread := decode_cmd_leBytes w [] h
  rw [List.append_nil] at hread
  simp [decodeTableWord, tableFormat, h, hread, w.isLt]

theorem decodeTableWord_hdr {w : Word} (h : 4 < w.toNat) : decodeTableWord 32 w.toNat = some (decodeHdr w) := by
  obtain ⟨e, he⟩ := decodeCmd_error_of_gt h
  have hread := decode_hdr_leBytes w []
  rw [List.append_nil] at hread
  simp [decodeTableWord, tableFormat, he, hread, w.isLt]

theorem decodeTableWord_desc (tz lz : BitVec 2) :
    decodeTableWord 8 (descByte tz lz).toNat = some (laneOf tz lz) := by
  have hread := decode_desc_descByte [] tz lz
  simp [decodeTableWord, tableFormat, leBytes, hread, (descByte tz lz).isLt]

/-- Settles O4: a command word, a header word and two descriptors, each read by its own format. -/
theorem sampleWordsDecode : Obligations.SampleWordsDecode := by
  have hfields : decodeHdr 0xFFFEFFFE = .blkhdr #v[2, 3, 3, 3, 3, 3, 3, 3] #v[2, 3, 3, 3, 3, 3, 3, 3] := by decide
  refine ⟨decodeTableWord_cmd (w := 2) rfl, ?_, decodeTableWord_desc 3 1, decodeTableWord_desc 1 3⟩
  exact hfields ▸ decodeTableWord_hdr (w := 0xFFFEFFFE) (by decide)

end Sys2Proof.Machine
end

section
/-! The decoder's direction of the lane codec (41_lane_codec.md R120 to R127, 42_header_payload.md R142, R143): a lane's
descriptor and payload give its residual back, and a block's header word and payload all eight. -/

namespace Sys2Proof.Machine

/-! ### One lane (R127) -/

/-- The bytes that `strip` takes away below the significant word are zero bytes (R120). -/
theorem mul_tzField_le_ctz32 (r : Word) : 8 * tzField r ≤ ctz32 r := by
  rw [tzField, Nat.shiftRight_eq_div_pow]
  omega

theorem tzField_lt (r : Word) : tzField r < 4 := by
  have hq : ctz32 r >>> 3 ≤ 4 := (wholeBytes_of_le_32 (ctz32_le r)).1
  rw [tzField, Nat.shiftRight_eq_div_pow (ctz32 r >>> 3)]
  omega

/-- The payload is wide enough for the significant word: width 4 - lzb, or one more (R124). -/
theorem le_mul_stripWidth (r : Word) : 32 - clz32 (significant r) ≤ 8 * stripWidth r := by
  have hbytes : 8 * lzBytes r ≤ clz32 (significant r) := by
    rw [lzBytes, Nat.shiftRight_eq_div_pow]
    omega
  rw [stripWidth]
  omega

theorem significant_lt (r : Word) : (significant r).toNat < 256 ^ stripWidth r := by
  rw [show 256 = 2 ^ 8 from rfl, ← Nat.pow_mul]
  exact Nat.lt_pow_two_of_testBit _ fun i hi => getLsbD_of_clz32_le (Nat.le_trans (le_mul_stripWidth r) hi)

theorem fromLE_payload_strip (r : Word) : fromLE (strip r).payload = significant r :=
  BitVec.eq_of_toNat_eq ((toNat_fromLE_leBytes _ _).trans (Nat.mod_eq_of_lt (significant_lt r)))

/-- The bits shifted out are those below the lowest set one (R121, R126). -/
theorem significant_shiftLeft (r : Word) : significant r <<< (8 * tzField r) = r := by
  refine BitVec.eq_of_getLsbD_eq fun i hi => ?_
  rw [significant, BitVec.getLsbD_shiftLeft, BitVec.getLsbD_ushiftRight]
  by_cases hlow : i < 8 * tzField r
  · simp [hlow, getLsbD_of_lt_ctz32 (Nat.lt_of_lt_of_le hlow (mul_tzField_le_ctz32 r))]
  · simp [hi, hlow, Nat.add_sub_cancel' (Nat.not_lt.1 hlow)]

/-- `unstrip` undoes `strip` (R127). -/
theorem unstrip_strip (r : Word) : unstrip (strip r).tz (strip r).payload = r := by
  have htz : (strip r).tz.toNat = tzField r := Nat.mod_eq_of_lt (tzField_lt r)
  rw [unstrip, fromLE_payload_strip, unshift, htz, significant_shiftLeft]

/-! ### The eight lanes of a block (R142, R143) -/

theorem lanes_ext {α : Type} {x y : Lanes α} (h : ∀ k : Fin 8, x[k] = y[k]) : x = y :=
  Vector.ext fun i hi => h ⟨i, hi⟩

theorem getElem_same {α : Type} (x : α) (k : Fin 8) : (Lanes.same x)[k] = x := Vector.getElem_replicate k.isLt

theorem hdrTz_headerOf (r : Lanes Word) (k : Fin 8) : hdrTz (headerOf r) k = (strip r[k]).tz := by
  rw [headerOf, hdrTz_packHdr]
  exact Vector.getElem_ofFn k.isLt

/-- Several lanes' payloads are as long as the widths in the header word say (R143). -/
theorem length_payloadsOf (r : Lanes Word) (l : List (Fin 8)) :
    (payloadsOf r l).length = (l.map (laneWidth (headerOf r))).sum := by
  induction l with
  | nil => rfl
  | cons x l ih => rw [length_payloadsOf_cons, ih, List.map_cons, List.sum_cons, laneWidth_headerOf]

/-- A block's payload with lane `k`'s part singled out (R72). -/
theorem payloadOf_eq_append (r : Lanes Word) (k : Fin 8) :
    payloadOf r = payloadsOf r (laneOrder.take k.val) ++
      ((strip r[k]).payload ++ payloadsOf r (laneOrder.drop (k.val + 1))) :=
  calc payloadsOf r laneOrder
    _ = payloadsOf r (laneOrder.take k.val ++ k :: laneOrder.drop (k.val + 1)) := by rw [← laneOrder_eq_append]
    _ = payloadsOf r (laneOrder.take k.val) ++ payloadsOf r (k :: laneOrder.drop (k.val + 1)) := List.flatMap_append

/-- The header word gives the place of each lane's payload (R143). -/
theorem lane_payloadOf (r : Lanes Word) (k : Fin 8) :
    ((payloadOf r).drop (laneOffset (headerOf r) k)).take (laneWidth (headerOf r) k) = (strip r[k]).payload := by
  have hoff : (payloadsOf r (laneOrder.take k.val)).length = laneOffset (headerOf r) k := length_payloadsOf r _
  have hwidth : (strip r[k]).payload.length = laneWidth (headerOf r) k := by
    rw [laneWidth_headerOf, Stripped.payload, length_leBytes]
  rw [payloadOf_eq_append r k, List.drop_left' hoff, List.take_left' hwidth]

/-- The residuals read back from a block's header word and payload are those it was made of (R126, R143). -/
theorem residualsOf_headerOf_payloadOf (r : Lanes Word) : residualsOf (headerOf r) (payloadOf r) = r := by
  refine lanes_ext fun k => ?_
  rw [residualsOf, Fin.getElem_fin, Vector.getElem_ofFn, lane_payloadOf, hdrTz_headerOf, unstrip_strip]

end Sys2Proof.Machine
end

section
/-! The predictor (40_predictor.md R100 to R109): what each operation yields in one lane, the decoder's mirror image of
the encoder, the table after a block's eight stores, and the deferred-store form. -/

namespace Sys2Proof.Machine

namespace Predictor

/-! ### The delta and the residual of one lane (R100 to R104) -/

section Lane
variable (p : Predictor) (v d r : Lanes Word) (k : Fin 8)

theorem getElem_deltas : (p.deltas v)[k] = v[k] - p.prior[k] := Vector.getElem_ofFn k.isLt

theorem getElem_values : (p.values d)[k] = p.prior[k] + d[k] := Vector.getElem_ofFn k.isLt

theorem getElem_residuals_true : (residuals true p d)[k] = d[k] ^^^ p.xprior[k] := Vector.getElem_ofFn k.isLt

theorem residuals_false : residuals false p d = d := rfl

theorem getElem_unresiduals_true : (unresiduals true p r)[k] = r[k] ^^^ p.xprior[k] :=
  Vector.getElem_ofFn k.isLt

/-! ### The predictor after a block (R102, R103) -/

theorem getElem_updateTable_idx : (p.updateTable d).idx[k] = hash d[k] := Vector.getElem_ofFn k.isLt

theorem getElem_updateTable_xprior : (p.updateTable d).xprior[k] = entry (p.stored d) (hash d[k]) :=
  Vector.getElem_ofFn k.isLt

theorem advance_false : p.advance false v d = { p with prior := v } := rfl

/-- The table update neither reads nor writes PRIOR (R103, R109). -/
theorem updateTable_with_prior : ({ p with prior := v } : Predictor).updateTable d = p.advance true v d := rfl

end Lane

/-! ### The decoder's direction (R101, R104) -/

theorem values_deltas (p : Predictor) (v : Lanes Word) : p.values (p.deltas v) = v :=
  lanes_ext fun k => by rw [getElem_values, getElem_deltas, BitVec.add_comm, BitVec.sub_add_cancel]

theorem unresiduals_residuals (full : Bool) (p : Predictor) (d : Lanes Word) :
    unresiduals full p (residuals full p d) = d := by
  cases full with
  | false => rfl
  | true =>
    refine lanes_ext fun k => ?_
    rw [getElem_unresiduals_true, getElem_residuals_true, BitVec.xor_assoc, BitVec.xor_self, BitVec.xor_zero]

/-! ### The stores of phase 1 (R103, R107) -/

/-- One lane's store to the table. -/
def storeLane (p : Predictor) (d : Lanes Word) (t : Vector Word 256) (k : Fin 8) : Vector Word 256 :=
  t.set p.idx[k].toNat d[k] p.idx[k].isLt

theorem stored_eq_foldl (p : Predictor) (d : Lanes Word) : p.stored d = laneOrder.foldl (p.storeLane d) p.lookup := rfl

section Store
variable {p : Predictor} {d : Lanes Word} {t : Vector Word 256} {k : Fin 8} {i : Byte}

theorem entry_storeLane_same (h : p.idx[k] = i) : entry (p.storeLane d t k) i = d[k] := by
  subst h
  exact Vector.getElem_set_self _

theorem entry_storeLane_ne (h : p.idx[k] ≠ i) : entry (p.storeLane d t k) i = entry t i :=
  Vector.getElem_set_ne _ _ (mt BitVec.eq_of_toNat_eq h)

/-- An entry that no lane of the list stores to keeps its word. -/
theorem entry_foldl_storeLane {l : List (Fin 8)} (h : ∀ k ∈ l, p.idx[k] ≠ i) :
    entry (l.foldl (p.storeLane d) t) i = entry t i := by
  induction l generalizing t with
  | nil => rfl
  | cons x l ih =>
    obtain ⟨hx, hl⟩ := List.forall_mem_cons.1 h
    rw [List.foldl_cons, ih hl, entry_storeLane_ne hx]

end Store

/-! ### The all-zero predictor (R108) -/

/-- From an all-zero XPRIOR the residual of the full variant is the delta. -/
theorem residuals_true_zero (d : Lanes Word) : residuals true zero d = d :=
  lanes_ext fun k => by
    have hxprior : zero.xprior[k] = 0 := getElem_same 0 k
    rw [getElem_residuals_true, hxprior]
    exact BitVec.xor_zero

/-- A store of 0 to an all-zero table changes nothing. -/
theorem storeLane_zero (k : Fin 8) : zero.storeLane (Lanes.same 0) zero.lookup k = zero.lookup := by
  rw [storeLane, getElem_same]
  exact Vector.set_replicate_self

theorem stored_zero : zero.stored (Lanes.same 0) = zero.lookup := by
  rw [stored_eq_foldl]
  exact List.foldlRecOn laneOrder (motive := (· = zero.lookup)) _ rfl fun _ ht k _ => by rw [ht, storeLane_zero]

/-- The table update with the deltas before the first block, all 0, leaves the all-zero predictor as it is (R109). -/
theorem updateTable_zero : zero.updateTable (Lanes.same 0) = zero := by
  have hidx : (zero.updateTable (Lanes.same 0)).idx = zero.idx := lanes_ext fun k => by
    have hhash : hash 0 = 0 := by decide
    rw [getElem_updateTable_idx, getElem_same, hhash]
    exact (getElem_same 0 k).symm
  have hxprior : (zero.updateTable (Lanes.same 0)).xprior = zero.xprior := lanes_ext fun k => by
    rw [getElem_updateTable_xprior, stored_zero]
    exact (Vector.getElem_replicate _).trans (getElem_same 0 k).symm
  exact (Predictor.mk.injEq ..).mpr ⟨rfl, hidx, hxprior, stored_zero⟩

end Predictor

/-! ### Of the stores to one entry the highest lane's remains (R107) -/

theorem lt_of_mem_drop_laneOrder {k : Fin 8} : ∀ j ∈ laneOrder.drop (k.val + 1), k < j := by
  revert k
  decide

/-- Settles O10: the stores of the lanes above the highest storing one leave its delta where it is. -/
theorem highestLaneRemains : Obligations.HighestLaneRemains := by
  intro p d i
  constructor
  · intro k hk habove
    have hsplit : p.stored d =
        (laneOrder.take k.val ++ k :: laneOrder.drop (k.val + 1)).foldl (p.storeLane d) p.lookup := by
      rw [Predictor.stored_eq_foldl, ← laneOrder_eq_append]
    calc Predictor.entry (p.stored d) i
      _ = Predictor.entry (p.storeLane d ((laneOrder.take k.val).foldl (p.storeLane d) p.lookup) k) i := by
        rw [hsplit, List.foldl_append, List.foldl_cons]
        exact Predictor.entry_foldl_storeLane fun j hj => habove j (lt_of_mem_drop_laneOrder j hj)
      _ = d[k] := Predictor.entry_storeLane_same hk
  · intro hnone
    exact Predictor.entry_foldl_storeLane fun k _ => hnone k

/-! ### The decoder beside the encoder (R101, R104) -/

/-- Settles O12: the header word and the payload give the residuals back, and those the deltas and the values. -/
theorem decoderTracksEncoder : Obligations.DecoderTracksEncoder := by
  intro full p v
  simp only [encb, decb, residualsOf_headerOf_payloadOf, Predictor.unresiduals_residuals, Predictor.values_deltas]

/-! ### The deferred-store form (R109) -/

/-- A block of the deferred-store form is `encb`'s, after the table update that the block before has left to it. -/
theorem encBlocksDeferred_succ (blocks : Nat) (p : Predictor) (prev : Lanes Word) (a : List Word) :
    encBlocksDeferred (blocks + 1) p prev a =
      let q := p.updateTable prev
      let v := blockWords a
      let rest := encBlocksDeferred blocks { q with prior := v } (q.deltas v) (a.drop 8)
      ((encb true q v).2.1 :: rest.1, (encb true q v).2.2 ++ rest.2) := rfl

/-- The deferred-store form is one table update behind (R109). -/
theorem encBlocksDeferred_eq (blocks : Nat) (p : Predictor) (prev : Lanes Word) (a : List Word) :
    encBlocksDeferred blocks p prev a = encBlocks true blocks (p.updateTable prev) a := by
  induction blocks generalizing p prev a with
  | zero => rfl
  | succ blocks ih =>
    have hnext (q : Predictor) (v : Lanes Word) :
        ({ q with prior := v } : Predictor).updateTable (q.deltas v) = (encb true q v).1 := q.updateTable_with_prior v _
    simp only [encBlocksDeferred_succ, encBlocks_succ, ih, hnext]

/-- Settles O14: the two forms differ by the table update before the first block, which changes nothing. -/
theorem deferredStoreSameStream : Obligations.DeferredStoreSameStream := by
  intro blocks a
  rw [encBlocksDeferred_eq, Predictor.updateTable_zero]

/-! ### The slot hash (R105) -/

theorem and_byteMask (x : Word) : x &&& 0xFF#32 = (x.setWidth 8).setWidth 32 :=
  calc x &&& 0xFF#32
    _ = 0#24 ++ x.setWidth 8 := BitVec.and_setWidth_allOnes 24 8 x
    _ = (x.setWidth 8).setWidth 32 := (BitVec.setWidth_eq_append (by decide)).symm

/-- The mask and the truncation to a byte are one. -/
theorem hash_eq_setWidth (d : Word) : hash d = ((d >>> 8) ^^^ (d >>> 24)).setWidth 8 := by
  rw [hash, and_byteMask, BitVec.setWidth_setWidth_of_le _ (by decide), BitVec.setWidth_eq]

/-- Settles O9: the low byte of each shifted word is a byte of the delta. -/
theorem hashReadsTwoBytes : Obligations.HashReadsTwoBytes := by
  intro d
  constructor
  · rw [hash_eq_setWidth, BitVec.setWidth_xor, BitVec.setWidth_ushiftRight_eq_extractLsb,
      BitVec.setWidth_ushiftRight_eq_extractLsb]
  · rw [hash_eq_setWidth, and_byteMask]

/-- Settles O11: lane by lane, each phase of the block. -/
theorem predictorAdvance : Obligations.PredictorAdvance := by
  intro p v k
  have hlookup : (p.advance true v (p.deltas v)).lookup = p.stored (p.deltas v) := rfl
  have hfalse : (Predictor.residuals false p (p.deltas v))[k] = (p.deltas v)[k] := by rw [Predictor.residuals_false]
  exact ⟨p.getElem_deltas v k, p.getElem_residuals_true _ k, hfalse, p.getElem_updateTable_idx _ k,
    p.getElem_updateTable_xprior _ k, hlookup, rfl, p.advance_false v _⟩

/-- Settles O13: both variants have the same deltas, and from the all-zero predictor the same residuals. -/
theorem firstBlockVariantsAgree : Obligations.FirstBlockVariantsAgree := by
  intro v
  simp only [encb, Predictor.residuals_true_zero, Predictor.residuals_false]

end Sys2Proof.Machine
end

section
/-! What `strip` yields (41_lane_codec.md R125), its inverse on the canonical lanes (R127), and a lane row in a decode job
(R126, R143). -/

namespace Sys2Proof.Machine

/-! ### Little-endian bytes (R6, R51) -/

theorem leBytes_ushiftRight (n t : Nat) (x : Word) : leBytes n (x >>> (8 * t)) = (leBytes (t + n) x).drop t := by
  induction t generalizing x with
  | zero => simp
  | succ t ih =>
    rw [Nat.mul_succ, Nat.add_comm (8 * t), BitVec.shiftRight_add, ih, Nat.succ_add, leBytes, List.drop_succ_cons]

theorem take_leBytes {n m : Nat} (h : n ≤ m) (x : Word) : (leBytes m x).take n = leBytes n x := by
  induction n generalizing m x with
  | zero => rfl
  | succ n ih =>
    cases m with
    | zero => omega
    | succ m => simp only [leBytes, List.take_succ_cons, ih (Nat.le_of_succ_le_succ h)]

theorem toNat_fromLE_lt (bs : List Byte) : (fromLE bs).toNat < 256 ^ bs.length := by
  induction bs with
  | nil => decide
  | cons b bs ih =>
    have hpow : 256 ^ (bs.length + 1) = 2 ^ (8 * (bs.length + 1)) := (Nat.pow_mul 2 8 _).symm
    have hbyte : (b.setWidth 32).toNat < 256 ^ (bs.length + 1) :=
      calc (b.setWidth 32).toNat
        _ ≤ b.toNat := by rw [BitVec.toNat_setWidth]; exact Nat.mod_le _ _
        _ < 256 ^ 1 := b.isLt
        _ ≤ 256 ^ (bs.length + 1) := Nat.pow_le_pow_right (by decide) (by omega)
    have hrest : (fromLE bs <<< 8).toNat < 256 ^ (bs.length + 1) :=
      calc (fromLE bs <<< 8).toNat
        _ ≤ (fromLE bs).toNat * 256 := by rw [BitVec.toNat_shiftLeft, Nat.shiftLeft_eq]; exact Nat.mod_le _ _
        _ < 256 ^ (bs.length + 1) := Nat.mul_lt_mul_of_pos_right ih (by decide)
    rw [fromLE, BitVec.toNat_or, List.length_cons, hpow]
    exact Nat.or_lt_two_pow (hpow ▸ hbyte) (hpow ▸ hrest)

/-- Within a word's four bytes the shift cannot overflow, and the parts of the `|||` are apart. -/
theorem toNat_fromLE_cons (b : Byte) {bs : List Byte} (h : bs.length ≤ 3) :
    (fromLE (b :: bs)).toNat = b.toNat + 256 * (fromLE bs).toNat := by
  have hbs : (fromLE bs).toNat < 256 ^ 3 :=
    Nat.lt_of_lt_of_le (toNat_fromLE_lt bs) (Nat.pow_le_pow_right (by decide) h)
  have hshift : (fromLE bs <<< 8).toNat = (fromLE bs).toNat <<< 8 := by
    rw [BitVec.toNat_shiftLeft, Nat.mod_eq_of_lt]
    rw [Nat.shiftLeft_eq]
    omega
  rw [fromLE, BitVec.toNat_or, hshift, BitVec.toNat_setWidth_of_le (by decide), Nat.or_comm,
    ← Nat.shiftLeft_add_eq_or_of_lt b.isLt, Nat.shiftLeft_eq]
  omega

theorem toNat_fromLE_four (b0 b1 b2 b3 : Byte) : (fromLE [b0, b1, b2, b3]).toNat =
    b0.toNat + 256 * (b1.toNat + 256 * (b2.toNat + 256 * b3.toNat)) := by
  rw [toNat_fromLE_cons b0 (by simp), toNat_fromLE_cons b1 (by simp), toNat_fromLE_cons b2 (by simp),
    toNat_fromLE_cons b3 (by simp)]
  rfl

theorem pow_le_toNat_fromLE {a : Byte} {bs : List Byte} (hlen : bs.length ≤ 3) (hlast : bs.getLastD a ≠ 0) :
    256 ^ bs.length ≤ (fromLE (a :: bs)).toNat := by
  induction bs generalizing a with
  | nil =>
    rw [toNat_fromLE_cons a hlen]
    exact Nat.le_add_right_of_le (Nat.pos_of_ne_zero (BitVec.toNat_ne.1 hlast))
  | cons b bs ih =>
    have hrest := ih (a := b) (Nat.le_of_succ_le hlen) (by rwa [List.getLastD_cons] at hlast)
    rw [toNat_fromLE_cons a hlen, List.length_cons, Nat.pow_succ]
    omega

theorem leBytes_zero (n : Nat) : leBytes n 0 = List.replicate n 0 := by
  induction n with
  | zero => rfl
  | succ n ih =>
    have hshift : (0 : Word) >>> 8 = 0 := BitVec.zero_ushiftRight
    have hbyte : (0 : Word).setWidth 8 = 0 := BitVec.setWidth_zero ..
    rw [leBytes, hshift, hbyte, ih, List.replicate_succ]

/-- The bytes that a word was made of read back; above them it has zero bytes only. -/
theorem leBytes_fromLE {bs : List Byte} (h : bs.length ≤ 4) (m : Nat) :
    leBytes (bs.length + m) (fromLE bs) = bs ++ List.replicate m 0 := by
  induction bs with
  | nil => rw [List.length_nil, Nat.zero_add, fromLE, leBytes_zero, List.nil_append]
  | cons b bs ih =>
    rw [List.length_cons] at h
    have hcons := toNat_fromLE_cons b (Nat.le_of_succ_le_succ h)
    have hb := b.isLt
    have hlow : (fromLE (b :: bs)).setWidth 8 = b := BitVec.eq_of_toNat_eq (by
      rw [BitVec.toNat_setWidth]
      omega)
    have hhigh : fromLE (b :: bs) >>> 8 = fromLE bs := BitVec.eq_of_toNat_eq (by
      rw [BitVec.toNat_ushiftRight, Nat.shiftRight_eq_div_pow]
      omega)
    rw [List.length_cons, Nat.succ_add, leBytes, hlow, hhigh, ih (by omega), List.cons_append]

theorem fromLE_eq_append (b0 b1 b2 b3 : Byte) : fromLE [b0, b1, b2, b3] = b3 ++ b2 ++ b1 ++ b0 := by
  refine BitVec.eq_of_toNat_eq ?_
  rw [toNat_fromLE_four, BitVec.toNat_append, BitVec.toNat_append, BitVec.toNat_append,
    ← Nat.shiftLeft_add_eq_or_of_lt b0.isLt, ← Nat.shiftLeft_add_eq_or_of_lt b1.isLt,
    ← Nat.shiftLeft_add_eq_or_of_lt b2.isLt]
  simp only [Nat.shiftLeft_eq]
  omega

theorem exists_fromLE_four (r : Word) : ∃ b0 b1 b2 b3, r = fromLE [b0, b1, b2, b3] :=
  ⟨_, _, _, _, (fromLE_leBytes r).symm⟩

/-! ### The zero-bit counts by the position of the nonzero bytes (R120, R122) -/

/-- The nonzero bytes of a word begin at byte `t` and end `k` bytes above it: the columns of R125's table. -/
structure NonzeroBytes (r : Word) (t k : Nat) : Prop where
  below : r.toNat % 256 ^ t = 0
  first : r.toNat / 256 ^ t % 256 ≠ 0
  last : 256 ^ k ≤ r.toNat / 256 ^ t
  above : r.toNat / 256 ^ t < 256 ^ (k + 1)

/-- A word's value lies between two powers of 2 that the upper count gives (R7). -/
theorem pow_clz32_bounds {x : Word} (hx : x ≠ 0) : 2 ^ (31 - clz32 x) ≤ x.toNat ∧ x.toNat < 2 ^ (32 - clz32 x) :=
  ⟨Nat.ge_two_pow_of_testBit (getLsbD_clz32 (Nat.lt_of_le_of_ne (clz32_le x) (mt clz32_eq_32_iff.1 hx))),
    Nat.lt_pow_two_of_testBit _ fun _ hi => getLsbD_of_clz32_le hi⟩

/-- A word of `k + 1` bytes has the others zero (R122). -/
theorem wholeBytes_clz32 {x : Word} {k : Nat} (hlo : 256 ^ k ≤ x.toNat) (hhi : x.toNat < 256 ^ (k + 1)) :
    clz32 x >>> 3 = 3 - k := by
  have hx : x ≠ 0 := by
    rintro rfl
    exact absurd hlo (Nat.not_le.2 (Nat.pow_pos (by decide)))
  obtain ⟨hge, hlt⟩ := pow_clz32_bounds hx
  rw [show 256 = 2 ^ 8 from rfl, ← Nat.pow_mul] at hlo hhi
  have hdown : 8 * k < 32 - clz32 x := (Nat.pow_lt_pow_iff_right (by decide)).1 (Nat.lt_of_le_of_lt hlo hlt)
  have hup : 31 - clz32 x < 8 * (k + 1) := (Nat.pow_lt_pow_iff_right (by decide)).1 (Nat.lt_of_le_of_lt hge hhi)
  rw [Nat.shiftRight_eq_div_pow]
  omega

namespace NonzeroBytes

variable {r : Word} {t k : Nat}

theorem add_lt_four (h : NonzeroBytes r t k) : t + k < 4 := by
  have hle : 256 ^ (t + k) ≤ r.toNat :=
    calc 256 ^ (t + k)
      _ = 256 ^ t * 256 ^ k := Nat.pow_add ..
      _ ≤ 256 ^ t * (r.toNat / 256 ^ t) := Nat.mul_le_mul_left _ h.last
      _ ≤ r.toNat := Nat.mul_div_le ..
  exact (Nat.pow_lt_pow_iff_right (a := 256) (by decide)).1 (Nat.lt_of_le_of_lt hle r.isLt)

/-- The count stops within the first nonzero byte (R120). -/
theorem wholeBytes_ctz32 (h : NonzeroBytes r t k) : ctz32 r >>> 3 = t := by
  have hpow : 256 ^ t = 2 ^ (8 * t) := (Nat.pow_mul 2 8 t).symm
  have hlo : 8 * t ≤ ctz32 r := by
    by_contra hlt
    have hbit : r.toNat.testBit (ctz32 r) = true := getLsbD_ctz32 (by have := h.add_lt_four; omega)
    have hmod := Nat.testBit_mod_two_pow r.toNat (8 * t) (ctz32 r)
    rw [← hpow, h.below, hbit, Nat.zero_testBit, Bool.and_true] at hmod
    exact of_decide_eq_false hmod.symm (Nat.not_le.1 hlt)
  have hhi : ctz32 r < 8 * t + 8 := by
    by_contra hge
    refine h.first (Nat.eq_of_testBit_eq fun i => ?_)
    have hclear (hi : i < 8) : r.toNat.testBit (i + 8 * t) = false := getLsbD_of_lt_ctz32 (by omega)
    rw [show 256 = 2 ^ 8 from rfl, ← Nat.pow_mul, Nat.testBit_mod_two_pow, Nat.testBit_div_two_pow]
    simpa using hclear
  rw [Nat.shiftRight_eq_div_pow]
  omega

theorem tzField_eq (h : NonzeroBytes r t k) : tzField r = t := by
  have ht := h.add_lt_four
  rw [tzField, h.wholeBytes_ctz32, Nat.shiftRight_eq_div_pow]
  omega

theorem lzBytes_eq (h : NonzeroBytes r t k) : lzBytes r = 3 - k := by
  have hsig : (significant r).toNat = r.toNat / 256 ^ t := by
    rw [significant, h.tzField_eq, BitVec.toNat_ushiftRight, Nat.shiftRight_eq_div_pow, Nat.pow_mul]
  exact wholeBytes_clz32 (hsig ▸ h.last) (hsig ▸ h.above)

/-- The two collapses 3 to 2 (R123, R124) make one row of the cases of one and of two bytes. -/
theorem strip_eq (h : NonzeroBytes r t k) :
    strip r = ⟨BitVec.ofNat 2 t, BitVec.ofNat 2 (min 2 (3 - k)), max 2 (k + 1), r >>> (8 * t)⟩ := by
  have hlz : lzField r = min 2 (3 - k) := by
    rw [lzField, h.lzBytes_eq]
    split <;> omega
  have hwidth : stripWidth r = max 2 (k + 1) := by
    have hk := h.add_lt_four
    rw [stripWidth, h.lzBytes_eq]
    split <;> omega
  rw [strip, hlz, hwidth, significant, h.tzField_eq]

end NonzeroBytes

/-! ### R125's table -/

theorem toNat_tz_strip (r : Word) : (strip r).tz.toNat = tzField r := Nat.mod_eq_of_lt (tzField_lt r)

/-- One row of the table; the bytes above byte 3 read as 0, the `00` of the one-byte rows. -/
theorem NonzeroBytes.row {b0 b1 b2 b3 : Byte} {t k : Nat} (h : NonzeroBytes (fromLE [b0, b1, b2, b3]) t k) :
    let p := strip (fromLE [b0, b1, b2, b3])
    (p.tz.toNat, lzBytes (fromLE [b0, b1, b2, b3]), p.lz.toNat, p.width, p.payload) =
      (t, 3 - k, min 2 (3 - k), max 2 (k + 1), ([b0, b1, b2, b3, 0].drop t).take (max 2 (k + 1))) := by
  have hlt := h.add_lt_four
  have hbytes : leBytes 5 (fromLE [b0, b1, b2, b3]) = [b0, b1, b2, b3, 0] := leBytes_fromLE (by simp) 1
  have hpayload : leBytes (max 2 (k + 1)) (fromLE [b0, b1, b2, b3] >>> (8 * t)) =
      ([b0, b1, b2, b3, 0].drop t).take (max 2 (k + 1)) :=
    calc leBytes (max 2 (k + 1)) (fromLE [b0, b1, b2, b3] >>> (8 * t))
      _ = (leBytes (t + max 2 (k + 1)) (fromLE [b0, b1, b2, b3])).drop t := leBytes_ushiftRight ..
      _ = ((leBytes 5 (fromLE [b0, b1, b2, b3])).take (t + max 2 (k + 1))).drop t := by rw [take_leBytes (by omega)]
      _ = ([b0, b1, b2, b3, 0].drop t).take (max 2 (k + 1)) := by
        rw [hbytes, List.drop_take, Nat.add_sub_cancel_left]
  have htz : (BitVec.ofNat 2 t).toNat = t := Nat.mod_eq_of_lt (by omega)
  have hlz : (BitVec.ofNat 2 (min 2 (3 - k))).toNat = min 2 (3 - k) := Nat.mod_eq_of_lt (by omega)
  simp only [h.strip_eq, h.lzBytes_eq, Stripped.payload, htz, hlz, hpayload]

/-- Settles O6: each row says where the nonzero bytes begin and end. -/
theorem stripTable : Obligations.StripTable := by
  intro b0 b1 b2 b3
  refine ⟨by rw [toNat_tz_strip]; rfl, ?_⟩
  rw [← fromLE_eq_append]
  have hr := toNat_fromLE_four b0 b1 b2 b3
  have row (t k : Nat) (h : NonzeroBytes (fromLE [b0, b1, b2, b3]) t k) := h.row
  have hb0 := b0.isLt
  have hb1 := b1.isLt
  have hb2 := b2.isLt
  have hb3 := b3.isLt
  have hne (b : Byte) : b ≠ 0 ↔ b.toNat ≠ 0 := BitVec.toNat_ne
  have eq_zero {b : Byte} (h : ¬ b.toNat ≠ 0) : b = 0 := not_ne_iff.1 (mt (hne b).1 h)
  simp only [hne]
  split_ifs with h0 h3 h2 h1 h1 h3 h2 h2 h3 h3
  · exact row 0 3 (by constructor <;> omega)
  · exact row 0 2 (by constructor <;> omega)
  · exact row 0 1 (by constructor <;> omega)
  · exact (row 0 0 (by constructor <;> omega)).trans (by rw [eq_zero h1]; rfl)
  · exact row 1 2 (by constructor <;> omega)
  · exact row 1 1 (by constructor <;> omega)
  · exact (row 1 0 (by constructor <;> omega)).trans (by rw [eq_zero h2]; rfl)
  · exact row 2 1 (by constructor <;> omega)
  · exact (row 2 0 (by constructor <;> omega)).trans (by rw [eq_zero h3]; rfl)
  · exact row 3 0 (by constructor <;> omega)
  · rw [eq_zero h0, eq_zero h1, eq_zero h2, eq_zero h3]
    rfl

/-! ### The canonical lanes (R77, R127) -/

theorem eq_of_two_bits (x : BitVec 2) : x = 0 ∨ x = 1 ∨ x = 2 ∨ x = 3 := by
  revert x
  decide

theorem canonicalLane_width_four {tz : BitVec 2} {a b c d : Byte} :
    canonicalLane tz 0 [a, b, c, d] = true ↔ tz = 0 ∧ a ≠ 0 ∧ d ≠ 0 := by
  simp [canonicalLane, canonicalDescriptors, canonicalPayload]

theorem canonicalLane_width_three {tz : BitVec 2} {a b c : Byte} :
    canonicalLane tz 1 [a, b, c] = true ↔ (tz = 0 ∨ tz = 1) ∧ a ≠ 0 ∧ c ≠ 0 := by
  simp [canonicalLane, canonicalDescriptors, canonicalPayload]

theorem canonicalLane_width_two {tz : BitVec 2} {a b : Byte} :
    canonicalLane tz 2 [a, b] = true ↔ a ≠ 0 ∧ (tz ≠ 3 ∨ b = 0) := by
  simpa [canonicalLane, canonicalDescriptors, canonicalPayload] using fun _ _ => eq_of_two_bits tz

theorem canonicalLane_width_zero {tz : BitVec 2} : canonicalLane tz 3 [] = true ↔ tz = 3 := by
  simp [canonicalLane, canonicalDescriptors, canonicalPayload]

/-- A row of the table in R77's terms. -/
theorem canonicalLane_of_row {p : Stripped} {n t c l w : Nat} {y : List Byte}
    (h : (p.tz.toNat, n, p.lz.toNat, p.width, p.payload) = (t, c, l, w, y))
    (hy : canonicalLane (BitVec.ofNat 2 t) (BitVec.ofNat 2 l) y = true) :
    canonicalLane p.tz p.lz p.payload = true := by
  simp only [Prod.mk.injEq] at h
  obtain ⟨rfl, -, rfl, -, rfl⟩ := h
  simpa using hy

/-- An encoder's lane is canonical (R77). -/
theorem canonicalLane_strip (r : Word) : canonicalLane (strip r).tz (strip r).lz (strip r).payload = true := by
  obtain ⟨b0, b1, b2, b3, rfl⟩ := exists_fromLE_four r
  have htable := (stripTable b0 b1 b2 b3).2
  rw [← fromLE_eq_append] at htable
  split_ifs at htable with h0 h3 h2 h1 h1 h3 h2 h2 h3 h3
  all_goals refine canonicalLane_of_row htable ?_
  · exact canonicalLane_width_four.2 ⟨rfl, h0, h3⟩
  · exact canonicalLane_width_three.2 ⟨.inl rfl, h0, h2⟩
  · exact canonicalLane_width_two.2 ⟨h0, .inl (by decide)⟩
  · exact canonicalLane_width_two.2 ⟨h0, .inr rfl⟩
  · exact canonicalLane_width_three.2 ⟨.inr rfl, h1, h3⟩
  · exact canonicalLane_width_two.2 ⟨h1, .inl (by decide)⟩
  · exact canonicalLane_width_two.2 ⟨h1, .inr rfl⟩
  · exact canonicalLane_width_two.2 ⟨h2, .inl (by decide)⟩
  · exact canonicalLane_width_two.2 ⟨h2, .inr rfl⟩
  · exact canonicalLane_width_two.2 ⟨h3, .inr rfl⟩
  · exact canonicalLane_width_zero.2 rfl

/-- Shifted up within the word, the nonzero bytes begin as much higher (R126). -/
theorem NonzeroBytes.shiftLeft {x : Word} {t k : Nat} (h : NonzeroBytes x 0 k) (htk : t + k < 4) :
    NonzeroBytes (x <<< (8 * t)) t k ∧ x <<< (8 * t) >>> (8 * t) = x := by
  obtain ⟨-, hfirst, hlast, habove⟩ := h
  rw [Nat.pow_zero, Nat.div_one] at hfirst hlast habove
  have hpow : 2 ^ (8 * t) = 256 ^ t := Nat.pow_mul 2 8 t
  have hpos : 0 < 256 ^ t := Nat.pow_pos (by decide)
  have hlt : x.toNat * 256 ^ t < 2 ^ 32 :=
    calc x.toNat * 256 ^ t
      _ < 256 ^ (k + 1) * 256 ^ t := Nat.mul_lt_mul_of_pos_right habove hpos
      _ = 256 ^ (k + 1 + t) := (Nat.pow_add ..).symm
      _ ≤ 256 ^ 4 := Nat.pow_le_pow_right (by decide) (by omega)
  have hx : (x <<< (8 * t)).toNat = x.toNat * 256 ^ t := by
    rw [BitVec.toNat_shiftLeft, Nat.shiftLeft_eq, hpow, Nat.mod_eq_of_lt hlt]
  have hdiv : (x <<< (8 * t)).toNat / 256 ^ t = x.toNat := by rw [hx, Nat.mul_div_cancel _ hpos]
  refine ⟨⟨by rw [hx, Nat.mul_mod_left], hdiv ▸ hfirst, hdiv ▸ hlast, hdiv ▸ habove⟩, BitVec.eq_of_toNat_eq ?_⟩
  rw [BitVec.toNat_ushiftRight, Nat.shiftRight_eq_div_pow, hpow, hdiv]

/-- Bytes of which the first and the last are not zero stand for a significant word (R77, R121). -/
theorem nonzeroBytes_fromLE {a : Byte} {bs : List Byte} (hlen : bs.length ≤ 3) (hfirst : a ≠ 0)
    (hlast : bs.getLastD a ≠ 0) : NonzeroBytes (fromLE (a :: bs)) 0 bs.length where
  below := Nat.mod_one _
  first := by
    rw [Nat.pow_zero, Nat.div_one, toNat_fromLE_cons a hlen, Nat.add_mul_mod_self_left, Nat.mod_eq_of_lt a.isLt]
    exact BitVec.toNat_ne.1 hfirst
  last := by
    rw [Nat.pow_zero, Nat.div_one]
    exact pow_le_toNat_fromLE hlen hlast
  above := by
    rw [Nat.pow_zero, Nat.div_one]
    exact toNat_fromLE_lt (a :: bs)

theorem strip_unstrip_of_nonzeroBytes {tz : BitVec 2} {payload : List Byte} {k : Nat}
    (h : NonzeroBytes (fromLE payload) 0 k) (htk : tz.toNat + k < 4) :
    strip (unstrip tz payload) = ⟨tz, BitVec.ofNat 2 (min 2 (3 - k)), max 2 (k + 1), fromLE payload⟩ := by
  obtain ⟨hbytes, hback⟩ := h.shiftLeft htk
  rw [unstrip, unshift, hbytes.strip_eq, hback, BitVec.ofNat_toNat, BitVec.setWidth_eq]

/-- `strip` undoes `unstrip` on a canonical lane (R127). -/
theorem strip_unstrip {tz lz : BitVec 2} {payload : List Byte} (hlen : payload.length = width lz)
    (h : canonicalLane tz lz payload = true) : strip (unstrip tz payload) = ⟨tz, lz, width lz, fromLE payload⟩ := by
  rcases eq_of_two_bits lz with rfl | rfl | rfl | rfl
  · obtain ⟨a, b, c, d, rfl⟩ := List.length_eq_four.1 hlen
    obtain ⟨rfl, ha, hd⟩ := canonicalLane_width_four.1 h
    exact strip_unstrip_of_nonzeroBytes (nonzeroBytes_fromLE (bs := [b, c, d]) (by simp) ha hd)
      (show 0 + 3 < 4 by decide)
  · obtain ⟨a, b, c, rfl⟩ := List.length_eq_three.1 hlen
    obtain ⟨htz, ha, hc⟩ := canonicalLane_width_three.1 h
    have htz : tz.toNat + 2 < 4 := by rcases htz with rfl | rfl <;> decide
    exact strip_unstrip_of_nonzeroBytes (nonzeroBytes_fromLE (bs := [b, c]) (by simp) ha hc) htz
  · obtain ⟨a, b, rfl⟩ := List.length_eq_two.1 hlen
    obtain ⟨ha, htz⟩ := canonicalLane_width_two.1 h
    by_cases hb : b = 0
    case pos =>
      subst hb
      exact strip_unstrip_of_nonzeroBytes (payload := [a, 0]) (nonzeroBytes_fromLE (bs := []) (by simp) ha ha) tz.isLt
    case neg =>
      have htz : tz.toNat ≠ 3 := BitVec.toNat_ne.1 (htz.resolve_right hb)
      have htz : tz.toNat + 1 < 4 := by omega
      exact strip_unstrip_of_nonzeroBytes (nonzeroBytes_fromLE (bs := [b]) (by simp) ha hb) htz
  · obtain rfl := List.length_eq_zero_iff.1 hlen
    obtain rfl := canonicalLane_width_zero.1 h
    rfl

/-- Settles O7: `strip` yields canonical lanes only, and gives each of them back. -/
theorem laneCodecInverse : Obligations.LaneCodecInverse := by
  refine ⟨fun r => ⟨width_lz_strip r, unstrip_strip r⟩, fun tz lz payload hlen => ⟨?canonical, fun h => ?inverse⟩⟩
  case canonical =>
    rintro ⟨htz, hlz, -, hpayload⟩
    have h := canonicalLane_strip (unstrip tz payload)
    rwa [htz, hlz, hpayload] at h
  case inverse =>
    rw [strip_unstrip hlen h]
    refine ⟨rfl, rfl, rfl, ?_⟩
    have hback := leBytes_fromLE (hlen.trans_le (width_le lz)) 0
    rwa [hlen, Nat.add_zero, List.replicate_zero, List.append_nil] at hback

/-! ### A lane row in a decode job -/

/-- Settles O37: the lane's payload read succeeds, and the row is done. -/
theorem laneRowDecodes : Obligations.LaneRowDecodes := by
  intro i w tz k s hi hd hs hok
  rw [exec_of_laneRow hi, stepLane_decode hd hs, unmarshalLane_ok_iff.2 ⟨hok, rfl⟩]
  rfl

end Sys2Proof.Machine
end

section
/-! The block header word's fields (42_header_payload.md R140, R141), how many payload bytes it gives a block (R144),
the header word's row in both directions, and a lane row in an encode job (R142, R145). -/

namespace Sys2Proof.Machine

/-! ### The sixteen fields of a header word (R74, R141) -/

/-- A mask of the low `n` bits and a truncation to `n` bits are one. -/
theorem and_allOnes_setWidth (n : Nat) (x : Word) :
    x &&& (BitVec.allOnes n).setWidth 32 = (x.setWidth n).setWidth 32 := by
  refine BitVec.eq_of_getLsbD_eq fun i hi => ?_
  simp only [BitVec.getLsbD_and, BitVec.getLsbD_setWidth, BitVec.getLsbD_allOnes, hi, decide_true, Bool.true_and,
    Bool.and_comm]

/-- A 2-bit field is read by a shift and a mask (R141). -/
theorem setWidth_extractLsb'_two (h : Word) (s : Nat) : (h.extractLsb' s 2).setWidth 32 = (h >>> s) &&& 3#32 := by
  rw [← BitVec.setWidth_ushiftRight_eq_extractLsb]
  exact (and_allOnes_setWidth 2 _).symm

/-- The fields tile the word: bit `i` lies in an lz field below bit 16 and in a tz field from there on (R74). -/
theorem eq_of_hdr_fields {h g : Word} (hlz : ∀ k, hdrLz h k = hdrLz g k) (htz : ∀ k, hdrTz h k = hdrTz g k) :
    h = g := by
  refine BitVec.eq_of_getLsbD_eq fun i hi => ?_
  have hbit : i % 2 < 2 := Nat.mod_lt _ (by decide)
  by_cases hlow : i < 16
  · have hfield := congrArg (·.getLsbD (i % 2)) (hlz ⟨i / 2, by omega⟩)
    simpa [hdrLz, hbit, Nat.div_add_mod] using hfield
  · have hfield := congrArg (·.getLsbD (i % 2)) (htz ⟨(i - 16) / 2, by omega⟩)
    have hplace : 16 + 2 * ((i - 16) / 2) + i % 2 = i := by omega
    simpa [hdrTz, hbit, hplace] using hfield

/-- `pack_hdr` undoes `unpack_hdr` (R141): the fields it packs are those the word has. -/
theorem packHdr_fields (h : Word) : packHdr (Vector.ofFn fun k => hdrLz h k) (Vector.ofFn fun k => hdrTz h k) = h := by
  refine eq_of_hdr_fields (fun k => ?_) fun k => ?_
  · rw [hdrLz_packHdr]
    exact Vector.getElem_ofFn k.isLt
  · rw [hdrTz_packHdr]
    exact Vector.getElem_ofFn k.isLt

/-- Settles O2: a word is its sixteen fields, and each field is read where it is put. -/
theorem headerFieldsRoundTrip : Obligations.HeaderFieldsRoundTrip :=
  ⟨fun lz tz k => ⟨hdrLz_packHdr lz tz k, hdrTz_packHdr lz tz k⟩, packHdr_fields,
    fun h _ => ⟨setWidth_extractLsb'_two h _, setWidth_extractLsb'_two h _⟩⟩

/-! ### The widths of one lane (R76) -/

theorem width_ne_one (lz : BitVec 2) : width lz ≠ 1 := by
  revert lz
  decide

/-- The payload widths of a lane are 0, 2, 3 and 4 (R76). -/
theorem exists_width_eq {d : Nat} (hd : d = 0 ∨ (2 ≤ d ∧ d ≤ 4)) : ∃ lz, width lz = d := by
  obtain rfl | rfl | rfl | rfl : d = 0 ∨ d = 2 ∨ d = 3 ∨ d = 4 := by omega
  · exact ⟨3, rfl⟩
  · exact ⟨2, rfl⟩
  · exact ⟨1, rfl⟩
  · exact ⟨0, rfl⟩

/-! ### The widths of several lanes (R144) -/

/-- The lanes' widths add up to 0 or to at least 2: a lane that has a payload has 2 bytes. -/
theorem sum_width_ne_one {m : Nat} (lz : Fin m → BitVec 2) : ∑ k, width (lz k) ≠ 1 := by
  intro hone
  obtain ⟨k, hk, hne⟩ := Finset.exists_ne_zero_of_sum_ne_zero (hone.trans_ne one_ne_zero)
  have hle := Finset.single_le_sum (f := fun k => width (lz k)) (fun _ _ => Nat.zero_le _) hk
  have hwidth := width_ne_one (lz k)
  omega

/-- `m` lanes have any number of payload bytes up to `4 * m` but 1: the first lane takes as many as it can, and one
fewer of 5, so that what is left is not 1. -/
theorem exists_sum_width_eq (m : Nat) {n : Nat} (hn : n = 0 ∨ (2 ≤ n ∧ n ≤ 4 * m)) :
    ∃ lz : Fin m → BitVec 2, ∑ k, width (lz k) = n := by
  induction m generalizing n with
  | zero => exact ⟨Fin.elim0, by rw [Fin.sum_univ_zero]; omega⟩
  | succ m ih =>
    obtain ⟨d, hd, hle, hrest⟩ : ∃ d, (d = 0 ∨ (2 ≤ d ∧ d ≤ 4)) ∧ d ≤ n ∧
        (n - d = 0 ∨ (2 ≤ n - d ∧ n - d ≤ 4 * m)) := by
      refine ⟨if n = 5 then 3 else min n 4, ?_⟩
      split <;> omega
    obtain ⟨first, hfirst⟩ := exists_width_eq hd
    obtain ⟨rest, hsum⟩ := ih hrest
    refine ⟨Fin.cons first rest, ?_⟩
    rw [Fin.sum_univ_succ, Fin.cons_zero, hfirst]
    simp only [Fin.cons_succ, hsum]
    omega

/-! ### The block advance (R144) -/

theorem blockAdvance_eq_sum (h : Word) : blockAdvance h = ∑ k, width (hdrLz h k) :=
  (Fin.sum_univ_def fun k => width (hdrLz h k)).symm

theorem blockAdvance_packHdr (lz : Fin 8 → BitVec 2) (tz : Lanes (BitVec 2)) :
    blockAdvance (packHdr (Vector.ofFn lz) tz) = ∑ k, width (lz k) := by
  rw [blockAdvance_eq_sum]
  refine Finset.sum_congr rfl fun k _ => ?_
  rw [hdrLz_packHdr, Fin.getElem_fin, Vector.getElem_ofFn]

/-- Settles O8: the advance is the sum of the eight lanes' widths, each 0 or 2 to 4. -/
theorem blockAdvanceRange : Obligations.BlockAdvanceRange := by
  refine ⟨length_payloadOf, fun h => ⟨blockAdvance_le h, ?_⟩, fun n hn => ?_⟩
  · rw [blockAdvance_eq_sum]
    exact sum_width_ne_one _
  · obtain ⟨lz, hlz⟩ := exists_sum_width_eq 8 hn
    exact ⟨packHdr (Vector.ofFn lz) (Lanes.same 0), by rw [blockAdvance_packHdr, hlz]⟩

/-! ### The header word as a row of its own (R140, R141, R145) -/

section HeaderRow
variable (lz tz : Lanes (BitVec 2)) {s : State}

theorem exec_blkhdr_encode (hd : jobDirection s = some .encode) :
    exec (.blkhdr lz tz) s = settle s (thenStage (.lane 0) (putHeader (packHdr lz tz) s)) := by
  simp only [exec, execBlkhdr, hd]

theorem exec_blkhdr_decode (hd : jobDirection s = some .decode) :
    exec (.blkhdr lz tz) s = .next { s with hdr := packHdr lz tz, stage := .lane 0 } := by
  simp only [exec, execBlkhdr, hd]

end HeaderRow

/-- Settles O35: the header write succeeds, and changes its four bytes alone. -/
theorem headerRowEncodes : Obligations.HeaderRowEncodes := by
  intro lz tz s hd hok
  refine ⟨?_, fun a ha => Memory.readByte_write_outside ha⟩
  rw [exec_blkhdr_encode lz tz hd, putHeader_ok_iff.2 ⟨hok, rfl⟩]
  rfl

/-- Settles O36: the word is taken as it is, and its fields are those it was packed from. -/
theorem headerRowDecodes : Obligations.HeaderRowDecodes :=
  fun lz tz _ hd => ⟨exec_blkhdr_decode lz tz hd, fun k => ⟨hdrLz_packHdr lz tz k, hdrTz_packHdr lz tz k⟩⟩

/-! ### A lane row in an encode job (R142) -/

/-- Settles O38: the lane's payload write succeeds, and changes its `w` bytes alone. -/
theorem laneRowEncodes : Obligations.LaneRowEncodes := by
  intro i w tz k s hi hd hs hok
  refine ⟨?_, fun a ha => Memory.readByte_write_outside ha⟩
  rw [exec_of_laneRow hi, stepLane_encode hd hs, marshalLane_ok_iff.2 ⟨hok, rfl⟩]
  rfl

end Sys2Proof.Machine
end

section
/-! The operations as pure functions (43_jobs.md R176 to R178): `Dec` reads back the blocks that `Enc` wrote, and a
stream is as long as its header words and their payloads. -/

namespace Sys2Proof.Machine

/-! ### One block of a stream (R176) -/

/-- A block's words and the words after them, cut to the array's length, are the array (R166). -/
theorem take_blockWords_append (a rest : List Word) :
    ((blockWords a).toList ++ rest).take a.length = a.take 8 ++ rest.take (a.drop 8).length := by
  have hfirst : (blockWords a).toList.take a.length = a.take 8 := by
    refine List.ext_getElem ?_ fun k _ hk => ?_
    · simp [Nat.min_comm]
    · rw [List.length_take] at hk
      have hlt : k < a.length := by omega
      simp [blockWords, hlt]
  rw [List.take_append, hfirst, Vector.length_toList, List.length_drop]

/-- The word read where a header word was written (R145). -/
theorem fromLE_take_flatMap_cons (h : Word) (hs : List Word) (rest : List Byte) :
    fromLE (((h :: hs).flatMap (leBytes 4) ++ rest).take 4) = h := by
  rw [List.flatMap_cons, List.append_assoc, List.take_left' (length_leBytes 4 h), fromLE_leBytes]

theorem drop_flatMap_cons (h : Word) (hs : List Word) (rest : List Byte) :
    ((h :: hs).flatMap (leBytes 4) ++ rest).drop 4 = hs.flatMap (leBytes 4) ++ rest := by
  rw [List.flatMap_cons, List.append_assoc, List.drop_left' (length_leBytes 4 h)]

theorem length_encb_payload (full : Bool) (p : Predictor) (v : Lanes Word) :
    (encb full p v).2.2.length = blockAdvance (encb full p v).2.1 :=
  length_payloadOf _

/-! ### The blocks of a stream, read back (R177) -/

/-- Decoding the headers and the payloads of `m` encoded blocks, whatever follows each, gives the array back where the
blocks hold it. -/
theorem decBlocks_encBlocks (full : Bool) {m : Nat} {p : Predictor} {a : List Word} (hm : a.length ≤ 8 * m)
    (hrest yrest : List Byte) :
    (decBlocks full m p ((encBlocks full m p a).1.flatMap (leBytes 4) ++ hrest)
      ((encBlocks full m p a).2 ++ yrest)).take a.length = a := by
  induction m generalizing p a with
  | zero =>
    obtain rfl : a = [] := List.length_eq_zero_iff.1 (by omega)
    rfl
  | succ m ih =>
    have hlen := length_encb_payload full p (blockWords a)
    have hrestLen : (a.drop 8).length ≤ 8 * m := by
      rw [List.length_drop]
      omega
    rw [encBlocks_succ, List.append_assoc,
      decBlocks_succ full m p _ _ (fromLE_take_flatMap_cons _ _ _) (List.take_left' hlen), drop_flatMap_cons,
      List.drop_left' hlen, decoderTracksEncoder, take_blockWords_append, ih hrestLen, List.take_append_drop]

/-- The headers of `m` encoded blocks determine how long their payloads are (R144). -/
theorem payloadConsumed_encBlocks (full : Bool) (m : Nat) (p : Predictor) (a : List Word) (rest : List Byte) :
    payloadConsumed m ((encBlocks full m p a).1.flatMap (leBytes 4) ++ rest) = (encBlocks full m p a).2.length := by
  induction m generalizing p a with
  | zero => rfl
  | succ m ih =>
    rw [encBlocks_succ, payloadConsumed_succ m (fromLE_take_flatMap_cons _ _ _), drop_flatMap_cons, ih,
      List.length_append, length_encb_payload]

theorem length_encStream_headers (full : Bool) (a : List Word) :
    ((encBlocks full (blockCount a.length) Predictor.zero a).1.flatMap (leBytes 4)).length = headerBytes a.length := by
  rw [length_flatMap_leBytes, length_encBlocks_headers, headerBytes]

theorem length_encStream (full : Bool) (a : List Word) : (encStream full a).length =
    headerBytes a.length + (encBlocks full (blockCount a.length) Predictor.zero a).2.length := by
  rw [encStream_eq, List.length_append, length_encStream_headers]

/-- Settles O15: the header area ends where the payloads begin, and from there on block after block is read back. -/
theorem streamRoundTrip : Obligations.StreamRoundTrip := by
  intro full a _
  constructor
  · have hblocks : a.length ≤ 8 * blockCount a.length := by
      rw [blockCount]
      omega
    have hread := decBlocks_encBlocks full (p := Predictor.zero) hblocks
      (encBlocks full (blockCount a.length) Predictor.zero a).2 []
    rw [List.append_nil] at hread
    rwa [decStream, encStream_eq, List.drop_left' (length_encStream_headers full a)]
  · rw [decConsumed, length_encStream, encStream_eq, payloadConsumed_encBlocks]

/-! ### The size of a stream (R178) -/

theorem length_encBlocks_payloads_le (full : Bool) (m : Nat) (p : Predictor) (a : List Word) :
    (encBlocks full m p a).2.length ≤ 32 * m := by
  induction m generalizing p a with
  | zero => exact Nat.le_refl 0
  | succ m ih =>
    have hblock : (encb full p (blockWords a)).2.2.length ≤ 32 := length_payloadOf_le _
    have hrest := ih (encb full p (blockWords a)).1 (a.drop 8)
    rw [encBlocks_succ, List.length_append]
    omega

/-- Settles O16: a block has 4 bytes of header and at most 32 of payload; the document's bound counts the bytes of the
real values alone, which are all the lanes' exactly where the last block is full. -/
theorem streamSizeBounds : Obligations.StreamSizeBounds := by
  refine ⟨fun full a => ?_, fun n => ?_, fun n => ?_⟩
  · have hpay := length_encBlocks_payloads_le full (blockCount a.length) Predictor.zero a
    rw [length_encStream, headerBytes, maxStream]
    omega
  · rw [upperBound, maxStream, blockCount]
    omega
  · rw [upperBound, maxStream, blockCount]
    omega

end Sys2Proof.Machine
end

section
/-! The start step and the finish step of each operation (43_jobs.md R160 to R162, R168, R174), and what a step of the
engine runs (R163). -/

namespace Sys2Proof.Machine

/-! ### The checks of the start step (R161) -/

theorem streams_of_streamVariant {i : Instr} {full : Bool} (h : streamVariant i = some full) : Streams i := by
  cases i with
  | enc => exact ⟨true, .inl rfl⟩
  | dec => exact ⟨true, .inr rfl⟩
  | encq => exact ⟨false, .inl rfl⟩
  | decq => exact ⟨false, .inr rfl⟩
  | _ => cases h

theorem windowOverflows_iff {s : State} : s.windowOverflows = true ↔
    Config.addressSpace < s.src.toNat + s.srcLen.toNat ∨ Config.addressSpace < s.dst.toNat + s.dstLen.toNat := by
  simp only [State.windowOverflows, Bool.or_eq_true, decide_eq_true_eq]

theorem windowOverflows_eq_false_iff {s : State} : s.windowOverflows = false ↔
    s.src.toNat + s.srcLen.toNat ≤ Config.addressSpace ∧ s.dst.toNat + s.dstLen.toNat ≤ Config.addressSpace := by
  simp only [State.windowOverflows, Bool.or_eq_false_iff, decide_eq_false_iff_not, Nat.not_lt]

theorem windowsAlias_iff {s : State} : s.windowsAlias = true ↔
    0 < s.srcLen.toNat ∧ 0 < s.dstLen.toNat ∧ s.src.toNat < s.dst.toNat + s.dstLen.toNat ∧
      s.dst.toNat < s.src.toNat + s.srcLen.toNat := by
  simp only [State.windowsAlias, Bool.and_eq_true, decide_eq_true_eq, and_assoc]

theorem rejectStart_eq (c : Cause) (s : State) : rejectStart c s = .next (s.rejected c) := rfl

section Start
variable {s : State}

theorem startStream_badN (hn : Config.nmax < s.n.toNat) : startStream s = .next (s.rejected .badN) := by
  rw [startStream, if_pos hn, rejectStart_eq]

theorem startStream_badWindow (hn : s.n.toNat ≤ Config.nmax) (hfits : s.windowOverflows = true) :
    startStream s = .next (s.rejected .badWindow) := by
  rw [startStream, if_neg (Nat.not_lt.2 hn), if_pos hfits, rejectStart_eq]

theorem startStream_aliasing (hn : s.n.toNat ≤ Config.nmax) (hfits : s.windowOverflows = false)
    (halias : s.windowsAlias = true) : startStream s = .next (s.rejected .aliasing) := by
  rw [startStream, if_neg (Nat.not_lt.2 hn), if_neg (by simp [hfits]), if_pos halias, rejectStart_eq]

theorem startStream_begins (hn : s.n.toNat ≤ Config.nmax) (hfits : s.windowOverflows = false)
    (hapart : s.windowsAlias = false) (hdev : s.windowOverDevice = false) :
    startStream s = .next (beginStream s) := by
  rw [startStream, if_neg (Nat.not_lt.2 hn), if_neg (by simp [hfits]), if_neg (by simp [hapart]),
    if_neg (by simp [hdev])]

theorem startUbound_badN (hn : Config.nmax < s.n.toNat) : startUbound s = .next (s.rejected .badN) := by
  rw [startUbound, if_pos hn, rejectStart_eq]

theorem startUbound_begins (hn : s.n.toNat ≤ Config.nmax) :
    startUbound s = .next { clearForStart s with status := .busy } := by
  rw [startUbound, if_neg (Nat.not_lt.2 hn)]

end Start

/-- Settles O18: every check passes, and the job begins. -/
theorem streamStartAccepted : Obligations.StreamStartAccepted := by
  intro i full s hv hb hn hsrc hdst hapart hdev
  have hfits := windowOverflows_eq_false_iff.2 ⟨hsrc, hdst⟩
  have hapart' : s.windowsAlias = false := Bool.eq_false_iff.2 (mt windowsAlias_iff.1 hapart)
  rw [exec_of_not_busy (streams_of_streamVariant hv) hb, startStream_begins hn hfits hapart' hdev]
  rfl

/-- Settles O19: the three checks, each where those before it pass. -/
theorem streamStartRejected : Obligations.StreamStartRejected := by
  intro i full s hv hb
  rw [exec_of_not_busy (streams_of_streamVariant hv) hb]
  exact ⟨startStream_badN, fun hn hover => startStream_badWindow hn (windowOverflows_iff.2 hover),
    fun hn hsrc hdst hs hd hsd hds => startStream_aliasing hn (windowOverflows_eq_false_iff.2 ⟨hsrc, hdst⟩)
      (windowsAlias_iff.2 ⟨hs, hd, hsd, hds⟩)⟩

/-- Settles O21: the only check is that of N. -/
theorem uboundStart : Obligations.UboundStart := by
  intro s hb
  have hexec : exec .ubound s = startUbound s := if_neg hb
  rw [hexec]
  exact ⟨startUbound_begins, startUbound_badN⟩

/-! ### The finish step (R168) -/

/-- Settles O22: the size function, which a legal N keeps below 2^32. -/
theorem uboundResult : Obligations.UboundResult := by
  intro s hb
  refine ⟨if_pos hb, fun hn => ?_⟩
  rw [BitVec.toNat_ofNat]
  exact Nat.mod_eq_of_lt (by omega)

/-- Settles O23: no block is left. -/
theorem streamFinish : Obligations.StreamFinish := by
  intro i full s hv hb hstage hblk
  exact exec_of_no_block_left (streams_of_streamVariant hv) hb hstage hblk

/-! ### What a step of the engine runs (R160, R163) -/

theorem engineStep_of_fetch {s : State} {i : Instr} (h : fetch s = .run i) : engineStep s = exec i s := by
  simp only [engineStep, h]

theorem step_of_fetch {s : State} {i : Instr} (hturns : s.turns = []) (h : fetch s = .run i) : step s = exec i s :=
  (step_of_turns_nil hturns).trans (engineStep_of_fetch h)

section Fetch
variable {s : State} {i : Instr}

/-- A pending START runs the command in CMD (R160). -/
theorem fetch_start (hb : s.status ≠ .busy) (hs : s.start = true) (hi : decodeCmd s.cmd = .ok i) :
    fetch s = .run i := by
  simp only [fetch, hb, hs, fetchCommand, hi, if_true, if_false]

/-- A BUSY engine runs the command between two blocks and at the end of one (R163). -/
theorem fetch_command (hb : s.status = .busy) (hstage : s.stage = .boundary ∨ s.stage = .close)
    (hi : decodeCmd s.cmd = .ok i) : fetch s = .run i := by
  rcases hstage with hstage | hstage <;> simp only [fetch, hb, hstage, fetchCommand, hi, if_true]

/-- The header word of a decode job is read from the stream (R145). -/
theorem fetch_header_decode (hd : jobDirection s = some .decode) (hstage : s.stage = .header)
    (hok : s.srcOk s.headerOffset 4) : fetch s = .run (decodeHdr s.sourceHeader) := by
  have hb := busy_of_jobDirection (s := s) (by simp [hd])
  have hread : readHeader s = .ok s.sourceHeader := srcRead_ok_iff.2 ⟨hok, rfl⟩
  simp only [fetch, hb, hstage, fetchHeader, hd, hread, if_true]

/-- The header word of an encode job is the one it has made (R145). -/
theorem fetch_header_encode (hd : jobDirection s = some .encode) (hstage : s.stage = .header) :
    fetch s = .run (decodeHdr s.hdr) := by
  have hb := busy_of_jobDirection (s := s) (by simp [hd])
  simp only [fetch, hb, hstage, fetchHeader, hd, if_true]

/-- A lane's descriptor stands in the header word (R141). -/
theorem fetch_lane {k : Fin 8} (hd : jobDirection s ≠ none) (hstage : s.stage = .lane k) :
    fetch s = .run (laneOf (hdrTz s.hdr k) (hdrLz s.hdr k)) := by
  have hb := busy_of_jobDirection hd
  obtain ⟨d, hd⟩ := Option.ne_none_iff_exists'.1 hd
  simp only [fetch, hb, hstage, fetchLane, hd, if_true]

/-- A pending START whose CMD is no operation faults (R161). -/
theorem engineStep_illegal {e : DecodeError} (hb : s.status ≠ .busy) (hs : s.start = true)
    (he : decodeCmd s.cmd = .error e) : engineStep s = .next (s.rejected .illegalCmd) := by
  simp only [engineStep, fetch, hb, hs, fetchCommand, he, if_true, if_false]
  rfl

end Fetch

/-- Settles O40: what each place of the engine fetches, which its step then runs. -/
theorem stepRunsDecoded : Obligations.StepRunsDecoded := by
  intro s i hturns
  have hrun {j : Instr} (hf : fetch s = .run j) : step s = exec j s := step_of_fetch hturns hf
  refine ⟨?_, fun hb hs hi => hrun (fetch_start hb hs hi), fun hb hstage hi => hrun (fetch_command hb hstage hi),
    fun hd hstage hok hi => hi ▸ hrun (fetch_header_decode hd hstage hok),
    fun hd hstage hi => hi ▸ hrun (fetch_header_encode hd hstage),
    fun k hd hstage hi => hi ▸ hrun (fetch_lane hd hstage)⟩
  have hsame : ({ s with turns := [] } : State) = s := by rw [← hturns]
  calc step { s with turns := [.engine] }
    _ = engineStep { s with turns := [] } := rfl
    _ = step s := by rw [hsame, step_of_turns_nil hturns]

/-! ### Command words that are no operation (R70, R79) -/

/-- A reserved bit is worth 8 or more, and OPC 5 to 7 is above 4. -/
theorem decodeCmd_error_of_fields {w : Word} (h : w.extractLsb' 3 29 ≠ 0 ∨ 4 < (w.extractLsb' 0 3).toNat) :
    ∃ e, decodeCmd w = .error e := by
  refine decodeCmd_error_of_gt ?_
  rcases h with h | h
  · have hne : (w.extractLsb' 3 29).toNat ≠ 0 := fun h0 => h (BitVec.eq_of_toNat_eq h0)
    rw [BitVec.extractLsb'_toNat, Nat.shiftRight_eq_div_pow] at hne
    omega
  · rw [BitVec.extractLsb'_toNat, Nat.shiftRight_eq_div_pow] at h
    omega

/-- Settles O20: the start step fetches no operation. -/
theorem illegalCommandFaults : Obligations.IllegalCommandFaults := by
  intro s hturns hb hs hcmd
  obtain ⟨e, he⟩ := decodeCmd_error_of_fields hcmd
  rw [step_of_turns_nil hturns, engineStep_illegal hb hs he]

/-! ### The write of CTRL.START (R160) -/

/-- The write sets START, and the engine's step follows in the same turn. -/
theorem takeTurn_startWrite {s : State} {v : Word} (hb : s.status ≠ .busy) (hv : v.getLsbD 0 = true) :
    takeTurn (.regWrite 0x00 4 v) s = engineStep { s with start := true } := by
  have hput : putRegister 0x00 v s = { s with start := true } := by simp only [putRegister, hv, if_true]
  have hwrite : hostWrite 0x00 4 v s = .next { s with start := true } := by
    rw [hostWrite, if_neg (by simp [accessDefined_iff.2]), if_neg hb, hput]
  have hasked : startAsked 0x00 v = true := startAsked_iff.2 ⟨rfl, hv⟩
  simp only [takeTurn, hwrite]
  exact if_pos ⟨hb, hasked⟩

/-- Settles O49: the step that follows the write runs the operation in CMD, or finds none. -/
theorem startWriteStartsAtOnce : Obligations.StartWriteStartsAtOnce := by
  intro s v rest hb hv hturns
  have hstep : step s = engineStep { s with turns := rest, start := true } :=
    (step_of_turns_cons hturns).trans (takeTurn_startWrite (s := { s with turns := rest }) hb hv)
  refine ⟨fun i hi => ?_, fun hcmd => ?_⟩
  · exact hstep.trans (engineStep_of_fetch (fetch_start (s := { s with turns := rest, start := true }) hb rfl hi))
  · obtain ⟨e, he⟩ := decodeCmd_error_of_fields hcmd
    exact hstep.trans (engineStep_illegal (s := { s with turns := rest, start := true }) hb rfl he)

end Sys2Proof.Machine
end

section
/-! The block steps that complete (43_jobs.md R164, R165, R176): where no access is refused, the whole next state; in
every case, what they leave as it was (20_memory.md R56, R167). -/

namespace Sys2Proof.Machine

/-! ### The next state (R164, R165) -/

/-- Settles O24: the step completes, and has written what `encb` yields. -/
theorem encodeBlockStep : Obligations.EncodeBlockStep := by
  intro i full s hv hs hvals hhdr e hpay
  obtain ⟨t, ht⟩ := encodeBlock_complete (full := full) hvals hhdr hpay
  have hexec := exec_encode_atBlock hv hs
  obtain ⟨-, hstage, -⟩ := hs
  rw [hexec, ht, encodeBlock_ok ht, ← hstage]
  rfl

/-- Settles O25: the step completes, and has written what `decb` yields. -/
theorem decodeBlockStep : Obligations.DecodeBlockStep := by
  intro i full s hv hs hhdr hpay hvals e
  obtain ⟨t, ht⟩ := decodeBlock_complete (full := full) hhdr hpay hvals
  have hexec := exec_decode_atBlock hv hs
  obtain ⟨-, hstage, -⟩ := hs
  rw [hexec, ht, decodeBlock_ok ht, ← hstage]
  rfl

/-! ### The frame (R56, R167) -/

/-- A part of a step after which the engine is not in ERR has completed (R206). -/
theorem completed_of_busy {s t : State} {r : Except Stop State} (h : settle s r = .next t) (hb : t.status = .busy) :
    r = .ok t := by
  rcases settle_next h with hok | ⟨c, a, -, rfl⟩
  · exact hok
  · cases hb

theorem encodeBlock_of_exec {i : Instr} {full : Bool} {s t : State} (hv : encodeVariant i = some full)
    (hs : s.atBlock) (h : exec i s = .next t) (hb : t.status = .busy) : encodeBlock full s = .ok t :=
  completed_of_busy (exec_encode_atBlock hv hs ▸ h) hb

theorem decodeBlock_of_exec {i : Instr} {full : Bool} {s t : State} (hv : decodeVariant i = some full)
    (hs : s.atBlock) (h : exec i s = .next t) (hb : t.status = .busy) : decodeBlock full s = .ok t :=
  completed_of_busy (exec_decode_atBlock hv hs ▸ h) hb

/-- The real lanes' words are 4 bytes each (R167). -/
theorem length_valueBytes (s : State) (v : Lanes Word) : (s.valueBytes v).length = 4 * s.realLanes := by
  rw [State.valueBytes, length_flatMap_leBytes, List.length_take, Vector.length_toList,
    Nat.min_eq_left (realLanes_le s)]

/-- Settles O26: the header word's write and the payload's are the only ones, and the quick variant keeps its table. -/
theorem encodeBlockFrame : Obligations.EncodeBlockFrame := by
  intro i full s t hv hs h hb
  have ht := encodeBlock_ok (encodeBlock_of_exec hv hs h hb)
  obtain ⟨-, hstage, -⟩ := hs
  subst ht
  refine ⟨by simp only [hstage], ?_, fun a hhdr hpay => ?_⟩
  · rintro rfl
    rfl
  · exact (Memory.readByte_writeBytes_outside hpay).trans (Memory.readByte_write_outside hhdr)

/-- Settles O27: the real lanes' words are the only bytes written, and the quick variant keeps its table. -/
theorem decodeBlockFrame : Obligations.DecodeBlockFrame := by
  intro i full s t hv hs h hb
  have ht := decodeBlock_ok (decodeBlock_of_exec hv hs h hb)
  obtain ⟨-, hstage, -⟩ := hs
  subst ht
  refine ⟨by simp only [hstage], ?_, fun a ha => ?_⟩
  · rintro rfl
    rfl
  · exact Memory.readByte_writeBytes_outside (by rwa [length_valueBytes])

end Sys2Proof.Machine
end

section
/-! A block step is its header word, its eight lane descriptors and its end, run one at a time (43_jobs.md R164, R165;
the granularity is log entry 6). -/

namespace Sys2Proof.Machine

/-! ### Eight lane rows -/

/-- The state at another place of its block step. -/
def State.atStage (g : Stage) (s : State) : State := { s with stage := g }

/-- A header move does not depend on where the engine stands, and neither do the lanes and the value writes. -/
theorem putHeader_at {h : Word} {s t : State} (hput : putHeader h s = .ok t) (g : Stage) :
    putHeader h (s.atStage g) = .ok (t.atStage g) := by
  obtain ⟨hok, rfl⟩ := putHeader_ok_iff.1 hput
  exact putHeader_ok_iff.2 ⟨hok, rfl⟩

theorem marshalLane_at {w : Nat} {sig : Word} {s t : State} (h : marshalLane w sig s = .ok t) (g : Stage) :
    marshalLane w sig (s.atStage g) = .ok (t.atStage g) := by
  obtain ⟨hok, rfl⟩ := marshalLane_ok_iff.1 h
  exact marshalLane_ok_iff.2 ⟨hok, rfl⟩

theorem unmarshalLane_at {k : Fin 8} {w : Nat} {tz : BitVec 2} {s t : State} (h : unmarshalLane k w tz s = .ok t)
    (g : Stage) : unmarshalLane k w tz (s.atStage g) = .ok (t.atStage g) := by
  obtain ⟨hok, rfl⟩ := unmarshalLane_ok_iff.1 h
  exact unmarshalLane_ok_iff.2 ⟨hok, rfl⟩

theorem writeValue_at {s t u : State} {v : Lanes Word} {k : Fin 8} (h : writeValue s v t k = .ok u) (g : Stage) :
    writeValue s v (t.atStage g) k = .ok (u.atStage g) := by
  unfold writeValue at h ⊢
  split at h
  · obtain ⟨hok, rfl⟩ := dstWrite_ok_iff.1 h
    rw [if_pos ‹_›]
    exact dstWrite_ok_iff.2 ⟨hok, rfl⟩
  · cases h
    rw [if_neg ‹_›]

theorem writeValueList_at {s t u : State} {v : Lanes Word} {l : List (Fin 8)}
    (h : l.foldlM (writeValue s v) t = .ok u) (g : Stage) :
    l.foldlM (writeValue s v) (t.atStage g) = .ok (u.atStage g) := by
  induction l generalizing t with
  | nil =>
    cases h
    rfl
  | cons x l ih =>
    obtain ⟨t', hx, hl⟩ := foldlM_cons_ok.1 h
    exact foldlM_cons_ok.2 ⟨t'.atStage g, writeValue_at hx g, ih hl⟩

theorem finishDecode_at {full : Bool} {s t : State} (h : finishDecode full s = .ok t) (g : Stage) :
    finishDecode full (s.atStage g) = .ok t := by
  obtain ⟨u, hwrite, hend⟩ := bind_ok h
  cases hend
  exact bind_of_ok (writeValueList_at hwrite g) _

/-- Where the engine stands with `n` lanes done. -/
def stageAfter (n : Nat) : Stage := if h : n < 8 then .lane ⟨n, h⟩ else .close

theorem stageAfter_lane (k : Fin 8) : stageAfter k = .lane k := dif_pos k.isLt

/-- Each lane that `f` does, where `P` holds, is done by the engine's step at that lane, and `P` holds again. -/
def RowsDo (f : State → Fin 8 → Except Stop State) (P : State → Prop) : Prop :=
  ∀ k c c', P c → f c k = .ok c' → P c' ∧ step (c.atStage (.lane k)) = .next (c'.atStage (afterLane k))

/-- Lanes that are each done by their row are done one after the other by their rows. -/
theorem run_laneRows {f : State → Fin 8 → Except Stop State} {P : State → Prop}
    (hrow : RowsDo f P) {n : Nat} (hn : n ≤ 8) {c u : State} (hc : P c) (h : (laneOrder.take n).foldlM f c = .ok u) :
    P u ∧ core.run n (c.atStage (.lane 0)) = .next (u.atStage (stageAfter n)) := by
  induction n generalizing u with
  | zero =>
    cases h
    exact ⟨hc, rfl⟩
  | succ n ih =>
    rw [take_succ_laneOrder ⟨n, hn⟩, List.foldlM_append] at h
    obtain ⟨d, hd, hlast⟩ := bind_ok h
    obtain ⟨u', hu, hend⟩ := foldlM_cons_ok.1 hlast
    cases hend
    obtain ⟨hPd, hrun⟩ := ih (by omega) hd
    obtain ⟨hPu, hstep⟩ := hrow ⟨n, hn⟩ d u hPd hu
    refine ⟨hPu, ?_⟩
    rw [← stageAfter_lane] at hstep
    rw [run_add (M := core) hrun 1]
    exact run_succ (M := core) hstep 0

/-- A header row, the lanes' rows and the end are ten steps. -/
theorem run_block_rows {f : State → Fin 8 → Except Stop State} {P : State → Prop} {s c u t : State}
    (hheader : step s = .next (c.atStage (.lane 0))) (hrow : RowsDo f P) (hc : P c)
    (hlanes : laneOrder.foldlM f c = .ok u) (hend : P u → step (u.atStage .close) = .next t) :
    core.run 10 s = .next t := by
  obtain ⟨hu, hrun⟩ := run_laneRows hrow (Nat.le_refl 8) hc hlanes
  calc core.run 10 s
    _ = core.run (8 + 1) (c.atStage (.lane 0)) := run_succ (M := core) hheader 9
    _ = core.run 1 (u.atStage .close) := run_add (M := core) hrun 1
    _ = .next t := run_succ (M := core) (hend hu) 0

/-- The end of a block runs the command again (R163). -/
theorem step_close {i : Instr} {s c : State} (hf : EngineFrame s c) (hturns : s.turns = [])
    (hb : s.status = .busy) (hcmd : decodeCmd s.cmd = .ok i) : step (c.atStage .close) = exec i (c.atStage .close) := by
  have hcmd' : decodeCmd (c.atStage .close).cmd = .ok i := (congrArg decodeCmd hf.cmd).trans hcmd
  exact step_of_fetch (hf.turns.trans hturns) (fetch_command (hf.status.trans hb) (.inr rfl) hcmd')

theorem stepEncode_close (full : Bool) {s : State} (hb : s.status = .busy) (hstage : s.stage = .close) :
    stepEncode full s = .next (finishEncode full s) := by
  rw [stepEncode, if_pos hb, if_pos hstage]

theorem stepDecode_close (full : Bool) {s : State} (hb : s.status = .busy) (hstage : s.stage = .close) :
    stepDecode full s = settle s (finishDecode full s) := by
  rw [stepDecode, if_pos hb, if_pos hstage]

/-! ### The rows of a decode block (R143, R145) -/

/-- In `c` a decode job that met its block in `s` has the block's header word at hand. -/
structure DecodesRows (s : State) (h : Word) (c : State) : Prop where
  frame : EngineFrame s c
  hdr : c.hdr = h

theorem step_header_decode {s : State} (hturns : s.turns = []) (hd : jobDirection s = some .decode)
    (hok : s.srcOk s.headerOffset 4) :
    step (s.atStage .header) = .next (State.atStage (.lane 0) { s with hdr := s.sourceHeader }) := by
  have hf := fetch_header_decode (s := s.atStage .header) hd rfl hok
  rw [step_of_fetch (s := s.atStage .header) hturns hf, decodeHdr, exec_blkhdr_decode _ _ (s := s.atStage .header) hd,
    packHdr_fields]
  rfl

theorem decode_rowsDo {s : State} (h : Word) (hturns : s.turns = []) (hd : jobDirection s = some .decode) :
    RowsDo (unmarshalField h) (DecodesRows s h) := by
  intro k c c' hc hlane
  have hrow : unmarshalLane k (width (hdrLz h k)) (hdrTz h k) c = .ok c' := hlane
  have hframe := (unmarshalLane_keepsFrame _ _ _ c).frame c' hrow
  have hkept : c'.hdr = c.hdr := by
    obtain ⟨-, rfl⟩ := unmarshalLane_ok_iff.1 hrow
    rfl
  refine ⟨⟨hc.frame.trans hframe, hkept.trans hc.hdr⟩, ?_⟩
  have hdir : jobDirection (c.atStage (.lane k)) = some .decode := hc.frame.jobDirection_eq.trans hd
  have hf := fetch_lane (s := c.atStage (.lane k)) (k := k) (by simp [hdir]) rfl
  have hhdr : (c.atStage (.lane k)).hdr = h := hc.hdr
  rw [step_of_fetch (s := c.atStage (.lane k)) (hc.frame.turns.trans hturns) hf, exec_laneOf, stepLane_decode hdir rfl,
    hhdr, unmarshalLane_at hrow]
  rfl

/-- Settles O42: the rows are the header move, the eight lanes of the payload, and the value writes with the end. -/
theorem decodeBlockIsItsRows : Obligations.DecodeBlockIsItsRows := by
  intro i full s t hv hs hturns hcmd h hb
  have hdec := decodeBlock_of_exec hv hs h hb
  obtain ⟨hbusy, -, -⟩ := hs
  have hd := jobDirection_of_decode hbusy hcmd hv
  obtain ⟨w, hread, hrest⟩ := bind_ok hdec
  obtain ⟨hok, rfl⟩ := readHeader_ok hread
  obtain ⟨u, hlanes, hend⟩ := bind_ok hrest
  refine run_block_rows (step_header_decode hturns hd hok) (decode_rowsDo _ hturns hd)
    ⟨.of_mem_eq rfl rfl, rfl⟩ hlanes fun hu => ?_
  rw [step_close hu.frame hturns hbusy hcmd, exec_of_decode hv,
    stepDecode_close full (s := u.atStage .close) (hu.frame.status.trans hbusy) rfl, finishDecode_at hend]
  rfl

/-! ### The rows of an encode block (R142, R145) -/

/-- In `c` an encode job that met its block in `s` has the block's residuals and its header word at hand. -/
structure EncodesRows (s : State) (r : Lanes Word) (c : State) : Prop where
  frame : EngineFrame s c
  hdr : c.hdr = headerOf r
  resid : c.resid = r
  pred : c.pred = s.pred

theorem step_header_encode {s c : State} (hturns : s.turns = []) (hd : jobDirection s = some .encode)
    (hput : putHeader s.hdr s = .ok c) : step (s.atStage .header) = .next (c.atStage (.lane 0)) := by
  have hf := fetch_header_encode (s := s.atStage .header) hd rfl
  have hhdr : (s.atStage .header).hdr = s.hdr := rfl
  rw [step_of_fetch (s := s.atStage .header) hturns hf, decodeHdr, exec_blkhdr_encode _ _ (s := s.atStage .header) hd,
    packHdr_fields, hhdr, putHeader_at hput]
  rfl

theorem encode_rowsDo {s : State} (r : Lanes Word) (hturns : s.turns = []) (hd : jobDirection s = some .encode) :
    RowsDo (marshalResidual r) (EncodesRows s r) := by
  intro k c c' hc hlane
  have hwidth : (strip r[k]).width = width (hdrLz (headerOf r) k) := (laneWidth_headerOf r k).symm
  have hsig : (strip r[k]).sig = r[k] >>> (8 * (hdrTz (headerOf r) k).toNat) := by
    rw [hdrTz_headerOf, toNat_tz_strip]
    rfl
  rw [marshalResidual, hwidth, hsig] at hlane
  have hframe := (marshalLane_keepsFrame _ _ c).frame c' hlane
  have hkept : c'.hdr = c.hdr ∧ c'.resid = c.resid ∧ c'.pred = c.pred := by
    obtain ⟨-, rfl⟩ := marshalLane_ok_iff.1 hlane
    exact ⟨rfl, rfl, rfl⟩
  obtain ⟨hkhdr, hkresid, hkpred⟩ := hkept
  refine ⟨⟨hc.frame.trans hframe, hkhdr.trans hc.hdr, hkresid.trans hc.resid, hkpred.trans hc.pred⟩, ?_⟩
  have hdir : jobDirection (c.atStage (.lane k)) = some .encode := hc.frame.jobDirection_eq.trans hd
  have hf := fetch_lane (s := c.atStage (.lane k)) (k := k) (by simp [hdir]) rfl
  have hhdr : (c.atStage (.lane k)).hdr = headerOf r := hc.hdr
  have hresid : (c.atStage (.lane k)).resid = r := hc.resid
  rw [step_of_fetch (s := c.atStage (.lane k)) (hc.frame.turns.trans hturns) hf, exec_laneOf, stepLane_encode hdir rfl,
    hhdr, hresid, marshalLane_at hlane]
  rfl

/-- The end of an encode block recovers the values and the deltas from the residuals (R101, R104). -/
theorem finishEncode_of_resid {full : Bool} {s : State} {v : Lanes Word}
    (h : s.resid = Predictor.residuals full s.pred (s.pred.deltas v)) :
    finishEncode full s = closeBlock full v (s.pred.deltas v) s := by
  rw [finishEncode, h]
  simp only [Predictor.unresiduals_residuals, Predictor.values_deltas]

/-- Settles O43: the rows are the header move, the eight lanes of the payload, and the end. -/
theorem encodeBlockIsItsRows : Obligations.EncodeBlockIsItsRows := by
  intro i full s t hv hs hturns hcmd h hb
  have henc := encodeBlock_of_exec hv hs h hb
  obtain ⟨hbusy, -, -⟩ := hs
  have hd := jobDirection_of_encode hbusy hcmd hv
  obtain ⟨⟨v, o⟩, hopen, hrest⟩ := bind_ok henc
  obtain ⟨rfl, rfl⟩ := openEncode_ok hopen
  obtain ⟨c, hput, hrest⟩ := bind_ok hrest
  obtain ⟨u, hlanes, hend⟩ := bind_ok hrest
  cases hend
  have hc : EncodesRows s (Predictor.residuals full s.pred (s.pred.deltas s.sourceBlock)) c := by
    have hframe := (openedBlock_frame full s).trans ((putHeader_keepsFrame _ _).frame _ hput)
    obtain ⟨-, rfl⟩ := putHeader_ok_iff.1 hput
    exact ⟨hframe, rfl, rfl, rfl⟩
  rw [hc.resid] at hlanes
  refine run_block_rows (s := (openedBlock full s).atStage .header) (step_header_encode hturns hd hput)
    (encode_rowsDo _ hturns hd) hc hlanes fun hu => ?_
  have hpred : (u.atStage .close).pred = s.pred := hu.pred
  have hresid : (u.atStage .close).resid =
      Predictor.residuals full (u.atStage .close).pred ((u.atStage .close).pred.deltas s.sourceBlock) := by
    rw [hpred]
    exact hu.resid
  rw [step_close hu.frame hturns hbusy hcmd, exec_of_encode hv,
    stepEncode_close full (s := u.atStage .close) (hu.frame.status.trans hbusy) rfl, finishEncode_of_resid hresid,
    hpred]
  rfl

end Sys2Proof.Machine
end

section
/-! No step of a state that meets the invariant names an address that does not exist (20_memory.md R50, R53, 43_jobs.md
R161), and so every streaming job ends (R163, R250). -/

namespace Sys2Proof.Machine

/-! ### Accesses within the address space (R50, R161) -/

/-- A part of a step that, where it stops short, does so with a fault of the spec and not past the address space. -/
def StaysInSpace {α : Type} (r : Except Stop α) : Prop := ∀ a, r ≠ .error (.outside a)

theorem staysInSpace_ok {α : Type} (x : α) : StaysInSpace (.ok x) := fun _ h => nomatch h

theorem staysInSpace_bind {α β : Type} {x : Except Stop α} {f : α → Except Stop β} (hx : StaysInSpace x)
    (hf : ∀ y, x = .ok y → StaysInSpace (f y)) : StaysInSpace (x >>= f) := by
  cases x with
  | ok y => exact hf y rfl
  | error e =>
    rintro a h
    cases h
    exact hx a rfl

/-- An access inside a window that lies in the address space lies there too (R53, R54). -/
theorem srcRead_staysInSpace {s : State} (hfits : s.windowOverflows = false) (off n : Nat) :
    StaysInSpace (srcRead s off n) := by
  intro a h
  obtain ⟨hsrc, -⟩ := windowOverflows_eq_false_iff.1 hfits
  obtain ⟨-, ⟨-, hraised⟩ | ⟨-, -, hraised⟩ | ⟨hin, -, hout, -⟩⟩ := srcRead_error_iff.1 h
  · cases hraised
  · cases hraised
  · omega

theorem dstWrite_staysInSpace {s : State} (hfits : s.windowOverflows = false) (off n : Nat) (v : Word) :
    StaysInSpace (dstWrite s off n v) := by
  intro a h
  obtain ⟨-, hdst⟩ := windowOverflows_eq_false_iff.1 hfits
  obtain ⟨-, ⟨-, hraised⟩ | ⟨-, -, hraised⟩ | ⟨hin, -, hout, -⟩⟩ := dstWrite_error_iff.1 h
  · cases hraised
  · cases hraised
  · omega

theorem putHeader_staysInSpace {s : State} (hfits : s.windowOverflows = false) (h : Word) :
    StaysInSpace (putHeader h s) :=
  fun a he => dstWrite_staysInSpace hfits _ _ _ a (putHeader_error_iff.1 he)

theorem marshalLane_staysInSpace {s : State} (hfits : s.windowOverflows = false) (w : Nat) (sig : Word) :
    StaysInSpace (marshalLane w sig s) :=
  fun a he => dstWrite_staysInSpace hfits _ _ _ a (marshalLane_error_iff.1 he)

theorem unmarshalLane_staysInSpace {s : State} (hfits : s.windowOverflows = false) (k : Fin 8) (w : Nat)
    (tz : BitVec 2) : StaysInSpace (unmarshalLane k w tz s) :=
  fun a he => srcRead_staysInSpace hfits _ _ a (unmarshalLane_error_iff.1 he)

theorem thenStage_staysInSpace {r : Except Stop State} (h : StaysInSpace r) (g : Stage) :
    StaysInSpace (thenStage g r) :=
  fun a he => h a (thenStage_error he)

theorem readValue_staysInSpace {s : State} (hfits : s.windowOverflows = false) (v : Lanes Word) (k : Fin 8) :
    StaysInSpace (readValue s v k) := by
  intro a h
  unfold readValue at h
  split at h
  · split at h
    · cases h
    · rename_i he
      cases h
      exact srcRead_staysInSpace hfits _ _ a he
  · cases h

theorem writeValue_staysInSpace {t : State} (hfits : t.windowOverflows = false) (s : State) (v : Lanes Word)
    (k : Fin 8) : StaysInSpace (writeValue s v t k) := by
  unfold writeValue
  split
  · exact dstWrite_staysInSpace hfits _ _ _
  · exact staysInSpace_ok t

/-- Several parts one after the other, where a property that each keeps holds each of them in the address space. -/
theorem staysInSpace_foldlM {α β : Type} {f : β → α → Except Stop β} {P : β → Prop}
    (hkeep : ∀ b x c, P b → f b x = .ok c → P c) (hf : ∀ b x, P b → StaysInSpace (f b x)) {l : List α}
    {b : β} (hb : P b) : StaysInSpace (l.foldlM f b) := by
  induction l generalizing b with
  | nil => exact staysInSpace_ok b
  | cons x l ih =>
    rw [List.foldlM_cons]
    exact staysInSpace_bind (hf b x hb) fun c hc => ih (hkeep b x c hb hc)

/-- Engine parts leave the windows where they are. -/
theorem staysInSpace_engineFold {f : State → Fin 8 → Except Stop State} (hframe : ∀ t k, KeepsFrame t (f t k))
    (hf : ∀ t k, t.windowOverflows = false → StaysInSpace (f t k)) {l : List (Fin 8)} {s : State}
    (hfits : s.windowOverflows = false) : StaysInSpace (l.foldlM f s) :=
  staysInSpace_foldlM (P := fun t => t.windowOverflows = false)
    (fun t k _ ht hu => ((hframe t k).frame _ hu).windowOverflows.trans ht) hf hfits

/-! ### The block steps -/

theorem openEncode_staysInSpace {full : Bool} {s : State} (hfits : s.windowOverflows = false) :
    StaysInSpace (openEncode full s) := by
  have hread : StaysInSpace (readValues s) :=
    staysInSpace_foldlM (P := fun _ => True) (fun _ _ _ _ _ => trivial) (fun v k _ => readValue_staysInSpace hfits v k)
      trivial
  intro a h
  unfold openEncode at h
  split at h
  · cases h
  · rename_i he
    cases h
    exact hread a he

theorem encodeBlock_staysInSpace (full : Bool) {s : State} (hfits : s.windowOverflows = false) :
    StaysInSpace (encodeBlock full s) := by
  refine staysInSpace_bind (openEncode_staysInSpace hfits) fun ⟨v, t⟩ hopen => ?_
  have ht := (openEncode_frame hopen).windowOverflows.trans hfits
  refine staysInSpace_bind (putHeader_staysInSpace ht _) fun u hu => ?_
  have hu' := ((putHeader_keepsFrame _ t).frame u hu).windowOverflows.trans ht
  exact staysInSpace_bind (staysInSpace_engineFold (fun t k => marshalLane_keepsFrame _ _ t)
    (fun t k ht => marshalLane_staysInSpace ht _ _) hu') fun u _ => staysInSpace_ok _

theorem finishDecode_staysInSpace (full : Bool) {s : State} (hfits : s.windowOverflows = false) :
    StaysInSpace (finishDecode full s) :=
  staysInSpace_bind (staysInSpace_engineFold (writeValue_keepsFrame s _)
    (fun _ k ht => writeValue_staysInSpace ht s _ k) hfits) fun _ _ => staysInSpace_ok _

theorem decodeBlock_staysInSpace (full : Bool) {s : State} (hfits : s.windowOverflows = false) :
    StaysInSpace (decodeBlock full s) := by
  refine staysInSpace_bind (srcRead_staysInSpace hfits _ _) fun h _ => ?_
  have hframe : EngineFrame s { s with hdr := h } := .of_mem_eq rfl rfl
  have hkeeps : KeepsFrame { s with hdr := h } (unmarshalBlock h { s with hdr := h }) :=
    keepsFrame_foldlM (fun t k => unmarshalLane_keepsFrame _ _ _ t) _ _
  refine staysInSpace_bind (staysInSpace_engineFold (fun t k => unmarshalLane_keepsFrame _ _ _ t)
    (fun t k ht => unmarshalLane_staysInSpace ht _ _ _) (hframe.windowOverflows.trans hfits)) fun u hu => ?_
  exact finishDecode_staysInSpace full ((hframe.trans (hkeeps.frame u hu)).windowOverflows.trans hfits)

/-! ### Safe steps -/

/-- A part of a step that stays in the address space has a next state: its own, or that of the fault it raises. -/
theorem settle_next_of_staysInSpace {s : State} {r : Except Stop State} (h : StaysInSpace r) :
    ∃ t, settle s r = .next t ∧ (r = .ok t ∨ t.status = .err) := by
  cases r with
  | ok t => exact ⟨t, rfl, .inl rfl⟩
  | error e =>
    cases e with
    | raised c a => exact ⟨raiseInBlock c a s, rfl, .inr rfl⟩
    | outside a => exact absurd rfl (h a)

theorem settle_safe {s : State} {r : Except Stop State} (h : StaysInSpace r) : safeOutcome (settle s r) = true := by
  obtain ⟨t, ht, -⟩ := settle_next_of_staysInSpace (s := s) h
  rw [ht]
  rfl

theorem startStream_safe (s : State) : safeOutcome (startStream s) = true := by
  unfold startStream
  repeat' split
  all_goals rfl

theorem startUbound_safe (s : State) : safeOutcome (startUbound s) = true := by
  unfold startUbound
  split <;> rfl

theorem execUbound_safe (s : State) : safeOutcome (execUbound s) = true := by
  unfold execUbound
  split
  · rfl
  · exact startUbound_safe s

section Fits
variable {s : State}

theorem stepEncode_safe (full : Bool) (hfits : s.windowOverflows = false) :
    safeOutcome (stepEncode full s) = true := by
  unfold stepEncode
  split
  · split
    · rfl
    split
    · exact settle_safe (encodeBlock_staysInSpace full hfits)
    · rfl
  · exact startStream_safe s

theorem stepDecode_safe (full : Bool) (hfits : s.windowOverflows = false) :
    safeOutcome (stepDecode full s) = true := by
  unfold stepDecode
  split
  · split
    · exact settle_safe (finishDecode_staysInSpace full hfits)
    split
    · exact settle_safe (decodeBlock_staysInSpace full hfits)
    · rfl
  · exact startStream_safe s

theorem stepLane_safe (w : Nat) (tz : BitVec 2) (hfits : s.windowOverflows = false) :
    safeOutcome (stepLane w tz s) = true := by
  unfold stepLane
  split
  · exact settle_safe (thenStage_staysInSpace (marshalLane_staysInSpace hfits _ _) _)
  · exact settle_safe (thenStage_staysInSpace (unmarshalLane_staysInSpace hfits _ _ _) _)
  · rfl

theorem execBlkhdr_safe (lz tz : Lanes (BitVec 2)) (hfits : s.windowOverflows = false) :
    safeOutcome (execBlkhdr lz tz s) = true := by
  unfold execBlkhdr
  split
  · exact settle_safe (thenStage_staysInSpace (putHeader_staysInSpace hfits _) _)
  · rfl
  · rfl

/-- Whatever the instruction, its accesses lie in the windows. -/
theorem exec_safe (i : Instr) (hfits : s.windowOverflows = false) : safeOutcome (exec i s) = true := by
  cases i with
  | enc => exact stepEncode_safe true hfits
  | dec => exact stepDecode_safe true hfits
  | encq => exact stepEncode_safe false hfits
  | decq => exact stepDecode_safe false hfits
  | ubound => exact execUbound_safe s
  | blkhdr lz tz => exact execBlkhdr_safe lz tz hfits
  | laneW4 tz => exact stepLane_safe 4 tz hfits
  | laneW3 tz => exact stepLane_safe 3 tz hfits
  | laneW2 tz => exact stepLane_safe 2 tz hfits
  | laneW0 tz => exact stepLane_safe 0 tz hfits

theorem fetchCommand_ne_stopped {bad : Fetched} {e : Stop} (hbad : bad ≠ .stopped e) :
    fetchCommand s bad ≠ .stopped e := by
  unfold fetchCommand
  split
  · exact nofun
  · exact hbad

theorem fetchLane_ne_stopped (k : Fin 8) (e : Stop) : fetchLane s k ≠ .stopped e := by
  unfold fetchLane
  split
  · exact nofun
  · exact fetchCommand_ne_stopped nofun

theorem readHeader_of_fetchHeader_stopped {e : Stop} (h : fetchHeader s = .stopped e) : readHeader s = .error e := by
  unfold fetchHeader at h
  split at h
  · cases h
  · split at h
    · cases h
    · cases h
      assumption
  · exact absurd h (fetchCommand_ne_stopped nofun)

/-- What stops a fetch is the read of a header word (R145). -/
theorem readHeader_of_fetch_stopped {e : Stop} (h : fetch s = .stopped e) : readHeader s = .error e := by
  unfold fetch at h
  split at h
  · cases hstage : s.stage with
    | header => exact readHeader_of_fetchHeader_stopped (by rwa [hstage] at h)
    | lane k => exact absurd (by rwa [hstage] at h) (fetchLane_ne_stopped k e)
    | boundary => exact absurd (by rwa [hstage] at h) (fetchCommand_ne_stopped (bad := .lost) nofun)
    | close => exact absurd (by rwa [hstage] at h) (fetchCommand_ne_stopped (bad := .lost) nofun)
  · split at h
    · exact absurd h (fetchCommand_ne_stopped nofun)
    · cases h

theorem engineStep_safe_of_fits (hfits : s.windowOverflows = false) : safeOutcome (engineStep s) = true := by
  cases hf : fetch s with
  | nothing | illegal | lost =>
    simp only [engineStep, hf]
    rfl
  | run i =>
    rw [engineStep_of_fetch hf]
    exact exec_safe i hfits
  | stopped e =>
    have hread : StaysInSpace (readHeader s) := srcRead_staysInSpace hfits _ _
    rw [readHeader_of_fetch_stopped hf] at hread
    simp only [engineStep, hf]
    exact settle_safe fun a he => hread a (by cases he; rfl)

end Fits

/-! ### Without a running streaming job (R174, R224) -/

theorem jobDirection_of_not_busy {s : State} (hb : s.status ≠ .busy) : jobDirection s = none := by
  simp [jobDirection, hb]

/-- The command starts a job, or it is UBOUND: it makes no access. -/
theorem exec_safe_of_no_streaming {s : State} {i : Instr} (hd : jobDirection s = none)
    (hi : decodeCmd s.cmd = .ok i) : safeOutcome (exec i s) = true := by
  rcases decodeCmd_ok hi with ⟨full, hv⟩ | ⟨full, hv⟩ | ⟨rfl, -⟩
  · have hb : s.status ≠ .busy := fun hb => by simp [jobDirection_of_encode hb hi hv] at hd
    rw [exec_of_not_busy ⟨full, .inl hv⟩ hb]
    exact startStream_safe s
  · have hb : s.status ≠ .busy := fun hb => by simp [jobDirection_of_decode hb hi hv] at hd
    rw [exec_of_not_busy ⟨full, .inr hv⟩ hb]
    exact startStream_safe s
  · exact execUbound_safe s

theorem fetch_cases_of_no_streaming {s : State} (hd : jobDirection s = none) :
    fetch s = .nothing ∨ fetch s = fetchCommand s .illegal ∨ fetch s = fetchCommand s .lost := by
  by_cases hb : s.status = .busy
  · exact .inr (.inr (fetch_of_no_streaming hb hd))
  · cases hs : s.start with
    | false => exact .inl (by simp [fetch, hb, hs])
    | true => exact .inr (.inl (by simp [fetch, hb, hs]))

theorem engineStep_safe_of_no_streaming {s : State} (hd : jobDirection s = none) :
    safeOutcome (engineStep s) = true := by
  rcases fetch_cases_of_no_streaming hd with hf | hf | hf
  · simp only [engineStep, hf]
    rfl
  all_goals
    cases hi : decodeCmd s.cmd with
    | ok i =>
      simp only [fetchCommand, hi] at hf
      rw [engineStep_of_fetch hf]
      exact exec_safe_of_no_streaming hd hi
    | error e =>
      simp only [engineStep, hf, fetchCommand, hi]
      rfl

/-! ### Every turn -/

theorem windows_fit {s : State} (hi : s.Inv) (hd : jobDirection s ≠ none) : s.windowOverflows = false := by
  obtain ⟨-, -, -, hrun⟩ := hi
  obtain ⟨-, -, -, hstream⟩ := hrun (busy_of_jobDirection hd)
  exact (hstream hd).1

theorem engineStep_safe {s : State} (hi : s.Inv) : safeOutcome (engineStep s) = true := by
  by_cases hd : jobDirection s = none
  · exact engineStep_safe_of_no_streaming hd
  · exact engineStep_safe_of_fits (windows_fit hi hd)

theorem hostWrite_safe (offset size : Nat) (v : Word) (s : State) :
    safeOutcome (hostWrite offset size v s) = true := by
  unfold hostWrite
  repeat' split
  all_goals rfl

/-- A register write starts only an engine that is not BUSY (R36). -/
theorem regWrite_safe (offset size : Nat) (v : Word) (s : State) :
    safeOutcome (takeTurn (.regWrite offset size v) s) = true := by
  cases hw : hostWrite offset size v s with
  | fault r =>
    have hsafe := hostWrite_safe offset size v s
    rw [hw] at hsafe
    cases hsafe
  | refused r =>
    simp only [takeTurn, hw]
    rfl
  | next u =>
    simp only [takeTurn, hw]
    split
    · rename_i hstart
      exact engineStep_safe_of_no_streaming (jobDirection_of_not_busy hstart.1)
    · rfl

theorem hostRead_safe (offset size : Nat) (s : State) : safeOutcome (hostRead offset size s) = true := by
  unfold hostRead
  repeat' split
  all_goals rfl

theorem otherWrite_safe (a : Word) (b : Byte) (s : State) : safeOutcome (otherWrite a b s) = true := by
  unfold otherWrite
  split <;> rfl

theorem otherRead_safe (a : Word) (s : State) : safeOutcome (otherRead a s) = true := by
  unfold otherRead
  split <;> rfl

/-- Settles O55: only the engine's accesses of a streaming job could stop with a fault, and its windows lie in the
address space. -/
theorem invNeverFaults : Obligations.InvNeverFaults := by
  intro s hi
  cases hturns : s.turns with
  | nil =>
    rw [step_of_turns_nil hturns]
    exact engineStep_safe hi
  | cons turn rest =>
    rw [step_of_turns_cons hturns]
    cases turn with
    | engine => exact engineStep_safe (s := { s with turns := rest }) hi
    | regWrite offset size v => exact regWrite_safe offset size v _
    | regRead offset size => exact hostRead_safe offset size _
    | memWrite a b => exact otherWrite_safe a b _
    | memRead a => exact otherRead_safe a _
    | reset => rfl

/-! ### Every streaming job ends (R163, R250) -/

/-- A running streaming job between two blocks runs one of the four streaming operations (R70, R163). -/
theorem step_streaming {s : State} (hd : jobDirection s ≠ none) (hstage : s.stage = .boundary)
    (hturns : s.turns = []) : ∃ i, Streams i ∧ step s = exec i s := by
  have hb := busy_of_jobDirection hd
  cases hi : decodeCmd s.cmd with
  | error e => simp [jobDirection, hi] at hd
  | ok i =>
    refine ⟨i, ?_, step_of_fetch hturns (fetch_command hb (.inl hstage) hi)⟩
    rcases decodeCmd_ok hi with ⟨full, hv⟩ | ⟨full, hv⟩ | ⟨-, hcmd⟩
    · exact ⟨full, .inl hv⟩
    · exact ⟨full, .inr hv⟩
    · exact absurd (jobDirection_of_ubound hcmd) hd

/-- What a block step that completes leaves, in either direction (R164, R165). -/
structure BlockDone (s t : State) : Prop where
  frame : EngineFrame s t
  blk : t.blk = s.blk + 1
  stage : t.stage = .boundary

/-- A block step completes, or ends in ERR (R164, R165, R205). -/
theorem exec_block {i : Instr} {s : State} (hi : Streams i) (hs : s.atBlock) (hfits : s.windowOverflows = false) :
    ∃ t, exec i s = .next t ∧ (BlockDone s t ∨ t.status = .err) := by
  obtain ⟨full, hv | hv⟩ := hi
  · obtain ⟨t, hnext, hend⟩ := settle_next_of_staysInSpace (s := s) (encodeBlock_staysInSpace full hfits)
    refine ⟨t, (exec_encode_atBlock hv hs).trans hnext, hend.imp_left fun ht => ?_⟩
    exact ⟨(encodeBlock_keepsFrame full s).frame t ht, by rw [encodeBlock_ok ht], by rw [encodeBlock_ok ht]⟩
  · obtain ⟨t, hnext, hend⟩ := settle_next_of_staysInSpace (s := s) (decodeBlock_staysInSpace full hfits)
    refine ⟨t, (exec_decode_atBlock hv hs).trans hnext, hend.imp_left fun ht => ?_⟩
    exact ⟨(decodeBlock_keepsFrame full s).frame t ht, by rw [decodeBlock_ok ht], by rw [decodeBlock_ok ht]⟩

/-- A running streaming job with `m` blocks left ends. -/
theorem job_ends (m : Nat) {s : State} (hi : s.Inv) (hd : jobDirection s ≠ none) (hstage : s.stage = .boundary)
    (hturns : s.turns = []) (hm : s.blk.toNat + m = s.blocks) :
    ∃ k t, k ≤ m + 1 ∧ core.run k s = .next t ∧ ((t.status = .done ∧ k = m + 1) ∨ t.status = .err) := by
  induction m generalizing s with
  | zero =>
    obtain ⟨i, hstream, hstep⟩ := step_streaming hd hstage hturns
    have hend := hstep.trans (exec_of_no_block_left hstream (busy_of_jobDirection hd) hstage (by omega))
    exact ⟨1, finishStream s, Nat.le_refl 1, run_succ (M := core) hend 0, .inl ⟨rfl, rfl⟩⟩
  | succ m ih =>
    obtain ⟨i, hstream, hstep⟩ := step_streaming hd hstage hturns
    obtain ⟨t, hexec, hdone | herr⟩ :=
      exec_block hstream ⟨busy_of_jobDirection hd, hstage, by omega⟩ (windows_fit hi hd)
    · have hnext := hstep.trans hexec
      have hblk : t.blk.toNat = s.blk.toNat + 1 := by
        obtain ⟨hB, -⟩ := streaming_bounds hi hd
        rw [hdone.blk]
        exact cursor_past (w := 1) (b := 2 ^ 25) (by omega) (by decide)
      obtain ⟨k, u, hk, hrun, hend⟩ := ih (stepKeepsInv s t hi hnext) (hdone.frame.jobDirection_eq ▸ hd)
        hdone.stage (hdone.frame.turns.trans hturns) (by rw [hblk, hdone.frame.blocks]; omega)
      exact ⟨k + 1, u, by omega, (run_succ (M := core) hnext k).trans hrun,
        hend.imp_left fun ⟨hfinished, hall⟩ => ⟨hfinished, by omega⟩⟩
    · exact ⟨1, t, by omega, run_succ (M := core) (hstep.trans hexec) 0, .inr herr⟩

/-- Settles O58: each step does one of the blocks left, finishes the job when none is, or ends it in ERR. -/
theorem jobEnds : Obligations.JobEnds := by
  intro s hi hd hstage hturns
  obtain ⟨-, -, hle, -, -⟩ := streaming_bounds hi hd
  exact job_ends (s.blocks - s.blk.toNat) hi hd hstage hturns (by omega)

end Sys2Proof.Machine
end

section
/-! What an instruction leaves when a BUSY engine runs it, in any state (43_jobs.md R163, 60_exceptions.md R205, R206),
and the engine that has nothing to run (R224). -/

namespace Sys2Proof.Machine

/-! ### An engine without a START (R224) -/

/-- Without a START an engine that is not BUSY fetches nothing (R160, R224). -/
theorem fetch_of_idle {s : State} (hb : s.status ≠ .busy) (hs : s.start = false) : fetch s = .nothing := by
  simp only [fetch, hb, hs, if_false, Bool.false_eq_true]

/-- Settles O41: the step is the engine's, which fetches nothing. -/
theorem idleEngineDoesNothing : Obligations.IdleEngineDoesNothing := by
  intro s hturns hb hs
  rw [step_of_turns_nil hturns, engineStep, fetch_of_idle hb hs]

/-! ### An instruction that a BUSY engine runs (R163) -/

/-- How an instruction comes out on a BUSY engine: what its accesses leave, settled, or the end of the job. -/
inductive BusyOutcome (s : State) (o : Host.Outcome State Fault Refusal) : Prop
  /-- A block step, a row, or what changes nothing (R164, R165, R142, R143, R145). -/
  | settled (r : Except Stop State) (hr : KeepsFrame s r) (ho : o = settle s r)
  /-- The finish step (R168). -/
  | finished (t : State) (hdone : t.status = .done) (ho : o = .next t)

/-- What keeps the frame without an access that could be refused. -/
theorem BusyOutcome.of_frame {s t : State} (hf : EngineFrame s t) : BusyOutcome s (.next t) :=
  .settled (.ok t) (keepsFrame_ok hf) rfl

theorem stepEncode_busyOutcome (full : Bool) {s : State} (hb : s.status = .busy) :
    BusyOutcome s (stepEncode full s) := by
  rw [stepEncode, if_pos hb]
  split
  · exact .of_frame (closeBlock_frame _ _ _ s)
  split
  · exact .settled _ (encodeBlock_keepsFrame full s) rfl
  · exact .finished _ (finishStream_status s) rfl

theorem stepDecode_busyOutcome (full : Bool) {s : State} (hb : s.status = .busy) :
    BusyOutcome s (stepDecode full s) := by
  rw [stepDecode, if_pos hb]
  split
  · exact .settled _ (finishDecode_keepsFrame full s) rfl
  split
  · exact .settled _ (decodeBlock_keepsFrame full s) rfl
  · exact .finished _ (finishStream_status s) rfl

theorem execUbound_busyOutcome {s : State} (hb : s.status = .busy) : BusyOutcome s (execUbound s) := by
  rw [execUbound, if_pos hb]
  exact .finished _ (finishUbound_status s) rfl

theorem execBlkhdr_busyOutcome (lz tz : Lanes (BitVec 2)) (s : State) : BusyOutcome s (execBlkhdr lz tz s) := by
  unfold execBlkhdr
  split
  · exact .settled _ (thenStage_keepsFrame (putHeader_keepsFrame _ s) _) rfl
  · exact .of_frame (.of_mem_eq rfl rfl)
  · exact .of_frame (.refl s)

theorem stepLane_busyOutcome (w : Nat) (tz : BitVec 2) (s : State) : BusyOutcome s (stepLane w tz s) := by
  unfold stepLane
  split
  · exact .settled _ (thenStage_keepsFrame (marshalLane_keepsFrame _ _ s) _) rfl
  · exact .settled _ (thenStage_keepsFrame (unmarshalLane_keepsFrame _ _ _ s) _) rfl
  · exact .of_frame (.refl s)

/-- Every instruction, at every stage and every BLK (R163). -/
theorem exec_busyOutcome (i : Instr) {s : State} (hb : s.status = .busy) : BusyOutcome s (exec i s) := by
  cases i with
  | enc => exact stepEncode_busyOutcome true hb
  | dec => exact stepDecode_busyOutcome true hb
  | encq => exact stepEncode_busyOutcome false hb
  | decq => exact stepDecode_busyOutcome false hb
  | ubound => exact execUbound_busyOutcome hb
  | blkhdr lz tz => exact execBlkhdr_busyOutcome lz tz s
  | laneW4 tz => exact stepLane_busyOutcome 4 tz s
  | laneW3 tz => exact stepLane_busyOutcome 3 tz s
  | laneW2 tz => exact stepLane_busyOutcome 2 tz s
  | laneW0 tz => exact stepLane_busyOutcome 0 tz s

/-! ### Fault entry (R205, R206) -/

/-- A BUSY engine reaches ERR only by a refused access, whose fault is taken from the state before the step. -/
theorem BusyOutcome.faulted_of_err {s t : State} (h : BusyOutcome s (.next t)) (hb : s.status = .busy)
    (herr : t.status = .err) : ∃ c addr, Cause.ofAccess c ∧ s.faulted c addr t := by
  cases h with
  | settled r hr ho =>
    rcases settle_next ho.symm with hok | ⟨c, addr, hraised, rfl⟩
    · have hstatus := (hr.frame t hok).status
      simp [herr, hb] at hstatus
    · exact ⟨c, addr, hr.stop _ hraised, raiseInBlock_faulted c addr s⟩
  | finished u hdone ho =>
    cases ho
    simp [herr] at hdone

theorem Cause.ofAccess_iff_mem {c : Cause} : c.ofAccess ↔ c ∈ [Cause.srcBounds, .dstBounds, .bus] := by
  simp [Cause.ofAccess]

/-- Settles O34: ERR is the fault of a refused access, and that fault keeps the frame. -/
theorem faultEntryFrame : Obligations.FaultEntryFrame := by
  intro i s t hb hexec herr
  have hout : BusyOutcome s (.next t) := hexec ▸ exec_busyOutcome i hb
  obtain ⟨c, addr, haccess, -, hcause, -, hframe⟩ := hout.faulted_of_err hb herr
  exact ⟨hcause ▸ Cause.ofAccess_iff_mem.1 haccess, hframe⟩

end Sys2Proof.Machine
end

section
/-! Reset and hazards (70_reset_and_hazards.md): the reset event (R230, R231), the windows that are the engine's until
the end of their job is read (R240), and a read of BLK while blocks are still to do (R246). -/

namespace Sys2Proof.Machine

/-! ### A read of BLK while BUSY (R246, U25) -/

/-- Any count has fewer blocks than a word has values, so that every block index fits BLK (R9, R24). -/
theorem State.blocks_lt (s : State) : s.blocks < 2 ^ 32 := by
  have := s.n.isLt
  unfold State.blocks blockCount
  omega

/-- A read of BLK while blocks are still to be completed returns no completed block's index, and none smaller than an
earlier read of the job did. -/
theorem max_le_readBlk {s : State} (hd : jobDirection s ≠ none) (hblk : s.blk.toNat < s.blocks)
    (hseen : s.blkSeen.toNat < s.blocks) : max s.blk.toNat s.blkSeen.toNat ≤ (readBlk s).toNat := by
  have hleast : max s.blk.toNat s.blkSeen.toNat < s.blocks := Nat.max_lt.2 ⟨hblk, hseen⟩
  have hchoice := Nat.mod_lt (Config.freeChoice s.freeCtr) (Nat.sub_pos_of_lt hleast)
  have hfits := s.blocks_lt
  simp only [readBlk, jobBlocks, if_neg hd]
  rw [if_pos hleast, BitVec.toNat_ofNat, Nat.mod_eq_of_lt (by omega)]
  exact Nat.le_add_right _ _

/-- Settles O48: the free choice lies between the least index the rule leaves and the last block. -/
theorem blkReadWhileBusy : Obligations.BlkReadWhileBusy := by
  intro s rest hturns hd hblk hseen
  obtain ⟨hle, hgrows⟩ := Nat.max_le.1 (max_le_readBlk (s := { s with turns := rest }) hd hblk hseen)
  exact ⟨_, (step_of_turns_cons hturns).trans (takeTurn_regRead_blk _), hle,
    readBlk_lt (s := { s with turns := rest }) hd hblk hseen, hgrows, rfl, rfl⟩

/-! ### The time the windows are the engine's (R240) -/

/-- The accepted start of a streaming job makes its windows the engine's; a rejected one does not leave BUSY. -/
theorem windows_mem_unread_of_startStream {s t : State} (h : startStream s = .next t) (hb : t.status = .busy) :
    s.windows ∈ t.unread := by
  rcases startStream_next h with ⟨c, -, rfl⟩ | ⟨rfl, -⟩
  · rw [takeFault_status] at hb
    cases hb
  · rw [beginStream_unread]
    exact List.mem_cons_self

theorem EngineFrame.unread {s t : State} (h : EngineFrame s t) : t.unread = s.unread := by rw [h.registers]

/-- No step of the engine gives a window back, the end of the job included. -/
theorem EngineMove.unread_subset {s t : State} (h : EngineMove s t) : s.unread ⊆ t.unread := by
  cases h with
  | idle _ ht => rw [ht]; exact List.Subset.refl _
  | rejected _ _ _ _ ht => rw [ht, takeFault_unread, clearForStart_unread]; exact List.Subset.refl _
  | begun _ _ _ _ _ _ ht => rw [ht, beginStream_unread]; exact List.subset_cons_self _ _
  | begunUbound _ _ _ _ ht => rw [ht]; exact List.Subset.refl _
  | faulted _ _ _ _ ht => rw [ht, raiseInBlock_unread]; exact List.Subset.refl _
  | block _ _ _ hf => rw [hf.unread]; exact List.Subset.refl _
  | header _ _ hf => rw [hf.unread]; exact List.Subset.refl _
  | lane _ _ _ _ _ hf => rw [hf.unread]; exact List.Subset.refl _
  | finished _ _ ht => rw [ht, finishStream_unread]; exact List.Subset.refl _
  | finishedUbound _ ht => rw [ht, finishUbound_unread]; exact List.Subset.refl _

@[simp] theorem putRegister_unread (offset : Nat) (v : Word) (s : State) :
    (putRegister offset v s).unread = s.unread := by
  rw [putRegister_frame]

/-- Of the register reads, only one of STATUS that returns DONE or ERR gives windows back. -/
theorem regRead_unread {offset size : Nat} {s t : State} (h : takeTurn (.regRead offset size) s = .next t) :
    t.unread = s.unread ∨ (offset = 0x04 ∧ size = 4 ∧ (s.status = .done ∨ s.status = .err)) := by
  obtain ⟨hdef, -⟩ := hostRead_next h
  obtain ⟨rfl, ha⟩ := accessDefined_iff.1 hdef
  by_cases hstatus : offset = 0x04
  · subst hstatus
    rw [takeTurn_regRead_status] at h
    cases h
    by_cases hended : s.status = .done ∨ s.status = .err
    · exact .inr ⟨rfl, rfl, hended⟩
    · exact .inl (if_neg hended)
  · by_cases hblk : offset = 0x28
    · subst hblk
      rw [takeTurn_regRead_blk] at h
      cases h
      exact .inl rfl
    · rw [takeTurn_regRead ha hstatus hblk] at h
      cases h
      exact .inl rfl

/-- A step keeps every window of the engine's but by the read that reports the job's end, and by reset. -/
theorem step_unread {s t : State} (h : step s = .next t) : s.unread ⊆ t.unread ∨
    (∃ rest, s.turns = .regRead 0x04 4 :: rest ∧ (s.status = .done ∨ s.status = .err)) ∨
    ∃ rest, s.turns = .reset :: rest := by
  cases hturns : s.turns with
  | nil =>
    rw [step_of_turns_nil hturns] at h
    exact .inl (engineStep_move h).unread_subset
  | cons turn rest =>
    rw [step_of_turns_cons hturns] at h
    cases turn with
    | engine => exact .inl (engineStep_move h).unread_subset
    | regWrite offset size v =>
      obtain ⟨-, ⟨-, rfl⟩ | ⟨-, -, he⟩ | ⟨-, -, rfl⟩⟩ := regWrite_next h
      · exact .inl (List.Subset.refl _)
      · have hkept := (engineStep_move he).unread_subset
        rw [putRegister_unread] at hkept
        exact .inl hkept
      · rw [putRegister_unread]
        exact .inl (List.Subset.refl _)
    | regRead offset size =>
      rcases regRead_unread h with hkept | ⟨rfl, rfl, hended⟩
      · exact .inl (hkept ▸ List.Subset.refl _)
      · exact .inr (.inl ⟨rest, rfl, hended⟩)
    | memWrite a b => rw [(otherWrite_next h).2]; exact .inl (List.Subset.refl _)
    | memRead a => rw [otherRead_next h]; exact .inl (List.Subset.refl _)
    | reset => exact .inr (.inr ⟨rest, rfl⟩)

/-! ### Other agents at the engine's windows (R240) -/

theorem otherWrite_refused {s : State} {a : Word} {w : Windows} (b : Byte) (hw : w ∈ engineWindows s)
    (ha : w.inSource a.toNat = true ∨ w.inDestination a.toNat = true) :
    otherWrite a b s = .refused (.windowTouched a) :=
  if_pos (List.any_eq_true.2 ⟨w, hw, by simpa using ha⟩)

theorem otherRead_refused {s : State} {a : Word} {w : Windows} (hw : w ∈ engineWindows s)
    (ha : w.inDestination a.toNat = true) : otherRead a s = .refused (.windowTouched a) :=
  if_pos (List.any_eq_true.2 ⟨w, hw, ha⟩)

theorem otherWrite_made {s : State} {a : Word} (b : Byte)
    (ha : ∀ w ∈ engineWindows s, w.inSource a.toNat = false ∧ w.inDestination a.toNat = false) :
    otherWrite a b s = .next { s with mem := s.mem.writeByte a.toNat b } := by
  refine if_neg fun hany => ?_
  obtain ⟨w, hw, hin⟩ := List.any_eq_true.1 hany
  obtain ⟨hsrc, hdst⟩ := ha w hw
  simp [hsrc, hdst] at hin

theorem otherRead_made {s : State} {a : Word} (ha : ∀ w ∈ engineWindows s, w.inDestination a.toNat = false) :
    otherRead a s = .next { s with hostData := (s.mem.readByte a.toNat).setWidth 32 } := by
  refine if_neg fun hany => ?_
  obtain ⟨w, hw, hin⟩ := List.any_eq_true.1 hany
  simp [ha w hw] at hin

/-- Settles O50: the start takes the windows, every step but the two keeps them, and each access of another agent is
refused or made by where it lies; the turns still to come are in none of these. -/
theorem windowsExclusive : Obligations.WindowsExclusive := by
  refine ⟨fun s t => windows_mem_unread_of_startStream, fun s t => step_unread, fun s a b rest => ?_⟩
  refine ⟨fun w hw ha => ?_, fun w hw ha => ?_, fun ha => ?_, fun ha => ?_⟩
  · exact otherWrite_refused (s := { s with turns := rest }) b hw ha
  · exact otherRead_refused (s := { s with turns := rest }) hw ha
  · exact otherWrite_made (s := { s with turns := rest }) b ha
  · exact otherRead_made (s := { s with turns := rest }) ha

/-! ### The reset event (R230, R231) -/

theorem resetEvent_of_no_streaming {s : State} (h : jobDirection s = none) : resetEvent s = resetRegisters s :=
  if_pos h

theorem resetEvent_of_streaming {s : State} (h : jobDirection s ≠ none) :
    resetEvent s = resetRegisters (loseDestination s) :=
  if_neg h

/-- Every register takes its value after reset, whether or not a job is abandoned (R230). -/
theorem resetEvent_registers (s : State) : resetEvent s = { State.reset with
    mem := (resetEvent s).mem, plat := s.plat, turns := s.turns, hostData := s.hostData
    freeCtr := (resetEvent s).freeCtr } := by
  by_cases h : jobDirection s = none
  · rw [resetEvent_of_no_streaming h]
    rfl
  · rw [resetEvent_of_streaming h]
    rfl

theorem resetEvent_mem_of_no_streaming {s : State} (h : jobDirection s = none) : (resetEvent s).mem = s.mem := by
  rw [resetEvent_of_no_streaming h, resetRegisters_mem]

theorem inDestination_eq_true_iff {s : State} {a : Nat} :
    s.inDestination a = true ↔ s.dst.toNat ≤ a ∧ a < s.dst.toNat + s.dstLen.toNat := by
  simp [State.inDestination]

/-- An abandoned streaming job loses every byte of its destination window (R231, U9). -/
theorem readByte_resetEvent_inside {s : State} {a : Nat} (hd : jobDirection s ≠ none)
    (ha : s.inDestination a = true) : (resetEvent s).mem.readByte a = Config.freeByte s.freeCtr a := by
  obtain ⟨hlo, hhi⟩ := inDestination_eq_true_iff.1 ha
  rw [resetEvent_of_streaming hd, resetRegisters_mem, loseDestination_mem]
  exact Memory.readByte_lose_inside hlo hhi

/-- Reset leaves every byte outside the destination window (R230, R231). -/
theorem readByte_resetEvent_outside {s : State} {a : Nat} (ha : s.inDestination a = false) :
    (resetEvent s).mem.readByte a = s.mem.readByte a := by
  by_cases hd : jobDirection s = none
  · rw [resetEvent_mem_of_no_streaming hd]
  · rw [resetEvent_of_streaming hd, resetRegisters_mem, loseDestination_mem]
    exact Memory.readByte_lose_outside (inDestination_eq_false_iff.1 ha)

/-- Settles O52: the registers are those after reset, and memory is lost at most in the abandoned job's window. -/
theorem resetEventStep : Obligations.ResetEvent := by
  intro s rest hturns
  refine ⟨resetEvent { s with turns := rest }, step_of_turns_cons hturns, ?_⟩
  have hmem (hd : jobDirection s = none) : (resetEvent { s with turns := rest }).mem = s.mem :=
    resetEvent_mem_of_no_streaming (s := { s with turns := rest }) hd
  have hlost (hd : jobDirection s ≠ none) (a : Nat) (ha : s.inDestination a = true) :
      (resetEvent { s with turns := rest }).mem.readByte a = Config.freeByte s.freeCtr a :=
    readByte_resetEvent_inside (s := { s with turns := rest }) hd ha
  have hkept (a : Nat) (ha : s.inDestination a = false) :
      (resetEvent { s with turns := rest }).mem.readByte a = s.mem.readByte a :=
    readByte_resetEvent_outside (s := { s with turns := rest }) ha
  rw [resetEvent_registers]
  exact ⟨rfl, rfl, rfl, rfl, rfl, rfl, rfl, rfl, rfl, rfl, rfl, rfl, rfl, rfl, hmem, hlost, hkept⟩

end Sys2Proof.Machine
end
